-- ==== Sys2Proof/Word.lean ====
section
/-! DEFINITION. The word types of the engine and the two tags a command word carries
(00_scope.md rules R5, R7, R9). -/

namespace Sys2Proof

/-- A display byte, a glyph column byte, a character code (00_scope.md rule R5, BYTE_W and CODE_W). -/
abbrev Byte := BitVec 8

/-- A host register, a host access, a command word (00_scope.md rule R5, HOST_W). -/
abbrev Word := BitVec 16

/-- Color (00_scope.md rule R9): BACKGROUND is a clear bit, FOREGROUND a set bit. -/
inductive Color where
  | background
  | foreground
  deriving DecidableEq, Repr, Inhabited

/-- Font (00_scope.md rule R9): the page-aligned 8×8 font and the pixelwise 3×6 font. -/
inductive Font where
  | f8x8
  | f3x6
  deriving DecidableEq, Repr, Inhabited

end Sys2Proof
end

