-- ==== Sys2Proof/Machine/Types.lean ====
section
/-! DEFINITION. The kinds of thing the machine's state and its inputs are made of. -/

namespace Sys2Proof.Machine

/-- Which controller chip (00_scope.md rule R9): LEFT = 0 for x < 64, RIGHT = 1 for x ≥ 64. -/
inductive Side where
  | left
  | right
  deriving DecidableEq, Repr, Inhabited

/-- The Address triple of 20_memory.md rule R44: side, page 0..7, chip-relative column 0..63. -/
structure Address where
  side : Side
  page : BitVec 3
  column : BitVec 6
  deriving DecidableEq, Repr, Inhabited

/-- The result codes a command can end with (00_scope.md rule R9, 60_exceptions.md rule R131).
Codes 5 to 7 are never written (10_state.md rule R18), so they have no constructor. -/
inductive Result where
  | ok
  | outOfRange
  | hwTimeout
  | badCommand
  | refused
  deriving DecidableEq, Repr, Inhabited

/-- SEQ, the bus-protocol sequencer (10_state.md rule R25). -/
inductive SeqState where
  | idle
  | addrR
  | readPending
  | haveByte
  | addrW
  deriving DecidableEq, Repr, Inhabited

/-- One piece of work the running rasterizer has still to do. The loop variables of 10_state.md rule
R26 are held as the list of these that remain (DESIGN CHOICE, safe, log 10). -/
inductive Task where
  /-- plot a point, clipped (41_pixelplot.md rule R90) -/
  | point (x y : Int)
  /-- write one whole display byte (40_addressing.md rule R82) -/
  | store (a : Address) (v : Byte)
  /-- column `i` of an 8×8 glyph at the text cursor (44_text.md rule R108) -/
  | column (ch : Byte) (i : Fin 8)
  /-- row `j` of column `i` of a 3×6 glyph at the text cursor (44_text.md rule R109) -/
  | dot (ch : Byte) (i : Fin 3) (j : Fin 6)
  /-- the end of a glyph: advance the text cursor (44_text.md rule R107) -/
  | advance (f : Font)
  deriving DecidableEq, Repr

/-- The working state of 10_state.md rule R26: what the engine holds while a command runs. -/
structure Work where
  opcode : BitVec 4
  color : Color
  font : Font
  arg0 : Word
  arg1 : Word
  arg2 : Word
  arg3 : Word
  /-- the characters read from CHARBUF -/
  text : Vector Byte 64
  /-- the byte returned by the latest true read -/
  byte : Byte
  /-- what the rasterizer has still to do -/
  todo : List Task
  deriving DecidableEq, Repr, Inhabited

/-- The three display-bus transactions (20_memory.md rule R46). -/
inductive Transaction where
  | sel (s : Side) (p : BitVec 3) (c : BitVec 6)
  | rd (s : Side)
  | wr (s : Side) (v : Byte)
  deriving DecidableEq, Repr

/-- How the Bus answers a transaction (20_memory.md rule R46): it completes, or it times out. -/
inductive Answer where
  | ok
  | timeout
  deriving DecidableEq, Repr, Inhabited

/-- What the outside does next at the engine's host side: the Host's accesses of 30_encoding.md rule
R72, and the reset of 70_reset_and_hazards.md rule R146. -/
inductive HostEvent where
  /-- `MemWrite(off, 2, v)` -/
  | w16 (off : BitVec 7) (v : Word)
  /-- `MemRead(off, 2)` -/
  | r16 (off : BitVec 7)
  /-- `WAIT`: read STATUS until BUSY = 0 -/
  | wait
  /-- the Host makes no access until the engine has acted once more (DESIGN CHOICE, safe, log 2) -/
  | pause
  /-- engine reset; `cut` says that a transaction is in flight and is cut short (log 22) -/
  | reset (cut : Bool)
  deriving DecidableEq, Repr

/-- One controller's address cursor and output latch (10_state.md rules R29, R30). -/
structure Chip where
  page : BitVec 3
  col : BitVec 6
  latch : Byte
  deriving DecidableEq, Repr, Inhabited

/-- The display memory (20_memory.md rule R44) as (address, byte) pairs; `Memory.wf` in Ops.lean is its
canonical form. -/
abbrev Memory := List Host.Cell

end Sys2Proof.Machine
end

