-- ==== Sys2Proof/Config.lean ====
section
/-! DEFINITION. What a device fixes (00_scope.md rules R5, R6) and the values the spec leaves open
(93_implementation_defined.md). The opaque constants have no body: a theorem about them holds
whatever they are. -/

namespace Sys2Proof.Config

open Sys2Proof.Machine

/-- CHARBUF_SIZE (00_scope.md rule R5). -/
abbrev charbufSize : Nat := 64

/-- DRAM_BYTES (00_scope.md rule R5): 2 sides × 8 pages × 64 columns. -/
abbrev dramBytes : Nat := 1024

/-- What a display byte that is not listed reads as: the display's power-on contents, which the spec
leaves unspecified (10_state.md rule R35). DESIGN CHOICE 0, unsafe for statements about
`State.reset` alone (log 6). -/
def powerOnByte : Byte := 0#8

/-- GAP8 (00_scope.md rule R6), a parameter (log 16). -/
opaque gap8 : Nat

/-- GAP3 (00_scope.md rule R6), a parameter (log 16). -/
opaque gap3 : Nat

/-- FONT8 (00_scope.md rule R6): column byte `i` of the 8×8 glyph of a code, a parameter (log 16). -/
opaque font8 : Byte → Fin 8 → Byte

/-- FONT3 (00_scope.md rule R6): row mask `i` of the 3×6 glyph of a code, a parameter (log 16). -/
opaque font3 : Byte → Fin 3 → BitVec 6

/-- PAGE_REG of the side of a timed-out transaction (20_memory.md rule R51, U6): any value (log 5). -/
opaque freePage : Nat → BitVec 3

/-- COL_REG of the side of a timed-out transaction (20_memory.md rule R51, U6): any value (log 5). -/
opaque freeCol : Nat → BitVec 6

/-- OUT_LATCH of the side of a timed-out transaction (20_memory.md rule R51, U6): any value (log 5). -/
opaque freeLatch : Nat → Byte

/-- Whether a timed-out WR landed (20_memory.md rule R51): either (log 5). -/
opaque freeLanded : Nat → Bool

/-- CHARBUF after a reset event (10_state.md rule R23): any contents (log 8). -/
opaque freeCharbuf : Nat → Vector Byte 64

/-- The working state between commands (10_state.md rule R26): undefined (log 9). -/
opaque freeWork : Nat → Work

end Sys2Proof.Config
end

