-- ==== Sys2Proof/Machine/State.lean ====
section
/-! DEFINITION. The machine's state (10_state.md), the state after reset, and the reasons a step could
stop. -/

namespace Sys2Proof.Machine

/-- The display subsystem (10_state.md section 4): DRAM and the two controllers. -/
structure Display where
  /-- DRAM, rule R28 -/
  dram : Memory
  /-- PAGE_REG[LEFT], COL_REG[LEFT], OUT_LATCH[LEFT], rules R29, R30 -/
  left : Chip
  /-- PAGE_REG[RIGHT], COL_REG[RIGHT], OUT_LATCH[RIGHT], rules R29, R30 -/
  right : Chip
  deriving DecidableEq, Repr

/-- All the state the spec gives the engine and the display, the inputs still to come from the other
agents, and three fields of the model's own (`reads`, `trace`, `draws`). -/
structure State where
  /-- CMD, 10_state.md rule R15 -/
  cmd : Word
  /-- STATUS.BUSY, rule R17 -/
  busy : Bool
  /-- STATUS.RESULT, rule R18 -/
  result : Result
  /-- STATUS.FAULT, rule R19 -/
  fault : Bool
  /-- STATUS.BUSYWR, rule R20 -/
  busyWr : Bool
  /-- ARG0, rule R21 -/
  arg0 : Word
  /-- ARG1, rule R21 -/
  arg1 : Word
  /-- ARG2, rule R21 -/
  arg2 : Word
  /-- ARG3, rule R21 -/
  arg3 : Word
  /-- CURX, rule R22 -/
  curx : Word
  /-- CURY, rule R22 -/
  cury : Word
  /-- CHARBUF, rule R23: character `i` is byte `i` -/
  charbuf : Vector Byte 64
  /-- SEQ, rule R25 -/
  seq : SeqState
  /-- the working state of rule R26 -/
  work : Work
  /-- the display subsystem, rules R28 to R30 -/
  disp : Display
  /-- the Host's accesses still to come, first = next (log 1) -/
  host : List HostEvent
  /-- the Bus's answers still to come, one a transaction; none left = OK (log 4) -/
  answers : List Answer
  /-- what the Host's reads returned, newest first; the model's own (log 11) -/
  reads : List Word
  /-- the transactions issued, newest first; the model's own (log 11) -/
  trace : List (Transaction × Answer)
  /-- number of the next free value; the model's own (log 12) -/
  draws : Nat
  deriving DecidableEq, Repr

/-- No step of this machine faults: "an error ends the running command and is reported in STATUS"
(60_exceptions.md, its opening; rules R131, R138), and every host access is defined (20_memory.md
rules R40, R41). So the type has no constructor (DEDUCED, safe, log 24). -/
inductive Fault where
  deriving DecidableEq, Repr

/-- The one refusal: an arm of `exec` without a meaning. Raised by no arm of this model; it would be
safe (the machine stops where the hardware goes on). -/
inductive Refusal where
  /-- raised by an arm of `exec` that has no meaning yet, with the table's mnemonic; safe -/
  | notModelled (mnemonic : String)
  deriving DecidableEq, Repr

/-- The working state in `State.reset`, which the spec leaves undefined (10_state.md rule R34): zeros
(DESIGN CHOICE, log 9). -/
def Work.reset : Work :=
  { opcode := 0, color := .background, font := .f8x8, arg0 := 0, arg1 := 0, arg2 := 0, arg3 := 0,
    text := Vector.replicate 64 0, byte := 0, todo := [] }

/-- A controller at the display's power-on, which the spec leaves unspecified (10_state.md rule R35):
zeros (DESIGN CHOICE, unsafe, log 7). -/
def Chip.reset : Chip := { page := 0, col := 0, latch := 0 }

/-- The machine right after reset (10_state.md rules R34, R35, 70_reset_and_hazards.md rules R146,
R147). CHARBUF, the display and the working state are unspecified there and hold the values of
logs 6 to 9 (DESIGN CHOICE, unsafe). No host access and no answer is scripted (logs 1, 4). -/
def State.reset : State :=
  { cmd := 0, busy := false, result := .ok, fault := false, busyWr := false,
    arg0 := 0, arg1 := 0, arg2 := 0, arg3 := 0, curx := 0, cury := 0,
    charbuf := Vector.replicate 64 0, seq := .idle, work := Work.reset,
    disp := { dram := [], left := Chip.reset, right := Chip.reset },
    host := [], answers := [], reads := [], trace := [], draws := 0 }

/-- How a command stands after a piece of its work: still running, or ended (by `finish`, by an abort
or by a reset) so that none of its later work runs (60_exceptions.md rule R134). -/
inductive Flow where
  | running (s : State)
  | ended (s : State)
  deriving DecidableEq, Repr

/-- How serving the Host's accesses before an engine action ends: the engine acts, or a reset has
arrived (70_reset_and_hazards.md rule R146), `cut` if it cuts the engine's next transaction short. -/
inductive Served where
  | go (s : State)
  | reset (cut : Bool) (s : State)
  deriving DecidableEq, Repr

end Sys2Proof.Machine
end

