-- ==== Sys2Proof/Machine/Addressing.lean ====
section
/-! DEFINITION. The coordinate translator (40_addressing.md section 1): range check, `locate`, bit
index, and the number of a display byte in the model's memory. -/

namespace Sys2Proof.Machine

/-- `onScreen(x, y)` (40_addressing.md rule R75). -/
def onScreen (x y : Int) : Bool := decide (0 ≤ x ∧ x < 128 ∧ 0 ≤ y ∧ y < 64)

/-- `locate(x, y)` (40_addressing.md rule R76). No rule calls it off the screen (rule R79), where its
value means nothing. -/
def locate (x y : Int) : Address :=
  { side := if x < 64 then .left else .right
    page := BitVec.ofNat 3 (y.toNat / 8)
    column := BitVec.ofNat 6 (x.toNat % 64) }

/-- The bit index `y mod 8` of an on-screen pixel (40_addressing.md rule R77). -/
def bitIndex (y : Int) : Nat := y.toNat % 8

/-- LEFT = 0, RIGHT = 1 (00_scope.md rule R9). -/
def Side.code : Side → Nat
  | .left => 0
  | .right => 1

/-- The x a column of a side shows, `column + 64 * side` (40_addressing.md rule R78). -/
def Address.x (a : Address) : Int := (a.column.toNat + 64 * a.side.code : Nat)

/-- The y a bit of a page shows, `page * 8 + k` (40_addressing.md rule R78). -/
def Address.y (a : Address) (k : Nat) : Int := (a.page.toNat * 8 + k : Nat)

/-- The number of a display byte in the model's memory: 512 side + 64 page + column, 0 to 1023
(DESIGN CHOICE, safe, log 25). -/
def Address.cell (a : Address) : Nat := 512 * a.side.code + 64 * a.page.toNat + a.column.toNat

end Sys2Proof.Machine
end

