-- ==== Sys2Proof/Machine/Flags.lean ====
section
/-! DEFINITION. STATUS: the result codes, the word the Host reads, and the writers of its fields
(10_state.md rules R16 to R20, R33). -/

namespace Sys2Proof.Machine

/-- The code of a result (00_scope.md rule R9). -/
def Result.code : Result → BitVec 3
  | .ok => 0
  | .outOfRange => 1
  | .hwTimeout => 2
  | .badCommand => 3
  | .refused => 4

/-- STATUS as the Host reads it (10_state.md rule R16): bits 15:6 are hard-wired 0. -/
def State.statusWord (s : State) : Word :=
  0#10 ++ BitVec.ofBool s.busyWr ++ BitVec.ofBool s.fault ++ s.result.code ++ BitVec.ofBool s.busy

/-- A host write that arrives while BUSY = 1: dropped, BUSYWR set (10_state.md rule R20, 20_memory.md
rule R41). -/
def dropWrite (s : State) : State := { s with busyWr := true }

/-- `finish(code)` (45_control.md rule R123): RESULT, SEQ and BUSY at once. The working state is
undefined from here on (10_state.md rule R26): a free value (log 9). -/
def finish (code : Result) (s : State) : State :=
  { s with result := code, seq := .idle, busy := false,
           work := Config.freeWork s.draws, draws := s.draws + 1 }

/-- The state change of `raise Abort(code)` (60_exceptions.md rule R134), the engine's one way into an
error: FAULT is set by HW_TIMEOUT alone, nothing is saved, and the command is finished. -/
def abort (code : Result) (s : State) : State :=
  finish code (if code = .hwTimeout then { s with fault := true } else s)

/-- The return from the error state, INIT's effect on STATUS (45_control.md rule R125, 60_exceptions.md
rule R141). -/
def acknowledge (s : State) : State := { s with fault := false, busyWr := false }

end Sys2Proof.Machine
end

