-- ==== Sys2Proof/Assembly.lean ====
section
/-! DEFINITION. The host-program syntax (30_encoding.md rules R72, R73): one line of a host program. -/

namespace Sys2Proof

/-- A line of a host program: a bare access, a command mnemonic or a pseudo-instruction, with the
operand values as written. `Line.wf` in WellFormed.lean gives the ranges. -/
inductive Line where
  | w16 (off v : Nat)
  | r16 (off : Nat)
  | wait
  | nop
  | init (mode : Nat)
  | plot (c : Color) (x y : Int)
  | rect (c : Color) (xs ys xe ye : Int)
  | fill (c : Color)
  | circle (c : Color) (xc yc : Int) (r : Nat)
  | char8 (c : Color) (ch : Nat)
  | char3 (c : Color) (ch : Nat)
  | string (f : Font) (c : Color) (len : Nat)
  | setcur (x y : Nat)
  | cls
  | hline (c : Color) (x0 x1 y : Int)
  | vline (c : Color) (x y0 y1 : Int)
  | goto (x y : Nat)
  | puts (f : Font) (c : Color) (text : List Nat)
  deriving DecidableEq, Repr

end Sys2Proof
end

