-- ==== Sys2Proof/Syntax.lean ====
section
/-! DEFINITION. The ten commands of the opcode map (30_encoding.md rule R65). -/

namespace Sys2Proof

/-- One constructor per row of spec/opcode_table.json. A command's operands are not in the command
word (30_encoding.md rule R63), so a constructor carries only the word's COLOR and FONT bits: as a
`Color` or a `Font` where the command uses the bit, and as plain bits (`unused`) where rule R69 lets
the bit be anything. For NOP, INIT and SETCUR `unused` is bits 5:4 of the word (FONT, COLOR); for the
others it is bit 5 (FONT). Keeping the ignored bits gives every accepted word a term of its own
(DESIGN CHOICE, safe, log 17). -/
inductive Instr where
  | nop (unused : BitVec 2)
  | init (unused : BitVec 2)
  | plot (color : Color) (unused : BitVec 1)
  | rect (color : Color) (unused : BitVec 1)
  | fill (color : Color) (unused : BitVec 1)
  | circle (color : Color) (unused : BitVec 1)
  | char8 (color : Color) (unused : BitVec 1)
  | char3 (color : Color) (unused : BitVec 1)
  | string (color : Color) (font : Font)
  | setcur (unused : BitVec 2)
  deriving DecidableEq, Repr

end Sys2Proof
end

