-- ==== Sys2Proof/WellFormed.lean ====
section
/-! DEFINITION. What is well formed: a command word (30_encoding.md rules R67, R68, R71), and a line of
a host program (rule R72 with the operand ranges of rule R66). Every term of `Instr` is well formed:
its fields have the widths of the encoding, and rule R69 admits every value of the unused bits. -/

namespace Sys2Proof

/-- Why the decoder rejects a word; both give BAD_COMMAND (30_encoding.md rules R67, R68). -/
inductive Reject where
  /-- OPC in 0xA to 0xF -/
  | reservedOpcode
  /-- a bit of 15:6 set -/
  | reservedBits
  deriving DecidableEq, Repr

/-- A command word is well formed iff RSVD is 0 and OPC is at most 9 (30_encoding.md rule R71). -/
def wordWellFormed (w : Word) : Bool := w &&& 0xFFC0#16 == 0 && decide ((w &&& 0xF#16).toNat ≤ 9)

/-- A 16-bit two's complement operand (30_encoding.md rule R66). -/
def coordOk (v : Int) : Bool := decide (-32768 ≤ v) && decide (v ≤ 32767)

/-- A 16-bit unsigned operand (30_encoding.md rule R66). -/
def wordOk (v : Nat) : Bool := decide (v < 65536)

/-- A character code (00_scope.md rule R5, CODE_W). -/
def codeOk (v : Nat) : Bool := decide (v < 256)

/-- A host byte offset (00_scope.md rule R5, HOST_AW). -/
def offsetOk (v : Nat) : Bool := decide (v < 128)

/-- A line's operands lie in the ranges of 30_encoding.md rule R66; PUTS holds at most 64 characters
(rule R73). -/
def Line.wf : Line → Bool
  | .w16 off v => offsetOk off && wordOk v
  | .r16 off => offsetOk off
  | .wait => true
  | .nop => true
  | .init mode => wordOk mode
  | .plot _ x y => coordOk x && coordOk y
  | .rect _ xs ys xe ye => coordOk xs && coordOk ys && coordOk xe && coordOk ye
  | .fill _ => true
  | .circle _ xc yc r => coordOk xc && coordOk yc && wordOk r
  | .char8 _ ch => codeOk ch
  | .char3 _ ch => codeOk ch
  | .string _ _ len => wordOk len
  | .setcur x y => wordOk x && wordOk y
  | .cls => true
  | .hline _ x0 x1 y => coordOk x0 && coordOk x1 && coordOk y
  | .vline _ x y0 y1 => coordOk x && coordOk y0 && coordOk y1
  | .goto x y => wordOk x && wordOk y
  | .puts _ _ text => text.all codeOk && decide (text.length ≤ 64)

end Sys2Proof
end

