-- ==== Sys2Proof/Decode.lean ====
section
/-! DEFINITION. The decoder and the encoder of the command word (30_encoding.md rules R63 to R71). -/

namespace Sys2Proof

/-- Color of a COLOR bit (30_encoding.md rule R64). -/
def Color.ofBit (b : BitVec 1) : Color := if b = 1#1 then .foreground else .background

/-- COLOR bit of a color (00_scope.md rule R9). -/
def Color.bit : Color → BitVec 1
  | .background => 0
  | .foreground => 1

/-- Font of a FONT bit (30_encoding.md rule R64). -/
def Font.ofBit (b : BitVec 1) : Font := if b = 1#1 then .f3x6 else .f8x8

/-- FONT bit of a font (00_scope.md rule R9). -/
def Font.bit : Font → BitVec 1
  | .f8x8 => 0
  | .f3x6 => 1

/-- The decoder: total on all 65536 words (30_encoding.md rule R71), every other word rejected by name
(rules R67, R68). It reads the word alone (rule R70). -/
def decodeWord (w : Word) : Except Reject Instr :=
  let unused := w.extractLsb' 4 2
  let color := Color.ofBit (w.extractLsb' 4 1)
  let fontField := w.extractLsb' 5 1
  if w.extractLsb' 6 10 ≠ 0 then .error .reservedBits
  else
    match (w.extractLsb' 0 4).toNat with
    | 0 => .ok (.nop unused)
    | 1 => .ok (.init unused)
    | 2 => .ok (.plot color fontField)
    | 3 => .ok (.rect color fontField)
    | 4 => .ok (.fill color fontField)
    | 5 => .ok (.circle color fontField)
    | 6 => .ok (.char8 color fontField)
    | 7 => .ok (.char3 color fontField)
    | 8 => .ok (.string color (Font.ofBit fontField))
    | 9 => .ok (.setcur unused)
    | _ => .error .reservedOpcode

/-- The instruction the decoder reads from an instruction of `nbits` bits whose bits are `w`. The one
format has 16 bits (30_encoding.md rule R63); bits above `nbits` are 0. -/
def decodeTableWord (nbits w : Nat) : Option Instr :=
  let v := w % 2 ^ nbits
  if v < 65536 then (decodeWord (BitVec.ofNat 16 v)).toOption else none

/-- OPC of a command (30_encoding.md rule R65). -/
def opcodeOf : Instr → BitVec 4
  | .nop _ => 0
  | .init _ => 1
  | .plot _ _ => 2
  | .rect _ _ => 3
  | .fill _ _ => 4
  | .circle _ _ => 5
  | .char8 _ _ => 6
  | .char3 _ _ => 7
  | .string _ _ => 8
  | .setcur _ => 9

/-- The COLOR bit of a command's word, used or not. -/
def colorBit : Instr → BitVec 1
  | .nop u => u.extractLsb' 0 1
  | .init u => u.extractLsb' 0 1
  | .plot c _ => c.bit
  | .rect c _ => c.bit
  | .fill c _ => c.bit
  | .circle c _ => c.bit
  | .char8 c _ => c.bit
  | .char3 c _ => c.bit
  | .string c _ => c.bit
  | .setcur u => u.extractLsb' 0 1

/-- The FONT bit of a command's word, used or not. -/
def fontBit : Instr → BitVec 1
  | .nop u => u.extractLsb' 1 1
  | .init u => u.extractLsb' 1 1
  | .plot _ u => u
  | .rect _ u => u
  | .fill _ u => u
  | .circle _ u => u
  | .char8 _ u => u
  | .char3 _ u => u
  | .string _ f => f.bit
  | .setcur u => u.extractLsb' 1 1

/-- The command word of a command (30_encoding.md rule R63): RSVD, FONT, COLOR, OPC from the top. -/
def encode (i : Instr) : Word := 0#10 ++ fontBit i ++ colorBit i ++ opcodeOf i

end Sys2Proof
end

