-- ==== Sys2Proof/Machine/Operands.lean ====
section
/-! DEFINITION. Operand assembly at command start (30_encoding.md rule R66, 10_state.md rule R26) and
the integer conversions of 00_scope.md rule R7. -/

namespace Sys2Proof.Machine

/-- `sext_16` (00_scope.md rule R7). -/
def sext16 (v : Word) : Int := v.toInt

/-- `zext_16` (00_scope.md rule R7). -/
def zext16 (v : Word) : Nat := v.toNat

/-- `sat16` (00_scope.md rule R7), as a 16-bit value. -/
def sat16 (v : Nat) : Word := BitVec.ofNat 16 (min v 0xFFFF)

/-- The integers `a, a+1, ..., b` in ascending order, none when `a > b` (00_scope.md rule R7). -/
def intRange (a b : Int) : List Int :=
  (List.range (b - a + 1).toNat).map fun (n : Nat) => a + n

/-- Command start: BUSY <- 1 (45_control.md rule R121), and the working state takes the decoded fields
and the operands (10_state.md rule R26, 30_encoding.md rule R66). -/
def startWork (i : Instr) (s : State) : State :=
  { s with
    busy := true
    work :=
      { opcode := opcodeOf i, color := Color.ofBit (colorBit i), font := Font.ofBit (fontBit i),
        arg0 := s.arg0, arg1 := s.arg1, arg2 := s.arg2, arg3 := s.arg3,
        text := s.charbuf, byte := s.work.byte, todo := [] } }

/-- First coordinate operand: x of PLOT, xs of RECT, xc of CIRCLE (30_encoding.md rule R66). -/
def coord0 (s : State) : Int := sext16 s.work.arg0

/-- Second coordinate operand: y, ys, yc. -/
def coord1 (s : State) : Int := sext16 s.work.arg1

/-- Third coordinate operand: xe of RECT. -/
def coord2 (s : State) : Int := sext16 s.work.arg2

/-- Fourth coordinate operand: ye of RECT. -/
def coord3 (s : State) : Int := sext16 s.work.arg3

/-- CIRCLE's radius. -/
def radius (s : State) : Nat := zext16 s.work.arg2

/-- The character of CHAR8 and CHAR3: ARG0[7:0]. -/
def charCode (s : State) : Byte := s.work.arg0.extractLsb' 0 8

/-- STRING's length. -/
def stringLen (s : State) : Nat := zext16 s.work.arg0

/-- STRING's characters: CHARBUF[0..len-1]. -/
def stringChars (s : State) : List Byte := s.work.text.toList.take (stringLen s)

end Sys2Proof.Machine
end

