-- ==== Sys2Proof/Machine/Ops.lean ====
section
/-! DEFINITION. The shared operations: display memory, the display-bus transactions and the wrapper they
go through, the Host's register accesses, reset, and how a command starts and ends. -/

namespace Sys2Proof.Machine

/-! ### Display memory -/

/-- The byte at an address; an unlisted one reads as `Config.powerOnByte`. -/
def Memory.read : Memory → Nat → Byte
  | [], _ => Config.powerOnByte
  | (b, w) :: m, a => if a = b then w else Memory.read m a

/-- Store a byte, keeping the canonical form. -/
def Memory.write : Memory → Nat → Byte → Memory
  | [], a, v => if v = Config.powerOnByte then [] else [(a, v)]
  | (b, w) :: m, a, v =>
    if a < b then (if v = Config.powerOnByte then (b, w) :: m else (a, v) :: (b, w) :: m)
    else if a = b then (if v = Config.powerOnByte then m else (a, v) :: m)
    else (b, w) :: Memory.write m a v

/-- Addresses strictly rising from `lo`, below DRAM_BYTES, and no entry equal to the unlisted byte. -/
def Memory.sortedFrom : Nat → Memory → Bool
  | _, [] => true
  | lo, (a, v) :: m =>
    decide (lo ≤ a) && decide (a < Config.dramBytes) && decide (v ≠ Config.powerOnByte)
      && Memory.sortedFrom (a + 1) m

/-- The canonical form of the display memory. -/
def Memory.wf (m : Memory) : Bool := Memory.sortedFrom 0 m

/-! ### The display subsystem (20_memory.md section 4) -/

/-- The controller of a side. -/
def Display.chip (d : Display) : Side → Chip
  | .left => d.left
  | .right => d.right

/-- Replace the controller of a side. -/
def Display.setChip (d : Display) (k : Chip) : Side → Display
  | .left => { d with left := k }
  | .right => { d with right := k }

/-- DRAM[s][p][c] (10_state.md rule R28). -/
def Display.byteAt (d : Display) (a : Address) : Byte := d.dram.read a.cell

/-- DRAM[s][p][c] <- v. -/
def Display.putByte (d : Display) (a : Address) (v : Byte) : Display :=
  { d with dram := d.dram.write a.cell v }

/-- The address a side's cursor points at (10_state.md rule R29). -/
def Display.pointer (d : Display) (s : Side) : Address :=
  { side := s, page := (d.chip s).page, column := (d.chip s).col }

/-- What a transaction that completes does to the display (20_memory.md rules R47, R48, R49). The
column pointer is 6 bits wide and wraps (rule R50; PRESUMED there, log 14). -/
def Display.perform (t : Transaction) (d : Display) : Display :=
  match t with
  | .sel s p c => d.setChip { d.chip s with page := p, col := c } s
  | .rd s => d.setChip { d.chip s with latch := d.byteAt (d.pointer s), col := (d.chip s).col + 1 } s
  | .wr s v =>
    (d.putByte (d.pointer s) v).setChip { d.chip s with col := (d.chip s).col + 1 } s

/-- The byte a transaction returns: OUT_LATCH for an RD (20_memory.md rule R48, log 15). -/
def Display.answerByte (t : Transaction) (d : Display) : Option Byte :=
  match t with
  | .sel _ _ _ => none
  | .rd s => some (d.chip s).latch
  | .wr _ _ => none

/-- A controller after a timed-out transaction on its side, of any kind: PAGE_REG, COL_REG and OUT_LATCH
are any value (20_memory.md rule R51, 93_implementation_defined.md U6, D15; log 5). -/
def Chip.free (n : Nat) : Chip :=
  { page := Config.freePage n, col := Config.freeCol n, latch := Config.freeLatch n }

/-- What a transaction that times out leaves of the display (20_memory.md rule R51); the values it
leaves open are free (log 5), numbered `n`. -/
def Display.timeOut (t : Transaction) (n : Nat) (d : Display) : Display :=
  match t with
  | .sel s _ _ => d.setChip (Chip.free n) s
  | .rd s => d.setChip (Chip.free n) s
  | .wr s v =>
    (if Config.freeLanded n then d.putByte (d.pointer s) v else d).setChip (Chip.free n) s

/-! ### The Host's accesses (20_memory.md section 2) -/

/-- The register offset an access names: `off & 0x7E` (20_memory.md rules R40, R41). -/
def wordOffset (off : BitVec 7) : Nat := (off &&& 0x7E#7).toNat

/-- Character `k` of CHARBUF (10_state.md rule R23). -/
def State.charAt (s : State) (k : Nat) : Byte := if h : k < 64 then s.charbuf[k] else 0

/-- CHARBUF word `j`, little-endian (20_memory.md rule R42). -/
def State.charWord (s : State) (j : Nat) : Word := s.charAt (2 * j + 1) ++ s.charAt (2 * j)

/-- `MemRead(off, 2)` (20_memory.md rule R40, 10_state.md rules R14, R24, R37). -/
def hostRead (off : BitVec 7) (s : State) : Word :=
  let o := wordOffset off
  if o = 0x00 then s.cmd
  else if o = 0x02 then s.statusWord
  else if o = 0x04 then s.arg0
  else if o = 0x06 then s.arg1
  else if o = 0x08 then s.arg2
  else if o = 0x0A then s.arg3
  else if o = 0x0C then s.curx
  else if o = 0x0E then s.cury
  else if o ≤ 0x4E then s.charWord ((o - 0x10) / 2)
  else 0

/-- `MemWrite(off, 2, v)` (20_memory.md rule R41). A write to CMD while BUSY = 0 is the start of a
command (45_control.md rule R121); `commandOf` says so and `step` runs it. -/
def hostWrite (off : BitVec 7) (v : Word) (s : State) : State :=
  let o := wordOffset off
  if s.busy then dropWrite s
  else if o = 0x00 then { s with cmd := v, busy := true }
  else if o = 0x04 then { s with arg0 := v }
  else if o = 0x06 then { s with arg1 := v }
  else if o = 0x08 then { s with arg2 := v }
  else if o = 0x0A then { s with arg3 := v }
  else if 0x10 ≤ o ∧ o ≤ 0x4E then
    let low := s.charbuf.setIfInBounds (o - 0x10) (v.extractLsb' 0 8)
    { s with charbuf := low.setIfInBounds (o - 0x10 + 1) (v.extractLsb' 8 8) }
  else s

/-- The Host has read the register at `off`: nothing changes (20_memory.md rule R40) but what it has
seen. -/
def recordRead (off : BitVec 7) (s : State) : State := { s with reads := hostRead off s :: s.reads }

/-- Engine reset (70_reset_and_hazards.md rules R146, R147): the engine's registers take the values of
10_state.md rule R34, CHARBUF and the working state are unspecified (free, logs 8, 9), and the display
keeps what it holds. -/
def engineReset (s : State) : State :=
  { s with
    cmd := 0, busy := false, result := .ok, fault := false, busyWr := false,
    arg0 := 0, arg1 := 0, arg2 := 0, arg3 := 0, curx := 0, cury := 0,
    charbuf := Config.freeCharbuf s.draws, seq := .idle,
    work := Config.freeWork s.draws, draws := s.draws + 1 }

/-- The command word a host event starts, if it starts one: a write to CMD while BUSY = 0
(45_control.md rule R121). -/
def commandOf (e : HostEvent) (s : State) : Option Word :=
  match e with
  | .w16 off v => if !s.busy && wordOffset off == 0x00 then some v else none
  | .r16 _ => none
  | .wait => none
  | .pause => none
  | .reset _ => none

/-- What a host event does between commands. WAIT reads STATUS until BUSY = 0: the read that returns
BUSY = 0 is recorded, and a WAIT that finds BUSY = 1 stays next (log 21). -/
def hostAct (e : HostEvent) (s : State) : State :=
  match e with
  | .w16 off v => hostWrite off v s
  | .r16 off => recordRead off s
  | .wait => if s.busy then { s with host := .wait :: s.host } else recordRead 0x02 s
  | .pause => s
  | .reset _ => engineReset s

/-- Serve the Host's accesses that arrive before the running command's next action: those up to the
next pause or WAIT (log 2). BUSY = 1, so writes are dropped (20_memory.md rule R41) and reads are served
(10_state.md rule R37). -/
def serve : List HostEvent → State → Served
  | [], s => .go { s with host := [] }
  | .w16 _ _ :: rest, s => serve rest (dropWrite s)
  | .r16 off :: rest, s => serve rest (recordRead off s)
  | .wait :: rest, s => .go { s with host := .wait :: rest }
  | .pause :: rest, s => .go { s with host := rest }
  | .reset cut :: rest, s => .reset cut { s with host := rest }

/-! ### One engine action -/

/-- Go on with `f` while the command runs. -/
def Flow.andThen (r : Flow) (f : State → Flow) : Flow :=
  match r with
  | .running s => f s
  | .ended s => .ended s

/-- A transaction that completed: the display has performed it, SEQ moves to `after`, and the byte of a
true read is held (40_addressing.md rules R81, R83); a throwaway read's byte is discarded. -/
def completed (t : Transaction) (after : SeqState) (s : State) : State :=
  { s with
    disp := s.disp.perform t
    seq := after
    work := match after, s.disp.answerByte t with
      | .haveByte, some v => { s.work with byte := v }
      | _, _ => s.work
    answers := s.answers.tail
    trace := (t, .ok) :: s.trace }

/-- A transaction that timed out or was cut short: 20_memory.md rule R51, 70_reset_and_hazards.md rule
R146. -/
def failed (t : Transaction) (s : State) : State :=
  { s with disp := s.disp.timeOut t s.draws, trace := (t, .timeout) :: s.trace, draws := s.draws + 1 }

/-- How a command ends whose transaction `t` is answered TIMEOUT: the transaction has the effect of
20_memory.md rule R51, and the command aborts at once (40_addressing.md rule R84, 60_exceptions.md rules
R133, R134). -/
def timedOut (t : Transaction) (s : State) : State :=
  abort .hwTimeout (failed t { s with answers := s.answers.tail })

/-- The wrapper every transaction is issued through (40_addressing.md rule R84): the Host is served, then
the Bus answers. A reset abandons the command (70_reset_and_hazards.md rule R146). -/
def issue (t : Transaction) (after : SeqState) (s : State) : Flow :=
  match serve s.host s with
  | .reset cut s => .ended (engineReset (if cut then failed t s else s))
  | .go s =>
    if s.answers.headD .ok = .ok then .running (completed t after s) else .ended (timedOut t s)

/-- An action that issues no transaction: the Host is served, then `f` happens at once. A reset abandons
the command and cuts nothing short (70_reset_and_hazards.md rule R146, log 22). -/
def internalAction (f : State → State) (s : State) : Flow :=
  match serve s.host s with
  | .reset _ s => .ended (engineReset s)
  | .go s => .running (f s)

/-- Where a flow stands. -/
def Flow.state : Flow → State
  | .running s => s
  | .ended s => s

/-- The last action of a command: `f` is its completion, or an effect together with it (log 3). -/
def lastAction (f : State → State) (s : State) : State := (internalAction f s).state

/-- A command that has done its work finishes OK; one that has ended has ended. -/
def Flow.close : Flow → State
  | .running s => lastAction (finish .ok) s
  | .ended s => s

/-- `raise Abort(code)` by an operand check, before any transaction (60_exceptions.md rules R132, R135). -/
def raise (code : Result) (s : State) : Flow := .ended (lastAction (abort code) s)

/-- A command of its own rule `body`, whatever FAULT is: INIT (45_control.md rule R122). -/
def runAlways (i : Instr) (body : State → Flow) (s : State) : State := (body (startWork i s)).close

/-- Every other command: REFUSED while FAULT = 1 (45_control.md rules R122, R127), else its rule. -/
def runCommand (i : Instr) (body : State → Flow) (s : State) : State :=
  runAlways i (fun s => if s.fault then raise .refused s else body s) s

/-- The outcome of a word the decoder rejects (45_control.md rule R126). -/
def rejectCommand (s : State) : State := lastAction (abort .badCommand) { s with busy := true }

/-! ### Reading and writing a display byte (40_addressing.md section 2) -/

/-- `readTrue(a)` (40_addressing.md rule R83): the byte is left in the working state. -/
def readTrue (a : Address) (s : State) : Flow :=
  (issue (.sel a.side a.page a.column) .addrR s).andThen fun s =>
  (issue (.rd a.side) .readPending s).andThen fun s =>
  issue (.rd a.side) .haveByte s

/-- `writeByte(s, p, c, v)` (40_addressing.md rule R82); also the second half of a PixelPlot. -/
def writeByte (a : Address) (v : Byte) (s : State) : Flow :=
  (issue (.sel a.side a.page a.column) .addrW s).andThen fun s =>
  issue (.wr a.side v) .idle s

end Sys2Proof.Machine
end

