-- ==== Sys2Proof/Machine/PixelPlot.lean ====
section
/-! DEFINITION. PixelPlot and the PLOT command (41_pixelplot.md). -/

namespace Sys2Proof.Machine

/-- `update(b, k, color)` (41_pixelplot.md rule R88). -/
def update (b : Byte) (k : Nat) : Color → Byte
  | .foreground => b ||| (1#8 <<< k)
  | .background => b &&& ~~~(1#8 <<< k)

/-- `plotCore(x, y, color)` (41_pixelplot.md rule R87), in the color of the running command: SEL, RD, RD,
SEL, WR. -/
def plotCore (x y : Int) (s : State) : Flow :=
  (readTrue (locate x y) s).andThen fun s =>
  writeByte (locate x y) (update s.work.byte (bitIndex y) s.work.color) s

/-- `plotClipped(x, y, color)` (41_pixelplot.md rule R90). -/
def plotClipped (x y : Int) (s : State) : Flow :=
  if onScreen x y then plotCore x y s else .running s

/-- The rule of PLOT (41_pixelplot.md rule R91): OUT_OF_RANGE before any transaction. -/
def plotBody (s : State) : Flow :=
  if onScreen (coord0 s) (coord1 s) then plotCore (coord0 s) (coord1 s) s else raise .outOfRange s

/-- PLOT (41_pixelplot.md rule R91). -/
def execPlot (color : Color) (unused : BitVec 1) (s : State) : Host.Outcome State Fault Refusal :=
  .next (runCommand (.plot color unused) plotBody s)

end Sys2Proof.Machine
end

