-- ==== Sys2Proof/Machine/Glyph.lean ====
section
/-! DEFINITION. The parts of a glyph (44_text.md section 1): a column of an 8×8 glyph, a pixel of a 3×6
glyph, the advance of the text cursor. -/

namespace Sys2Proof.Machine

/-- A glyph byte as written (44_text.md rule R108): complemented for BACKGROUND (rule R116; the source
calls it unverified, so ASSUMED: UNVERIFIED, log 13). -/
def glyphByte (g : Byte) : Color → Byte
  | .foreground => g
  | .background => ~~~g

/-- Write the whole byte that holds an on-screen pixel; off the screen nothing happens (44_text.md rules
R108, R114). -/
def storeClipped (x y : Int) (v : Byte) (s : State) : Flow :=
  if onScreen x y then writeByte (locate x y) v s else .running s

/-- Column `i` of `blit8(ch, color)` (44_text.md rule R108): the whole byte at the page that holds row
CURY, skipped off the screen. CURX and CURY do not change inside a glyph. -/
def blitColumn (ch : Byte) (i : Fin 8) (s : State) : Flow :=
  storeClipped (s.curx.toNat + i.val) s.cury.toNat (glyphByte (Config.font8 ch i) s.work.color) s

/-- Row `j` of column `i` of `blit3(ch, color)` (44_text.md rule R109): plotted when its mask bit is 1. -/
def blitDot (ch : Byte) (i : Fin 3) (j : Fin 6) (s : State) : Flow :=
  if (Config.font3 ch i).getLsbD j then plotClipped (s.curx.toNat + i.val) (s.cury.toNat + j.val) s
  else .running s

/-- How far a glyph moves the text cursor (44_text.md rule R107). -/
def glyphStep : Font → Nat
  | .f8x8 => 8 + Config.gap8
  | .f3x6 => 3 + Config.gap3

/-- `advance(font)` (44_text.md rule R107). -/
def advance (f : Font) (s : State) : State := { s with curx := sat16 (s.curx.toNat + glyphStep f) }

end Sys2Proof.Machine
end

