-- ==== Sys2Proof/Machine/Raster.lean ====
section
/-! DEFINITION. The rasterizer loop: the engine takes what it has still to do from its working state
(10_state.md rule R26), one task after the other, until nothing is left or the command has ended. -/

namespace Sys2Proof.Machine

/-- Do one task. The advance of the cursor is an action of its own: until it, the Host reads CURX as the
last glyph left it (10_state.md rule R37). -/
def runTask (t : Task) (s : State) : Flow :=
  match t with
  | .point x y => plotClipped x y s
  | .store a v => writeByte a v s
  | .column ch i => blitColumn ch i s
  | .dot ch i j => blitDot ch i j s
  | .advance f => internalAction (advance f) s

/-- Replace what is still to do. -/
def setTodo (ts : List Task) (s : State) : State := { s with work := { s.work with todo := ts } }

/-- Do at most `n` of the tasks still to do, in their order. -/
def runTasks : Nat → State → Flow
  | 0, s => .running s
  | n + 1, s =>
    match s.work.todo with
    | [] => .running s
    | t :: ts => (runTask t (setTodo ts s)).andThen (runTasks n)

/-- Run a rasterizer: all of `ts`, in order. -/
def raster (ts : List Task) (s : State) : Flow := runTasks ts.length (setTodo ts s)

end Sys2Proof.Machine
end

