-- ==== Sys2Proof/Machine/Shapes.lean ====
section
/-! DEFINITION. RECT and FILL (42_shapes.md). -/

namespace Sys2Proof.Machine

/-- The point sequence of a rectangle (42_shapes.md rules R94, R95): normalised corners; top, bottom,
left and right edge, repeats kept. -/
def rectPoints (xs ys xe ye : Int) : List (Int × Int) :=
  let xmin := min xs xe
  let xmax := max xs xe
  let ymin := min ys ye
  let ymax := max ys ye
  (intRange xmin xmax).map (fun x => (x, ymin)) ++ (intRange xmin xmax).map (fun x => (x, ymax))
    ++ (intRange ymin ymax).map (fun y => (xmin, y)) ++ (intRange ymin ymax).map (fun y => (xmax, y))

/-- Points as tasks. -/
def pointTasks (ps : List (Int × Int)) : List Task := ps.map fun p => .point p.1 p.2

/-- The rule of RECT (42_shapes.md rule R96). -/
def rectBody (s : State) : Flow :=
  raster (pointTasks (rectPoints (coord0 s) (coord1 s) (coord2 s) (coord3 s))) s

/-- RECT (42_shapes.md rule R96). -/
def execRect (color : Color) (unused : BitVec 1) (s : State) : Host.Outcome State Fault Refusal :=
  .next (runCommand (.rect color unused) rectBody s)

/-- The fill value (42_shapes.md rule R98). -/
def fillByte : Color → Byte
  | .foreground => 0xFF#8
  | .background => 0x00#8

/-- Every display address in the order of the fill walk (42_shapes.md rule R98): side, page, column. -/
def fillAddresses : List Address :=
  [Side.left, Side.right].flatMap fun s =>
    (List.range 8).flatMap fun p =>
      (List.range 64).map fun c => { side := s, page := BitVec.ofNat 3 p, column := BitVec.ofNat 6 c }

/-- The rule of FILL (42_shapes.md rules R98, R99). -/
def fillBody (s : State) : Flow :=
  raster (fillAddresses.map fun a => .store a (fillByte s.work.color)) s

/-- FILL (42_shapes.md rule R99). -/
def execFill (color : Color) (unused : BitVec 1) (s : State) : Host.Outcome State Fault Refusal :=
  .next (runCommand (.fill color unused) fillBody s)

end Sys2Proof.Machine
end

