-- ==== Sys2Proof/Machine/Circle.lean ====
section
/-! DEFINITION. CIRCLE (43_circle.md). -/

namespace Sys2Proof.Machine

/-- `plot8` (43_circle.md rule R102): the eight symmetric points, in its order, repeats kept. -/
def plot8 (xc yc x y : Int) : List (Int × Int) :=
  [(xc + x, yc + y), (xc - x, yc + y), (xc + x, yc - y), (xc - x, yc - y),
   (xc + y, yc + x), (xc - y, yc + x), (xc + y, yc - x), (xc - y, yc - x)]

/-- The midpoint recurrence (43_circle.md rule R101), at most `fuel` iterations. -/
def circleLoop (xc yc : Int) : (fuel : Nat) → (x y d : Int) → List (Int × Int)
  | 0, _, _, _ => []
  | fuel + 1, x, y, d =>
    if x ≤ y then
      plot8 xc yc x y ++
        (if d < 0 then circleLoop xc yc fuel (x + 1) y (d + 2 * x + 3)
         else circleLoop xc yc fuel (x + 1) (y - 1) (d + 2 * (x - y) + 5))
    else []

/-- The points of a circle: `r + 1` iterations are enough (43_circle.md rule R104). -/
def circlePoints (xc yc : Int) (r : Nat) : List (Int × Int) := circleLoop xc yc (r + 1) 0 r (1 - r)

/-- The rule of CIRCLE (43_circle.md rule R103). -/
def circleBody (s : State) : Flow :=
  raster (pointTasks (circlePoints (coord0 s) (coord1 s) (radius s))) s

/-- CIRCLE (43_circle.md rule R103). -/
def execCircle (color : Color) (unused : BitVec 1) (s : State) : Host.Outcome State Fault Refusal :=
  .next (runCommand (.circle color unused) circleBody s)

end Sys2Proof.Machine
end

