-- ==== Sys2Proof/Machine/Control.lean ====
section
/-! DEFINITION. The two commands that draw nothing, NOP and INIT (45_control.md section 2). -/

namespace Sys2Proof.Machine

/-- NOP (45_control.md rule R124). -/
def execNop (unused : BitVec 2) (s : State) : Host.Outcome State Fault Refusal :=
  .next (runCommand (.nop unused) .running s)

/-- INIT's effect on the text cursor (45_control.md rule R125). -/
def homeCursor (s : State) : State := { s with curx := 0, cury := 0 }

/-- The rule of INIT (45_control.md rule R125): its `mode` operand is ignored and no transaction is issued.
FAULT and BUSYWR are cleared while BUSY = 1, so that a host write that arrives after that sets BUSYWR again
(10_state.md rule R20); the cursor moves with the completion, since while BUSY = 1 it reads as it was at
command start (rule R37; log 3). -/
def initBody (s : State) : Flow :=
  (internalAction acknowledge s).andThen fun s =>
  .ended (lastAction (fun s => finish .ok (homeCursor s)) s)

/-- INIT (45_control.md rule R125), the one command that runs while FAULT = 1. -/
def execInit (unused : BitVec 2) (s : State) : Host.Outcome State Fault Refusal :=
  .next (runAlways (.init unused) initBody s)

end Sys2Proof.Machine
end

