-- ==== Sys2Proof/Machine/Text.lean ====
section
/-! DEFINITION. CHAR8, CHAR3, STRING and SETCUR (44_text.md section 2). -/

namespace Sys2Proof.Machine

/-- The parts of one glyph in their order, the advance last (44_text.md rules R108, R109, R120). -/
def glyphTasks (f : Font) (ch : Byte) : List Task :=
  match f with
  | .f8x8 => [0, 1, 2, 3, 4, 5, 6, 7].map (fun i => .column ch i) ++ [.advance .f8x8]
  | .f3x6 =>
    [0, 1, 2].flatMap (fun i => [0, 1, 2, 3, 4, 5].map fun j => .dot ch i j) ++ [.advance .f3x6]

/-- The rule of CHAR8 (44_text.md rule R110). -/
def char8Body (s : State) : Flow := raster (glyphTasks .f8x8 (charCode s)) s

/-- CHAR8 (44_text.md rule R110). -/
def execChar8 (color : Color) (unused : BitVec 1) (s : State) : Host.Outcome State Fault Refusal :=
  .next (runCommand (.char8 color unused) char8Body s)

/-- The rule of CHAR3 (44_text.md rule R111). -/
def char3Body (s : State) : Flow := raster (glyphTasks .f3x6 (charCode s)) s

/-- CHAR3 (44_text.md rule R111). -/
def execChar3 (color : Color) (unused : BitVec 1) (s : State) : Host.Outcome State Fault Refusal :=
  .next (runCommand (.char3 color unused) char3Body s)

/-- The rule of STRING (44_text.md rule R112): more than CHARBUF_SIZE characters is BAD_COMMAND before
any transaction. -/
def stringBody (s : State) : Flow :=
  if Config.charbufSize < stringLen s then raise .badCommand s
  else raster ((stringChars s).flatMap (glyphTasks s.work.font)) s

/-- STRING (44_text.md rule R112). -/
def execString (color : Color) (font : Font) (s : State) : Host.Outcome State Fault Refusal :=
  .next (runCommand (.string color font) stringBody s)

/-- The register effect of SETCUR (44_text.md rule R113). -/
def setCursor (s : State) : State := { s with curx := s.work.arg0, cury := s.work.arg1 }

/-- The rule of SETCUR: no transaction, and the cursor moves with the completion (log 3). -/
def setcurBody (s : State) : Flow := .ended (lastAction (fun s => finish .ok (setCursor s)) s)

/-- SETCUR (44_text.md rule R113). -/
def execSetcur (unused : BitVec 2) (s : State) : Host.Outcome State Fault Refusal :=
  .next (runCommand (.setcur unused) setcurBody s)

end Sys2Proof.Machine
end

