-- ==== Sys2Proof/Machine/Dispatch.lean ====
section
/-! DEFINITION. The dispatch of a decoded command to its rule (45_control.md rule R122). -/

namespace Sys2Proof.Machine

def exec (i : Instr) (s : State) : Host.Outcome State Fault Refusal :=
  match i with
  | .nop unused => Sys2Proof.Machine.execNop unused s
  | .init unused => Sys2Proof.Machine.execInit unused s
  | .plot color unused => Sys2Proof.Machine.execPlot color unused s
  | .rect color unused => Sys2Proof.Machine.execRect color unused s
  | .fill color unused => Sys2Proof.Machine.execFill color unused s
  | .circle color unused => Sys2Proof.Machine.execCircle color unused s
  | .char8 color unused => Sys2Proof.Machine.execChar8 color unused s
  | .char3 color unused => Sys2Proof.Machine.execChar3 color unused s
  | .string color font => Sys2Proof.Machine.execString color font s
  | .setcur unused => Sys2Proof.Machine.execSetcur unused s

end Sys2Proof.Machine
end

