-- ==== Sys2Proof/Machine/Step.lean ====
section
/-! DEFINITION. One step of the whole machine: the Host's next access, and the command it starts, if it
starts one, run to its completion (45_control.md rules R121 to R123; logs 1, 2). -/

namespace Sys2Proof.Machine

/-- One step. With no host event left the engine waits (70_reset_and_hazards.md rule R146): nothing
changes. -/
def step (s : State) : Host.Outcome State Fault Refusal :=
  match s.host with
  | [] => .next s
  | e :: rest =>
    match commandOf e s with
    | none => .next (hostAct e { s with host := rest })
    | some w =>
      match decodeWord w with
      | .ok i => exec i (hostAct e { s with host := rest })
      | .error _ => .next (rejectCommand (hostAct e { s with host := rest }))

/-- The machine fetches no instruction: the next command is the Host's next write to CMD, so an
instruction's word is placed as that write, ahead of the Host's other accesses. The write starts a
command only while BUSY = 0, so BUSY is 0 (log 1). -/
def State.withFetchWord (s : State) (nbits w : Nat) : State :=
  { s with busy := false, host := .w16 0x00 (BitVec.ofNat 16 (w % 2 ^ nbits)) :: s.host }

end Sys2Proof.Machine
end

