-- ==== Sys2Proof/Machine/Assembler.lean ====
section
/-! DEFINITION. The encoding of a host program as its list of accesses (30_encoding.md rules R72 to
R74). -/

namespace Sys2Proof.Machine

/-- A 16-bit operand's two's complement value (30_encoding.md rule R72). -/
def coordWord (v : Int) : Word := BitVec.ofInt 16 v

/-- An unsigned operand's value (30_encoding.md rule R72). -/
def natWord (v : Nat) : Word := BitVec.ofNat 16 v

/-- A command mnemonic (30_encoding.md rule R72): one W16 per operand register, in the order ARG0 to
ARG3; the command word to CMD; WAIT. -/
def commandLine (i : Instr) (operands : List Word) : List HostEvent :=
  List.zipWith HostEvent.w16 [0x04, 0x06, 0x08, 0x0A] operands ++ [.w16 0x00 (encode i), .wait]

/-- The CHARBUF writes of PUTS (30_encoding.md rule R73), from word `j` on: two characters a word, a 0
after an odd end. -/
def putsWords : (j : Nat) → List Nat → List HostEvent
  | _, [] => []
  | j, [a] => [.w16 (BitVec.ofNat 7 (0x10 + 2 * j)) (BitVec.ofNat 16 a)]
  | j, a :: b :: rest =>
    .w16 (BitVec.ofNat 7 (0x10 + 2 * j)) (BitVec.ofNat 8 b ++ BitVec.ofNat 8 a) :: putsWords (j + 1) rest

/-- A line's accesses (30_encoding.md rules R72, R73). -/
def assemble : Line → List HostEvent
  | .w16 off v => [.w16 (BitVec.ofNat 7 off) (natWord v)]
  | .r16 off => [.r16 (BitVec.ofNat 7 off)]
  | .wait => [.wait]
  | .nop => commandLine (.nop 0) []
  | .init mode => commandLine (.init 0) [natWord mode]
  | .plot c x y => commandLine (.plot c 0) [coordWord x, coordWord y]
  | .rect c xs ys xe ye => commandLine (.rect c 0) [coordWord xs, coordWord ys, coordWord xe, coordWord ye]
  | .fill c => commandLine (.fill c 0) []
  | .circle c xc yc r => commandLine (.circle c 0) [coordWord xc, coordWord yc, natWord r]
  | .char8 c ch => commandLine (.char8 c 0) [natWord ch]
  | .char3 c ch => commandLine (.char3 c 0) [natWord ch]
  | .string f c len => commandLine (.string c f) [natWord len]
  | .setcur x y => commandLine (.setcur 0) [natWord x, natWord y]
  | .cls => commandLine (.fill .background 0) []
  | .hline c x0 x1 y => commandLine (.rect c 0) [coordWord x0, coordWord y, coordWord x1, coordWord y]
  | .vline c x y0 y1 => commandLine (.rect c 0) [coordWord x, coordWord y0, coordWord x, coordWord y1]
  | .goto x y => commandLine (.setcur 0) [natWord x, natWord y]
  | .puts f c text => putsWords 0 text ++ commandLine (.string c f) [natWord text.length]

/-- A host program's accesses (30_encoding.md rule R74). -/
def assembleAll (ls : List Line) : List HostEvent := ls.flatMap assemble

end Sys2Proof.Machine
end

