-- ==== Sys2Proof/Safety.lean ====
section
/-! DEFINITION. What claims about the machine are said in: the pixel view, the invariant between
commands, which runs are undisturbed, and which transaction sequences are legal. -/

namespace Sys2Proof.Machine

/-- `pixel(x, y)` (10_state.md rule R31), for an on-screen pixel. -/
def State.pixel (s : State) (x y : Int) : Color :=
  if (s.disp.byteAt (locate x y)).getLsbD (bitIndex y) then .foreground else .background

/-- What holds between commands: the display memory is in its canonical form, no command runs and SEQ is
IDLE (10_state.md rule R25), a HW_TIMEOUT result comes with FAULT, and while FAULT = 1 the last result is
HW_TIMEOUT, BAD_COMMAND or REFUSED (60_exceptions.md rules R134, R139). -/
def State.Inv (s : State) : Prop :=
  s.disp.dram.wf = true ∧ s.busy = false ∧ s.seq = .idle ∧
  (s.result = .hwTimeout → s.fault = true) ∧
  (s.fault = true → s.result = .hwTimeout ∨ s.result = .badCommand ∨ s.result = .refused)

/-- No scripted answer is a TIMEOUT (93_implementation_defined.md U4: the premise "no TIMEOUT"). -/
def State.noTimeout (s : State) : Bool := s.answers.all fun a => a == .ok

/-- Not a reset. -/
def HostEvent.notReset : HostEvent → Bool
  | .w16 _ _ => true
  | .r16 _ => true
  | .wait => true
  | .pause => true
  | .reset _ => false

/-- Not a write. -/
def HostEvent.notWrite : HostEvent → Bool
  | .w16 _ _ => false
  | .r16 _ => true
  | .wait => true
  | .pause => true
  | .reset _ => true

/-- The offset a host event reads. -/
def HostEvent.readOffset : HostEvent → Option (BitVec 7)
  | .r16 off => some off
  | .w16 _ _ => none
  | .wait => none
  | .pause => none
  | .reset _ => none

/-- No reset is scripted: a command that runs now is not abandoned (70_reset_and_hazards.md rule R146). -/
def State.noReset (s : State) : Bool := s.host.all HostEvent.notReset

/-- No host write is scripted. -/
def State.noWrite (s : State) : Bool := s.host.all HostEvent.notWrite

/-- A command that runs now is neither abandoned nor aborted by the Bus. Host reads and writes may
still arrive while it runs. -/
def State.undisturbed (s : State) : Prop := s.noTimeout = true ∧ s.noReset = true

/-- What a command of any kind never writes (45_control.md rule R130): CMD, the operand registers and
CHARBUF. -/
def sameOperands (s t : State) : Prop :=
  t.cmd = s.cmd ∧ t.arg0 = s.arg0 ∧ t.arg1 = s.arg1 ∧ t.arg2 = s.arg2 ∧ t.arg3 = s.arg3 ∧
  t.charbuf = s.charbuf

/-- The text cursor is unchanged. -/
def sameCursor (s t : State) : Prop := t.curx = s.curx ∧ t.cury = s.cury

/-- BUSYWR can be set by a host write that arrives while the command runs, and by nothing else
(10_state.md rule R20). -/
def busyWrOnlySet (s t : State) : Prop :=
  (s.busyWr = true → t.busyWr = true) ∧ (s.noWrite = true → t.busyWr = s.busyWr)

/-- The command has completed with `code` (45_control.md rule R123). -/
def completedWith (code : Result) (t : State) : Prop :=
  t.result = code ∧ t.busy = false ∧ t.seq = .idle

/-- The transactions `t` has issued since `s`, oldest first, are `new`. -/
def issued (s t : State) (new : List (Transaction × Answer)) : Prop := t.trace = new.reverse ++ s.trace

/-- The display after a list of answered transactions, oldest first: one answered OK is performed
(20_memory.md rules R47 to R49), one that timed out or was cut short has the effect of rule R51, its free
values numbered `n`. -/
def Display.after (n : Nat) : List (Transaction × Answer) → Display → Display
  | [], d => d
  | (t, .ok) :: rest, d => Display.after n rest (d.perform t)
  | (t, .timeout) :: rest, d => Display.after n rest (d.timeOut t n)

/-- The engine's registers hold the values of 10_state.md rule R34 that the spec gives. -/
def atResetValues (s : State) : Prop :=
  s.cmd = 0 ∧ s.statusWord = 0 ∧ s.arg0 = 0 ∧ s.arg1 = 0 ∧ s.arg2 = 0 ∧ s.arg3 = 0 ∧ s.curx = 0 ∧
  s.cury = 0 ∧ s.seq = .idle

/-- The transitions of the sequencer (40_addressing.md rule R81), with the address they are about. -/
inductive SeqMove : SeqState → Option Address → Transaction → SeqState → Option Address → Prop where
  | selectToRead (a : Address) : SeqMove .idle none (.sel a.side a.page a.column) .addrR (some a)
  | throwaway (a : Address) : SeqMove .addrR (some a) (.rd a.side) .readPending (some a)
  | trueRead (a : Address) : SeqMove .readPending (some a) (.rd a.side) .haveByte (some a)
  | reselect (a : Address) : SeqMove .haveByte (some a) (.sel a.side a.page a.column) .addrW (some a)
  | selectToWrite (a : Address) : SeqMove .idle none (.sel a.side a.page a.column) .addrW (some a)
  | write (a : Address) (v : Byte) : SeqMove .addrW (some a) (.wr a.side v) .idle none

/-- A sequence of answered transactions that the sequencer allows from a state to IDLE (40_addressing.md
rule R81): each is a transition of the table, and one that times out is the last. -/
inductive SeqRun : SeqState → Option Address → List (Transaction × Answer) → Prop where
  | done : SeqRun .idle none []
  | move {q q' : SeqState} {m m' : Option Address} {t : Transaction} {ts : List (Transaction × Answer)} :
      SeqMove q m t q' m' → SeqRun q' m' ts → SeqRun q m ((t, .ok) :: ts)
  | timeout {q q' : SeqState} {m m' : Option Address} {t : Transaction} :
      SeqMove q m t q' m' → SeqRun q m [(t, .timeout)]

end Sys2Proof.Machine
end

