-- ==== Sys2Proof/Certificates/Slice0/Obligations.lean ====
section
/-! DEFINITION. The statements for the provers. Each docstring names the rules of spec/ it formalises; a
clause that rests on a choice of the model says so. In every statement about a command, "undisturbed"
(`State.undisturbed`) means that no TIMEOUT and no reset is scripted: host reads and host writes may
still arrive while the command runs. -/

namespace Sys2Proof.Machine

open Host (Outcome)

/-- The state in which a command that the Host has written to CMD runs (45_control.md rule R121). -/
def startedAs (w : Word) (rest : List HostEvent) (s : State) : State :=
  { s with cmd := w, busy := true, host := rest }

/-- The value of the `n`-th iteration of the midpoint recurrence (43_circle.md rule R101): x, y, d. -/
def midpointXYD (r : Nat) : Nat → Int × Int × Int
  | 0 => (0, r, 1 - r)
  | n + 1 =>
    let p := midpointXYD r n
    if p.2.2 < 0 then (p.1 + 1, p.2.1, p.2.2 + 2 * p.1 + 3)
    else (p.1 + 1, p.2.1 - 1, p.2.2 + 2 * (p.1 - p.2.1) + 5)

/-- `(u, v)` is one of the eight points `(±x, ±y)`, `(±y, ±x)` around `(xc, yc)` (43_circle.md rule
R102). -/
def onEight (xc yc x y u v : Int) : Prop :=
  ((u - xc = x ∨ u - xc = -x) ∧ (v - yc = y ∨ v - yc = -y)) ∨
  ((u - xc = y ∨ u - xc = -y) ∧ (v - yc = x ∨ v - yc = -x))

/-- `(u, v)` is plotted by the circle of centre `(xc, yc)` and radius `r`: by an iteration that the loop
reaches, all the iterations up to it having `x ≤ y` (43_circle.md rules R101, R102). -/
def onCircle (xc yc : Int) (r : Nat) (u v : Int) : Prop :=
  ∃ n, (∀ m, m ≤ n → (midpointXYD r m).1 ≤ (midpointXYD r m).2.1) ∧
    onEight xc yc (midpointXYD r n).1 (midpointXYD r n).2.1 u v

/-- `(u, v)` is on the outline between two corners (42_shapes.md rules R94, R97). -/
def onOutline (xs ys xe ye u v : Int) : Prop :=
  (min xs xe ≤ u ∧ u ≤ max xs xe ∧ (v = min ys ye ∨ v = max ys ye)) ∨
  (min ys ye ≤ v ∧ v ≤ max ys ye ∧ (u = min xs xe ∨ u = max xs xe))

/-- CURX after `n` glyphs of a font (44_text.md rule R107). -/
def curxAfter (f : Font) : Nat → Word → Word
  | 0, x => x
  | n + 1, x => sat16 ((curxAfter f n x).toNat + (match f with | .f8x8 => 8 + Config.gap8 | .f3x6 => 3 + Config.gap3))

/-- The on-screen byte that holds a pixel is `a`: what a clipped plot, or a clipped glyph column, at
`(x, y)` may write (41_pixelplot.md rule R90, 44_text.md rule R108). -/
def isByteOf (a : Address) (x y : Int) : Prop := onScreen x y = true ∧ a = locate x y

/-- A glyph of a font drawn with the cursor at `(cx, cy)` may write the byte `a`: a visible column of an
8×8 glyph, the byte of a set pixel of a 3×6 glyph (44_text.md rules R108, R109). -/
def glyphMayWrite (f : Font) (ch : Byte) (cx cy : Nat) (a : Address) : Prop :=
  match f with
  | .f8x8 => ∃ i : Fin 8, isByteOf a (cx + i) cy
  | .f3x6 => ∃ (i : Fin 3) (j : Fin 6), (Config.font3 ch i).getLsbD j = true ∧ isByteOf a (cx + i) (cy + j)

/-- The DRAM row of 45_control.md rule R130: the bytes a command may write, from the state it starts in. -/
def mayWrite (i : Instr) (s : State) (a : Address) : Prop :=
  match i with
  | .nop _ => False
  | .init _ => False
  | .plot _ _ => isByteOf a s.arg0.toInt s.arg1.toInt
  | .rect _ _ => ∃ p ∈ rectPoints s.arg0.toInt s.arg1.toInt s.arg2.toInt s.arg3.toInt, isByteOf a p.1 p.2
  | .fill _ _ => True
  | .circle _ _ => ∃ p ∈ circlePoints s.arg0.toInt s.arg1.toInt s.arg2.toNat, isByteOf a p.1 p.2
  | .char8 _ _ => glyphMayWrite .f8x8 (s.arg0.extractLsb' 0 8) s.curx.toNat s.cury.toNat a
  | .char3 _ _ => glyphMayWrite .f3x6 (s.arg0.extractLsb' 0 8) s.curx.toNat s.cury.toNat a
  | .string _ f => s.arg0.toNat ≤ 64 ∧ ∃ n < s.arg0.toNat,
      glyphMayWrite f (s.charAt n) (curxAfter f n s.curx).toNat s.cury.toNat a
  | .setcur _ => False

/-- How many glyphs a command may draw, and their font. -/
def glyphsOf (i : Instr) (s : State) : Font × Nat :=
  match i with
  | .char8 _ _ => (.f8x8, 1)
  | .char3 _ _ => (.f3x6, 1)
  | .string _ f => (f, s.arg0.toNat)
  | .nop _ => (.f8x8, 0)
  | .init _ => (.f8x8, 0)
  | .plot _ _ => (.f8x8, 0)
  | .rect _ _ => (.f8x8, 0)
  | .fill _ _ => (.f8x8, 0)
  | .circle _ _ => (.f8x8, 0)
  | .setcur _ => (.f8x8, 0)

/-- How many actions before its completion OK a command has that are no transactions (logs 2, 3): the clearing
of FAULT and BUSYWR by INIT, and the advance after each glyph. -/
def internalSteps (i : Instr) (s : State) : Nat :=
  match i with
  | .init _ => 1
  | .nop _ => 0
  | .plot _ _ => 0
  | .rect _ _ => 0
  | .fill _ _ => 0
  | .circle _ _ => 0
  | .char8 _ _ => (glyphsOf i s).2
  | .char3 _ _ => (glyphsOf i s).2
  | .string _ _ => (glyphsOf i s).2
  | .setcur _ => 0

/-- The STRING of the first `n` characters, undisturbed by the Host, ends in `u` and issues `ts`. -/
def stringIssues (c : Color) (f : Font) (s : State) (n : Nat) (u : State) (ts : List (Transaction × Answer)) :
    Prop :=
  exec (.string c f) { s with arg0 := BitVec.ofNat 16 n, host := [] } = .next u ∧ issued s u ts

/-- `done` are the transactions among the first `k` actions of a command that issues `whole`: the other `m`
of the `k` are INIT's clearing, or the advance of a CHAR8 or CHAR3, which comes after all its transactions,
or the advances of a STRING's first `m` glyphs, which comes each after the transactions of its glyph. -/
def doneAfter (i : Instr) (s : State) (k : Nat) (done whole : List (Transaction × Answer)) : Prop :=
  ∃ m, k = done.length + m ∧ match i with
    | .init _ => m ≤ 1
    | .nop _ => m = 0
    | .plot _ _ => m = 0
    | .rect _ _ => m = 0
    | .fill _ _ => m = 0
    | .circle _ _ => m = 0
    | .char8 _ _ => m = 0 ∨ m = 1 ∧ done = whole
    | .char3 _ _ => m = 0 ∨ m = 1 ∧ done = whole
    | .string c f => m ≤ s.arg0.toNat ∧
        (m = 0 ∨ ∃ u ts, stringIssues c f s m u ts ∧ u.result = .ok ∧ ts <+: done) ∧
        (m < s.arg0.toNat → ∃ u ts, stringIssues c f s (m + 1) u ts ∧ done <+: ts)
    | .setcur _ => m = 0

/-- After `k` actions in which it has issued `new`, a STRING is about to count a glyph, number `m` from 0:
`new` is what the STRING of `m + 1` characters issues, and `m` glyphs are counted. -/
def beforeAdvance (i : Instr) (s : State) (k : Nat) (new : List (Transaction × Answer)) : Prop :=
  ∃ c f m u, i = .string c f ∧ m < s.arg0.toNat ∧ stringIssues c f s (m + 1) u new ∧ u.result = .ok ∧
    k = new.length + m

/-- Action number `k`, from 0, is still an action of a command that, undisturbed by the Host, issues `whole`
and ends in `t'`: a transaction, an action that is none, or, unless it times out, the completion. (A STRING
that times out has counted the `n` glyphs before that one.) -/
def hasAction (i : Instr) (s : State) (k : Nat) (whole : List (Transaction × Answer)) (t' : State) : Prop :=
  k < whole.length ∨ (t'.result ≠ .hwTimeout ∧ k = whole.length) ∨
  (t'.result = .ok ∧ k ≤ whole.length + internalSteps i s) ∨
  (t'.result = .hwTimeout ∧ ∃ c f n u ts, i = .string c f ∧ n ≤ s.arg0.toNat ∧
    stringIssues c f s n u ts ∧ u.result = .ok ∧ k < whole.length + n)

/-- The single-glyph command of a font (44_text.md rule R120). -/
def glyphCommand (f : Font) (c : Color) : Instr :=
  match f with
  | .f8x8 => .char8 c 0
  | .f3x6 => .char3 c 0

/-- The side a transaction is on. -/
def sideOf : Transaction → Side
  | .sel s _ _ => s
  | .rd s => s
  | .wr s _ => s

/-- What a completed command leaves besides the display and the cursor: its result, the operand
registers, FAULT and BUSYWR (45_control.md rule R130). -/
def completedKeeping (code : Result) (s t : State) : Prop :=
  completedWith code t ∧ sameOperands s t ∧ t.fault = s.fault ∧ busyWrOnlySet s t

end Sys2Proof.Machine

open Sys2Proof Sys2Proof.Machine

/-! ### Encoding -/

/-- Words written out from 30_encoding.md rules R63, R65 (vectors V-DC1 of 95_test_vectors.md) decode to
the commands they stand for; reserved ones are rejected by name (R67, R68). -/
def Obligations.WrittenWordsDecode : Prop :=
  decodeWord 0b0000000000_0_0_0000#16 = .ok (.nop 0) ∧ decodeWord 0b0000000000_1_1_0000#16 = .ok (.nop 3) ∧
  decodeWord 0b0000000000_0_0_0001#16 = .ok (.init 0) ∧
  decodeWord 0b0000000000_0_1_0010#16 = .ok (.plot .foreground 0) ∧
  decodeWord 0b0000000000_0_0_0010#16 = .ok (.plot .background 0) ∧
  decodeWord 0b0000000000_0_1_0011#16 = .ok (.rect .foreground 0) ∧
  decodeWord 0b0000000000_1_0_0100#16 = .ok (.fill .background 1) ∧
  decodeWord 0b0000000000_0_1_0101#16 = .ok (.circle .foreground 0) ∧
  decodeWord 0b0000000000_0_0_0110#16 = .ok (.char8 .background 0) ∧
  decodeWord 0b0000000000_0_1_0111#16 = .ok (.char3 .foreground 0) ∧
  decodeWord 0b0000000000_1_1_1000#16 = .ok (.string .foreground .f3x6) ∧
  decodeWord 0b0000000000_0_1_1001#16 = .ok (.setcur 1) ∧
  decodeWord 0b0000000000_0_0_1010#16 = .error .reservedOpcode ∧
  decodeWord 0b0000000000_0_0_1111#16 = .error .reservedOpcode ∧
  decodeWord 0b0000000001_0_0_0000#16 = .error .reservedBits ∧
  decodeWord 0b1000000000_0_0_0010#16 = .error .reservedBits

/-- Decoding the encoding of any command gives it back, unused bits included (30_encoding.md rules R63,
R64, R65, R69). Every term of `Instr` is well formed. -/
def Obligations.DecodeOfEncodeIsTheCommand : Prop :=
  ∀ i : Instr, decodeWord (encode i) = .ok i

/-- Each accepted word has one meaning: encoding what it decodes to gives it back. -/
def Obligations.EncodeOfDecodeIsTheWord : Prop :=
  ∀ (w : Word) (i : Instr), decodeWord w = .ok i → encode i = w

/-- 30_encoding.md rule R71: a word with `w & 0xFFC0 = 0` and `w[3:0] ≤ 9` decodes to the command of rule
R65 for `w[3:0]` (with the COLOR and FONT bits of rule R64 where the command uses them); every other word
decodes to BAD_COMMAND: the decoder rejects it, and a step that starts it completes BAD_COMMAND. -/
def Obligations.DecoderIsTotalAndExact : Prop :=
  (∀ w : Word, w &&& 0xFFC0#16 = 0 → (w &&& 0xF#16).toNat ≤ 9 →
    ∃ i, decodeWord w = .ok i ∧ (opcodeOf i).toNat = (w &&& 0xF#16).toNat ∧
      (∀ c u, (i = .plot c u ∨ i = .rect c u ∨ i = .fill c u ∨ i = .circle c u ∨ i = .char8 c u ∨
        i = .char3 c u) → (c = .foreground ↔ w.getLsbD 4 = true)) ∧
      (∀ c f, i = .string c f → (c = .foreground ↔ w.getLsbD 4 = true) ∧ (f = .f3x6 ↔ w.getLsbD 5 = true))) ∧
  (∀ w : Word, ¬(w &&& 0xFFC0#16 = 0 ∧ (w &&& 0xF#16).toNat ≤ 9) →
    (∃ e, decodeWord w = .error e) ∧
    ∀ (s : State) (rest : List HostEvent), s.host = .w16 0x00 w :: rest → s.busy = false →
      rest.all HostEvent.notReset = true → ∃ t, step s = .next t ∧ t.result = .badCommand)

/-- 30_encoding.md rule R69: a COLOR or FONT bit that a command does not use neither makes its word
BAD_COMMAND nor changes anything. -/
def Obligations.IgnoredBitsChangeNothing : Prop :=
  ∀ (s : State) (c : Color) (u u' : BitVec 1) (w w' : BitVec 2),
    (∀ i ∈ [Instr.nop w, .init w, .setcur w, .plot c u, .rect c u, .fill c u, .circle c u, .char8 c u,
      .char3 c u], decodeWord (encode i) = .ok i) ∧
    exec (.nop w) s = exec (.nop w') s ∧ exec (.init w) s = exec (.init w') s ∧
    exec (.setcur w) s = exec (.setcur w') s ∧ exec (.plot c u) s = exec (.plot c u') s ∧
    exec (.rect c u) s = exec (.rect c u') s ∧ exec (.fill c u) s = exec (.fill c u') s ∧
    exec (.circle c u) s = exec (.circle c u') s ∧ exec (.char8 c u) s = exec (.char8 c u') s ∧
    exec (.char3 c u) s = exec (.char3 c u') s

/-- The accesses of each of the ten command lines (30_encoding.md rule R72): the operand registers in order
with the operands' values, then a command word that decodes to the command, then WAIT. -/
def Obligations.CommandLinesAssemble : Prop :=
  (∃ w : Word, assemble .nop = [.w16 0x00 w, .wait] ∧ decodeWord w = .ok (.nop 0)) ∧
  (∀ mode : Nat, (Line.init mode).wf = true → ∃ a w : Word,
    assemble (.init mode) = [.w16 0x04 a, .w16 0x00 w, .wait] ∧ a.toNat = mode ∧
    decodeWord w = .ok (.init 0)) ∧
  (∀ c : Color, ∃ w : Word, assemble (.fill c) = [.w16 0x00 w, .wait] ∧ decodeWord w = .ok (.fill c 0)) ∧
  (∀ (c : Color) (ch : Nat), (Line.char8 c ch).wf = true → ∃ a w : Word,
    assemble (.char8 c ch) = [.w16 0x04 a, .w16 0x00 w, .wait] ∧ a.toNat = ch ∧
    decodeWord w = .ok (.char8 c 0)) ∧
  (∀ (c : Color) (ch : Nat), (Line.char3 c ch).wf = true → ∃ a w : Word,
    assemble (.char3 c ch) = [.w16 0x04 a, .w16 0x00 w, .wait] ∧ a.toNat = ch ∧
    decodeWord w = .ok (.char3 c 0)) ∧
  (∀ (c : Color) (x y : Int), (Line.plot c x y).wf = true → ∃ a b w : Word,
    assemble (.plot c x y) = [.w16 0x04 a, .w16 0x06 b, .w16 0x00 w, .wait] ∧ a.toInt = x ∧ b.toInt = y ∧
    decodeWord w = .ok (.plot c 0)) ∧
  (∀ (c : Color) (xs ys xe ye : Int), (Line.rect c xs ys xe ye).wf = true → ∃ a b d e w : Word,
    assemble (.rect c xs ys xe ye) =
      [.w16 0x04 a, .w16 0x06 b, .w16 0x08 d, .w16 0x0A e, .w16 0x00 w, .wait] ∧
    a.toInt = xs ∧ b.toInt = ys ∧ d.toInt = xe ∧ e.toInt = ye ∧ decodeWord w = .ok (.rect c 0)) ∧
  (∀ (c : Color) (xc yc : Int) (r : Nat), (Line.circle c xc yc r).wf = true → ∃ a b d w : Word,
    assemble (.circle c xc yc r) = [.w16 0x04 a, .w16 0x06 b, .w16 0x08 d, .w16 0x00 w, .wait] ∧
    a.toInt = xc ∧ b.toInt = yc ∧ d.toNat = r ∧ decodeWord w = .ok (.circle c 0)) ∧
  (∀ (f : Font) (c : Color) (n : Nat), (Line.string f c n).wf = true → ∃ a w : Word,
    assemble (.string f c n) = [.w16 0x04 a, .w16 0x00 w, .wait] ∧ a.toNat = n ∧
    decodeWord w = .ok (.string c f)) ∧
  (∀ x y : Nat, (Line.setcur x y).wf = true → ∃ a b w : Word,
    assemble (.setcur x y) = [.w16 0x04 a, .w16 0x06 b, .w16 0x00 w, .wait] ∧ a.toNat = x ∧ b.toNat = y ∧
    decodeWord w = .ok (.setcur 0))

/-- The bare accesses of a host program and the pseudo-instructions CLS, HLINE, VLINE and GOTO
(30_encoding.md rules R72, R73): CLS is a BACKGROUND FILL, HLINE and VLINE are the RECT of a flat
rectangle, GOTO is SETCUR. (PUTS: `PutsFillsCharbuf`.) -/
def Obligations.PseudoInstructionsAssemble : Prop :=
  (∀ off v : Nat, (Line.w16 off v).wf = true → ∃ (o : BitVec 7) (a : Word),
    assemble (.w16 off v) = [.w16 o a] ∧ o.toNat = off ∧ a.toNat = v) ∧
  (∀ off : Nat, (Line.r16 off).wf = true → ∃ o : BitVec 7, assemble (.r16 off) = [.r16 o] ∧ o.toNat = off) ∧
  assemble .wait = [.wait] ∧
  (∃ w : Word, assemble .cls = [.w16 0x00 w, .wait] ∧ decodeWord w = .ok (.fill .background 0)) ∧
  (∀ (c : Color) (x0 x1 y : Int), (Line.hline c x0 x1 y).wf = true → ∃ a b d w : Word,
    assemble (.hline c x0 x1 y) =
      [.w16 0x04 a, .w16 0x06 b, .w16 0x08 d, .w16 0x0A b, .w16 0x00 w, .wait] ∧
    a.toInt = x0 ∧ b.toInt = y ∧ d.toInt = x1 ∧ decodeWord w = .ok (.rect c 0)) ∧
  (∀ (c : Color) (x y0 y1 : Int), (Line.vline c x y0 y1).wf = true → ∃ a b d w : Word,
    assemble (.vline c x y0 y1) =
      [.w16 0x04 a, .w16 0x06 b, .w16 0x08 a, .w16 0x0A d, .w16 0x00 w, .wait] ∧
    a.toInt = x ∧ b.toInt = y0 ∧ d.toInt = y1 ∧ decodeWord w = .ok (.rect c 0)) ∧
  (∀ x y : Nat, (Line.goto x y).wf = true → ∃ a b w : Word,
    assemble (.goto x y) = [.w16 0x04 a, .w16 0x06 b, .w16 0x00 w, .wait] ∧ a.toNat = x ∧ b.toNat = y ∧
    decodeWord w = .ok (.setcur 0))

/-- PUTS (30_encoding.md rule R73): its CHARBUF writes, made one after the other while BUSY = 0, leave
the string's characters in CHARBUF, and STRING's length operand is its length. -/
def Obligations.PutsFillsCharbuf : Prop :=
  ∀ (f : Font) (c : Color) (text : List Nat) (s : State), (Line.puts f c text).wf = true → s.busy = false →
    ∃ (ws : List HostEvent) (n w : Word),
      assemble (.puts f c text) = ws ++ [.w16 0x04 n, .w16 0x00 w, .wait] ∧
      n.toNat = text.length ∧ decodeWord w = .ok (.string c f) ∧
      ∀ k (h : k < text.length),
        ((ws.foldl (fun s e => hostAct e s) s).charAt k).toNat = text[k]

/-! ### The step, the Host's accesses, reset -/

/-- 45_control.md rule R121: a write to CMD while BUSY = 0 stores the word, sets BUSY and runs the command
it decodes to (a step is then `exec` of that command), or ends as BAD_COMMAND if it decodes to none; while
BUSY = 1 the write is ignored, nothing is queued, and BUSYWR is set. -/
def Obligations.StepRunsTheDecodedCommand : Prop :=
  ∀ (s : State) (off : BitVec 7) (w : Word) (rest : List HostEvent), s.host = .w16 off w :: rest →
    off.toNat = 0 ∨ off.toNat = 1 →
    (s.busy = false → ∀ i, decodeWord w = .ok i → step s = exec i (startedAs w rest s)) ∧
    (s.busy = false → ∀ e, decodeWord w = .error e → step s = .next (rejectCommand (startedAs w rest s))) ∧
    (s.busy = true → step s = .next { s with host := rest, busyWr := true })

/-- The word placed by `withFetchWord` (the model's own way in, log 1) is what the next step runs. -/
def Obligations.PlacedWordRunsNext : Prop :=
  ∀ (s : State) (w : Word) (i : Instr), decodeTableWord 16 w.toNat = some i →
    decodeWord w = .ok i ∧ step (s.withFetchWord 16 w.toNat) = exec i (startedAs w s.host s)

/-- No step ends in a fault or a refusal: the engine has no trap and every access and command is allowed
at all times (60_exceptions.md rules R138, R143). -/
def Obligations.EveryStepGoesOn : Prop :=
  ∀ s : State, ∃ t, step s = .next t

/-- 45_control.md rules R123, R129: every command, from every state and whatever happens in it, ends with
BUSY = 0 and SEQ = IDLE: it completes, or a reset abandons it (70_reset_and_hazards.md rule R146). That a
transaction is always answered is the progress assumption of rule R159 (log 19). -/
def Obligations.EveryCommandCompletes : Prop :=
  ∀ (i : Instr) (s : State), ∃ t, exec i s = .next t ∧ t.busy = false ∧ t.seq = .idle

/-- 20_memory.md rule R40: a host read returns the register at `off & 0x7E` (0 for 0x50 to 0x7F) and
changes nothing but what the Host has read; 10_state.md rule R14 gives the map. -/
def Obligations.HostReadMap : Prop :=
  ∀ (s : State) (off : BitVec 7) (rest : List HostEvent), s.host = .r16 off :: rest →
    step s = .next { s with host := rest, reads := hostRead off s :: s.reads } ∧
    hostRead off s = hostRead (BitVec.ofNat 7 (2 * (off.toNat / 2))) s ∧
    (off.toNat / 2 = 0 → hostRead off s = s.cmd) ∧
    (off.toNat / 2 = 1 → hostRead off s = s.statusWord) ∧
    (off.toNat / 2 = 2 → hostRead off s = s.arg0) ∧
    (off.toNat / 2 = 3 → hostRead off s = s.arg1) ∧
    (off.toNat / 2 = 4 → hostRead off s = s.arg2) ∧
    (off.toNat / 2 = 5 → hostRead off s = s.arg3) ∧
    (off.toNat / 2 = 6 → hostRead off s = s.curx) ∧
    (off.toNat / 2 = 7 → hostRead off s = s.cury) ∧
    (∀ j, 2 * j + 1 < 64 → off.toNat / 2 = 8 + j → hostRead off s = s.charWord j) ∧
    (0x50 ≤ off.toNat → hostRead off s = 0)

/-- 10_state.md rule R16: the layout of STATUS; codes as in 00_scope.md rule R9. -/
def Obligations.StatusLayout : Prop :=
  ∀ s : State, s.statusWord.getLsbD 0 = s.busy ∧ s.statusWord.getLsbD 4 = s.fault ∧
    s.statusWord.getLsbD 5 = s.busyWr ∧ (∀ k, 6 ≤ k → s.statusWord.getLsbD k = false) ∧
    (s.statusWord.extractLsb' 1 3).toNat = (match s.result with
      | .ok => 0 | .outOfRange => 1 | .hwTimeout => 2 | .badCommand => 3 | .refused => 4)

/-- 20_memory.md rule R41: what a host write does, by offset (`off / 2` is the register number). -/
def Obligations.HostWriteMap : Prop :=
  ∀ (s : State) (off : BitVec 7) (v : Word) (rest : List HostEvent), s.host = .w16 off v :: rest →
    (s.busy = true → step s = .next { s with host := rest, busyWr := true }) ∧
    (s.busy = false →
      (off.toNat / 2 = 0 → step s = match decodeWord v with
        | .ok i => exec i (startedAs v rest s)
        | .error _ => .next (rejectCommand (startedAs v rest s))) ∧
      (off.toNat / 2 = 2 → step s = .next { s with host := rest, arg0 := v }) ∧
      (off.toNat / 2 = 3 → step s = .next { s with host := rest, arg1 := v }) ∧
      (off.toNat / 2 = 4 → step s = .next { s with host := rest, arg2 := v }) ∧
      (off.toNat / 2 = 5 → step s = .next { s with host := rest, arg3 := v }) ∧
      (∀ j, j < 32 → off.toNat / 2 = 8 + j → ∃ t, step s = .next t ∧
        t = { s with host := rest, charbuf := t.charbuf } ∧
        t.charAt (2 * j) = v.extractLsb' 0 8 ∧ t.charAt (2 * j + 1) = v.extractLsb' 8 8 ∧
        ∀ k, k ≠ 2 * j → k ≠ 2 * j + 1 → t.charAt k = s.charAt k) ∧
      (off.toNat / 2 = 1 ∨ off.toNat / 2 = 6 ∨ off.toNat / 2 = 7 ∨ 0x50 ≤ off.toNat →
        step s = .next { s with host := rest }))

/-- 20_memory.md rule R42: CHARBUF word `j` holds character `2j` in bits 7:0 and `2j + 1` in bits 15:8,
for a write and for a read, so that a word reads as it was written. -/
def Obligations.CharbufReadsBack : Prop :=
  ∀ (s : State) (off : BitVec 7) (v : Word) (j : Nat), j ≤ 31 → off.toNat = 0x10 + 2 * j →
    (hostRead off s).toNat = (s.charAt (2 * j)).toNat + 256 * (s.charAt (2 * j + 1)).toNat ∧
    (s.busy = false →
      (hostWrite off v s).charAt (2 * j) = v.extractLsb' 0 8 ∧
      (hostWrite off v s).charAt (2 * j + 1) = v.extractLsb' 8 8 ∧
      hostRead off (hostWrite off v s) = v)

/-- 10_state.md rule R34: the values the spec gives for reset. (CHARBUF,
the display and the working state are not among them.) -/
def Obligations.ResetValues : Prop :=
  State.reset.cmd = 0 ∧ State.reset.statusWord = 0 ∧ State.reset.arg0 = 0 ∧ State.reset.arg1 = 0 ∧
  State.reset.arg2 = 0 ∧ State.reset.arg3 = 0 ∧ State.reset.curx = 0 ∧ State.reset.cury = 0 ∧
  State.reset.seq = .idle

/-- 70_reset_and_hazards.md rules R146, R147: a reset between commands sets the engine's registers, keeps
the display and issues no transaction. -/
def Obligations.ResetKeepsTheDisplay : Prop :=
  ∀ (s : State) (cut : Bool) (rest : List HostEvent), s.host = .reset cut :: rest →
    ∃ t, step s = .next t ∧ atResetValues t ∧ t.host = rest ∧ t.disp = s.disp ∧ t.trace = s.trace

/-- 70_reset_and_hazards.md rules R146, R147: a command in which a reset arrives after exactly `k` of its
actions (`k` pauses first), before one that is still to come, is abandoned, whatever command it is. The
registers are at their reset values, and the command has performed the transactions it performs without the
reset among those `k` actions, and issues none after. A reset with `cut`, where the next action is a
transaction, cuts that one short: it is the last and has the effect of a timed-out one. Without `cut`, or
where the next action is no transaction (all are issued, or a glyph of a STRING is to be counted), nothing is
cut. The display is what those transactions leave. With fewer actions than that (no action number `k` from
0), the command ends as without the reset, which is still to come. (What the actions are, the transactions
and the steps that are none, is the model's choice: logs 2, 3. The reset as an event with `cut`: log 22. That
the trace records the cut transaction as TIMEOUT: log 11. What that one leaves: free values, log 5.) -/
def Obligations.ResetAbandonsTheCommand : Prop :=
  ∀ (i : Instr) (s : State) (k : Nat) (cut : Bool) (rest : List HostEvent),
    s.host = List.replicate k .pause ++ .reset cut :: rest →
    ∃ t t' new whole, exec i s = .next t ∧ exec i { s with host := [] } = .next t' ∧
      issued s t new ∧ issued s t' whole ∧ t.disp = s.disp.after s.draws new ∧
      (hasAction i s k whole t' → atResetValues t ∧ t.host = rest ∧
        ((new <+: whole ∧ doneAfter i s k new whole ∧
            (cut = false ∨ new = whole ∨ beforeAdvance i s k new)) ∨
          (cut = true ∧ ∃ before x a, new = before ++ [(x, .timeout)] ∧ before ++ [(x, a)] <+: whole ∧
            doneAfter i s k before whole ∧ ¬beforeAdvance i s k before))) ∧
      (¬hasAction i s k whole t' → t = { t' with host := t.host } ∧
        ∃ m, t.host = List.replicate m .pause ++ .reset cut :: rest ∧ m ≤ k)

/-! ### The coordinate translator and the display -/

/-- 40_addressing.md rule R78: the translation is one-to-one, in both directions. -/
def Obligations.LocateRoundTrip : Prop :=
  (∀ x y : Int, onScreen x y = true →
    x = (locate x y).column.toNat + 64 * (if (locate x y).side = .left then 0 else 1) ∧
    y = (locate x y).page.toNat * 8 + bitIndex y ∧ bitIndex y < 8) ∧
  (∀ (a : Address) (k : Nat), k < 8 → ∃ x y : Int, onScreen x y = true ∧ locate x y = a ∧ bitIndex y = k ∧
    x = a.column.toNat + 64 * (if a.side = .left then 0 else 1) ∧ y = 8 * a.page.toNat + k ∧
    ∀ u v : Int, onScreen u v = true → locate u v = a → bitIndex v = k → u = x ∧ v = y)

/-- 20_memory.md rules R47, R48, R49: what each display-bus transaction does to the side it is on, when it
completes. The column's wrap from 63 to 0 is PRESUMED in rule R50 (log 14), and that the byte of an RD
is the latch's even for a throwaway read is DEDUCED (log 15; U1 leaves that byte open). (The memory premise
is the invariant `SteppingKeepsTheInvariant`.) -/
def Obligations.TransactionEffects : Prop :=
  ∀ (d : Display) (s : Side), d.dram.wf = true →
    (∀ p c, let d' := d.perform (.sel s p c);
      (d'.chip s).page = p ∧ (d'.chip s).col = c ∧ (d'.chip s).latch = (d.chip s).latch ∧
      d'.dram = d.dram) ∧
    (let d' := d.perform (.rd s);
      d.answerByte (.rd s) = some (d.chip s).latch ∧
      (d'.chip s).latch = d.byteAt ⟨s, (d.chip s).page, (d.chip s).col⟩ ∧
      (d'.chip s).page = (d.chip s).page ∧
      (d'.chip s).col.toNat = ((d.chip s).col.toNat + 1) % 64 ∧ d'.dram = d.dram) ∧
    (∀ v, let d' := d.perform (.wr s v);
      d'.byteAt ⟨s, (d.chip s).page, (d.chip s).col⟩ = v ∧
      (∀ a, a ≠ ⟨s, (d.chip s).page, (d.chip s).col⟩ → d'.byteAt a = d.byteAt a) ∧
      (d'.chip s).latch = (d.chip s).latch ∧ (d'.chip s).page = (d.chip s).page ∧
      (d'.chip s).col.toNat = ((d.chip s).col.toNat + 1) % 64)

/-- 20_memory.md rule R52: a transaction on a side, completed or timed out, leaves the other side alone. -/
def Obligations.TransactionTouchesOnlyItsSide : Prop :=
  ∀ (d : Display) (t : Transaction) (n : Nat) (s : Side), s ≠ sideOf t →
    (d.perform t).chip s = d.chip s ∧ (d.timeOut t n).chip s = d.chip s ∧
    ∀ a : Address, a.side = s →
      (d.perform t).byteAt a = d.byteAt a ∧ (d.timeOut t n).byteAt a = d.byteAt a

/-- 20_memory.md rule R51: what a transaction that times out leaves, for every free value: after SEL and
RD every DRAM byte as it was, after WR its byte old or written and every other as it was; the other side as
it was. (Its own side's PAGE_REG, COL_REG and OUT_LATCH are free after each of the three: U6 and D15, log 5.
So nothing is stated of them.) -/
def Obligations.TimedOutTransactionEffects : Prop :=
  ∀ (d : Display) (n : Nat) (s : Side), d.dram.wf = true →
    (∀ p c, let d' := d.timeOut (.sel s p c) n;
      d'.dram = d.dram ∧ ∀ s', s' ≠ s → d'.chip s' = d.chip s') ∧
    (let d' := d.timeOut (.rd s) n; d'.dram = d.dram ∧ ∀ s', s' ≠ s → d'.chip s' = d.chip s') ∧
    (∀ v, let d' := d.timeOut (.wr s v) n;
      (d'.byteAt ⟨s, (d.chip s).page, (d.chip s).col⟩ = d.byteAt ⟨s, (d.chip s).page, (d.chip s).col⟩ ∨
        d'.byteAt ⟨s, (d.chip s).page, (d.chip s).col⟩ = v) ∧
      (∀ a, a ≠ ⟨s, (d.chip s).page, (d.chip s).col⟩ → d'.byteAt a = d.byteAt a) ∧
      ∀ s', s' ≠ s → d'.chip s' = d.chip s')

/-- 40_addressing.md rule R83: the true read returns the current byte, whatever the latch held, and leaves
the column pointer two columns on (its wrap from 63 to 0 is PRESUMED in 20_memory.md rule R50, log 14). -/
def Obligations.TrueReadReturnsTheCurrentByte : Prop :=
  ∀ (a : Address) (s : State), s.undisturbed → ∃ t, readTrue a s = .running t ∧
    t.work.byte = s.disp.byteAt a ∧ t.disp.dram = s.disp.dram ∧
    (t.disp.chip a.side).col.toNat = (a.column.toNat + 2) % 64 ∧
    issued s t [(.sel a.side a.page a.column, .ok), (.rd a.side, .ok), (.rd a.side, .ok)]

/-- 40_addressing.md rule R81: in every run without a reset, the transactions a command issues follow the
sequencer's table from IDLE back to IDLE; one that times out is the last. Each takes the next of the Bus's
answers (40_addressing.md rule R84; OK once none is scripted: log 4). 60_exceptions.md rules R133, R134: the
command, whichever it is, ends as HW_TIMEOUT exactly if one has timed out, and FAULT is then set; it has
issued what it issues when the Bus answers OK to all, up to the one that timed out and nothing after it. If
none times out, it ends as when the Bus answers OK to all. -/
def Obligations.TransactionsFollowTheSequencer : Prop :=
  ∀ (i : Instr) (s : State), s.noReset = true →
    ∃ t t' new full, exec i s = .next t ∧ exec i { s with answers := [] } = .next t' ∧
      issued s t new ∧ issued s t' full ∧ SeqRun .idle none new ∧
      new.map Prod.snd = (List.range new.length).map (fun n => s.answers.getD n .ok) ∧
      t.answers = s.answers.drop new.length ∧
      (t.result = .hwTimeout ↔ ∃ e ∈ new, e.2 = .timeout) ∧
      (t.result = .hwTimeout → t.fault = true ∧
        ∃ before x, new = before ++ [(x, .timeout)] ∧ before ++ [(x, .ok)] <+: full) ∧
      (t.result ≠ .hwTimeout → t = { t' with answers := t.answers })

/-- 20_memory.md rules R52, R53: in every run, resets and TIMEOUTs included, the display changes only by
the command's transactions, each with its effect (rules R47 to R49, R51): a side with none keeps its bytes
and its controller, with no WR no byte changes, and with no RD and no TIMEOUT no output latch does. (That the
engine is the only master is rule R53's premise, PRESUMED in log 18; a side's controller after a TIMEOUT is
free, log 5.) -/
def Obligations.DisplayChangesOnlyByTransactions : Prop :=
  ∀ (i : Instr) (s : State), ∃ t new, exec i s = .next t ∧ issued s t new ∧
    t.disp = s.disp.after s.draws new ∧
    (∀ sd, (∀ e ∈ new, sideOf e.1 ≠ sd) →
      t.disp.chip sd = s.disp.chip sd ∧ ∀ a : Address, a.side = sd → t.disp.byteAt a = s.disp.byteAt a) ∧
    ((∀ e ∈ new, ∀ sd v, e.1 ≠ .wr sd v) → t.disp.dram = s.disp.dram) ∧
    (∀ sd, (∀ e ∈ new, e.1 ≠ .rd sd ∧ (sideOf e.1 = sd → e.2 = .ok)) →
      (t.disp.chip sd).latch = (s.disp.chip sd).latch)

/-! ### The lifecycle of a command -/

/-- 45_control.md rule R126: a word with a RSVD bit set or OPC in 0xA to 0xF, and a STRING longer than 64,
complete with BAD_COMMAND and change nothing else: no transaction, no cursor change, FAULT as it was; the
rejected word stays in CMD, and it is reported even while FAULT = 1. (A STRING is refused while FAULT = 1:
rule R122.) -/
def Obligations.BadCommandChangesNothingElse : Prop :=
  (∀ (s : State) (w : Word) (rest : List HostEvent), s.host = .w16 0x00 w :: rest → s.busy = false →
    rest.all HostEvent.notReset = true → w &&& 0xFFC0#16 ≠ 0 ∨ 0xA ≤ (w &&& 0xF#16).toNat →
    ∃ t, step s = .next t ∧ completedKeeping .badCommand (startedAs w rest s) t ∧ t.cmd = w ∧
      sameCursor s t ∧ t.disp = s.disp ∧ t.trace = s.trace ∧ t.answers = s.answers) ∧
  (∀ (c : Color) (f : Font) (s : State), s.noReset = true → s.fault = false → 64 < s.arg0.toNat →
    ∃ t, exec (.string c f) s = .next t ∧ completedKeeping .badCommand s t ∧ sameCursor s t ∧
      t.disp = s.disp ∧ t.trace = s.trace ∧ t.answers = s.answers)

/-- 45_control.md rule R127: while FAULT = 1 every command but INIT completes REFUSED and does nothing
else. -/
def Obligations.FaultRefusesEveryCommandButInit : Prop :=
  ∀ (i : Instr) (s : State), (∀ u, i ≠ .init u) → s.fault = true → s.noReset = true →
    ∃ t, exec i s = .next t ∧ completedKeeping .refused s t ∧ sameCursor s t ∧ t.disp = s.disp ∧
      t.trace = s.trace ∧ t.answers = s.answers

/-- 20_memory.md rule R41, 45_control.md rule R128, 60_exceptions.md rule R142: host accesses that arrive
while a command runs (resets apart) do not disturb it: it ends in the same state as without them, but for
the Host's own list, what it has read, and BUSYWR. -/
def Obligations.HostAccessesDoNotDisturbACommand : Prop :=
  ∀ (i : Instr) (s : State), s.noReset = true →
    ∃ t t', exec i s = .next t ∧ exec i { s with host := [] } = .next t' ∧
      t = { t' with host := t.host, reads := t.reads, busyWr := t.busyWr }

/-- 10_state.md rule R37: of the host reads that arrive while a command runs, in the order the Host makes
them and of whatever registers, those of CMD, ARG0 to ARG3, CHARBUF and the reserved offsets return the
values they had at its start, whatever host writes arrive between them. -/
def Obligations.ReadsWhileBusyAreStable : Prop :=
  ∀ (i : Instr) (s : State), s.noReset = true →
    ∃ t served new, exec i s = .next t ∧ s.host = served ++ t.host ∧ t.reads = new.reverse ++ s.reads ∧
      List.Forall₂ (fun off v => off.toNat / 2 ≠ 1 → off.toNat / 2 ≠ 6 → off.toNat / 2 ≠ 7 →
        v = hostRead off s) (served.filterMap HostEvent.readOffset) new

/-- 10_state.md rule R37: of the host reads that arrive while a command runs, of whatever registers, one of
STATUS returns BUSY = 1 and the RESULT of the command before, one of CURY the value at command start, and
one of CURX the value after a number of completed glyphs, at most the command's. In a STRING whose glyphs are
all clipped, and so draw nothing, a Host that reads CURX once before each action reads the start value and
the value after each glyph. (What an action is, and that a pause lets one pass, is the model's choice, log 2;
that the advance after a glyph is an action of its own is DEDUCED, log 3.) -/
def Obligations.LiveReadsWhileBusy : Prop :=
  (∀ (i : Instr) (s : State), s.noReset = true →
    ∃ t served new, exec i s = .next t ∧ s.host = served ++ t.host ∧ t.reads = new.reverse ++ s.reads ∧
      List.Forall₂ (fun off v =>
        (off.toNat / 2 = 1 → v.getLsbD 0 = true ∧ v.extractLsb' 1 3 = s.result.code) ∧
        (off.toNat / 2 = 7 → v = s.cury) ∧
        (off.toNat / 2 = 6 → ∃ n ≤ (glyphsOf i s).2, v = curxAfter (glyphsOf i s).1 n s.curx))
        (served.filterMap HostEvent.readOffset) new) ∧
  (∀ (c : Color) (f : Font) (s : State) (n : Nat), s.fault = false → s.arg0.toNat = n → n ≤ 64 →
    64 ≤ s.cury.toNat → s.host = (List.replicate (n + 1) [.r16 0x0C, .pause]).flatten →
    ∃ t, exec (.string c f) s = .next t ∧
      t.reads = ((List.range (n + 1)).map fun m => curxAfter f m s.curx).reverse ++ s.reads)

/-- 10_state.md rule R20, 20_memory.md rule R41, 60_exceptions.md rule R142: a host write that arrives while a
command runs sets BUSYWR, and nothing else does: of every command but INIT, and of a word the decoder
rejects, BUSYWR ends as it was, or set if a write is among the accesses served; and a write that arrives
first is served. INIT clears BUSYWR, and a write that arrives after that sets it again (rule R125; that the
clearing is INIT's first action, and a pause lets it pass, is the model's choice: logs 2, 3). -/
def Obligations.WritesWhileBusySetBusyWr : Prop :=
  (∀ (i : Instr) (s : State), (∀ u, i ≠ .init u) → s.noReset = true →
    ∃ t served, exec i s = .next t ∧ s.host = served ++ t.host ∧
      t.busyWr = (s.busyWr || !served.all HostEvent.notWrite) ∧
      ∀ off v rest, s.host = .w16 off v :: rest → t.busyWr = true) ∧
  (∀ s : State, s.noReset = true → ∃ served, s.host = served ++ (rejectCommand s).host ∧
    (rejectCommand s).busyWr = (s.busyWr || !served.all HostEvent.notWrite) ∧
    ∀ off v rest, s.host = .w16 off v :: rest → (rejectCommand s).busyWr = true) ∧
  (∀ (u : BitVec 2) (s : State) (off : BitVec 7) (v : Word) (rest : List HostEvent), s.noReset = true →
    s.host = .pause :: .w16 off v :: rest → ∃ t, exec (.init u) s = .next t ∧ t.busyWr = true)

/-- WAIT of a host program (30_encoding.md rule R72) is the model's one event for the reads of STATUS until
BUSY = 0 (DESIGN CHOICE, log 21). With BUSY = 0 a step on it records STATUS and changes nothing else; with
BUSY = 1 it stays next. A WAIT that arrives while a command runs is not served in it, so that the end of an
assembled command line, the command word followed by WAIT, runs the command and then reads a STATUS with
BUSY = 0. -/
def Obligations.WaitReadsStatusWhenIdle : Prop :=
  (∀ (s : State) (rest : List HostEvent), s.host = .wait :: rest →
    (s.busy = false → step s = .next { s with host := rest, reads := s.statusWord :: s.reads }) ∧
    (s.busy = true → step s = .next s)) ∧
  (∀ (i : Instr) (s : State), ∃ t served, exec i s = .next t ∧ s.host = served ++ t.host ∧
    HostEvent.wait ∉ served) ∧
  (∀ (s : State) (w : Word) (rest : List HostEvent), s.host = .w16 0x00 w :: .wait :: rest →
    s.busy = false → ∃ t, step s = .next t ∧ t.statusWord.getLsbD 0 = false ∧
      step t = .next { t with host := rest, reads := t.statusWord :: t.reads })

/-- 45_control.md rule R130, its rows for the engine's registers: what no command but INIT and SETCUR
writes, in any run without a reset, TIMEOUTs and host accesses included: CMD, ARG0 to ARG3, CHARBUF, CURY;
FAULT changes only with HW_TIMEOUT; BUSYWR is only set, by host writes; and only glyph commands move CURX.
(The rows for the display: `DisplayFrame`.) -/
def Obligations.CommandFrame : Prop :=
  ∀ (i : Instr) (s : State), (∀ u, i ≠ .init u) → (∀ u, i ≠ .setcur u) → s.noReset = true →
    ∃ t, exec i s = .next t ∧ sameOperands s t ∧ t.cury = s.cury ∧ busyWrOnlySet s t ∧
      t.fault = (s.fault || decide (t.result = .hwTimeout)) ∧
      ((∀ c u, i ≠ .char8 c u) → (∀ c u, i ≠ .char3 c u) → (∀ c f, i ≠ .string c f) → t.curx = s.curx)

/-- 45_control.md rule R130, its rows for the display: in every run, TIMEOUTs, host accesses and resets
included, every byte of display memory outside those the command may write keeps its value, and a side on
which it may write none keeps its controller. The bytes are those that hold an on-screen point of PLOT, RECT
or CIRCLE, a visible column of an 8×8 glyph, or an on-screen set pixel of a 3×6 glyph; all for FILL; none
for NOP, INIT and SETCUR. -/
def Obligations.DisplayFrame : Prop :=
  ∀ (i : Instr) (s : State), ∃ t, exec i s = .next t ∧
    (∀ a, ¬mayWrite i s a → t.disp.byteAt a = s.disp.byteAt a) ∧
    ∀ sd, (∀ a, mayWrite i s a → a.side ≠ sd) → t.disp.chip sd = s.disp.chip sd

/-- 44_text.md rule R115: no command but INIT and SETCUR, and so no glyph command, changes CURY or sets
CURX to a smaller value, TIMEOUTs and host accesses included (a reset moves the cursor too). -/
def Obligations.CursorNeverMovesBack : Prop :=
  ∀ (i : Instr) (s : State), (∀ u, i ≠ .init u) → (∀ u, i ≠ .setcur u) → s.noReset = true →
    ∃ t, exec i s = .next t ∧ t.cury = s.cury ∧ s.curx.toNat ≤ t.curx.toNat

/-- `State.reset` meets the invariant. -/
def Obligations.ResetMeetsTheInvariant : Prop := State.reset.Inv

/-- The invariant between commands is kept by every step from every state that meets it: display memory
in canonical form, BUSY = 0 with SEQ = IDLE (10_state.md rule R25), and FAULT with its results. -/
def Obligations.SteppingKeepsTheInvariant : Prop :=
  ∀ s t : State, s.Inv → step s = .next t → t.Inv

/-! ### NOP, INIT, SETCUR -/

/-- 45_control.md rule R124: 0x0000, 0x0010, 0x0020 and 0x0030 encode NOP, which completes OK (REFUSED while
FAULT = 1) and leaves everything else, the display included. -/
def Obligations.NopOnlyCompletes : Prop :=
  (∀ w : Word, w &&& 0xFFCF#16 = 0x0000#16 → ∃ u, decodeWord w = .ok (.nop u)) ∧
  ∀ (u : BitVec 2) (s : State), s.noReset = true →
    ∃ t, exec (.nop u) s = .next t ∧ completedKeeping (if s.fault = true then .refused else .ok) s t ∧
      sameCursor s t ∧ t.disp = s.disp ∧ t.trace = s.trace ∧ t.answers = s.answers

/-- 45_control.md rule R125: 0x0001, whatever bits 5:4, encodes INIT, which zeroes the cursor, clears FAULT and
BUSYWR, completes OK whatever FAULT and ARG0 are, and leaves everything else, the display included. (A host
write that arrives while INIT runs, after it has cleared BUSYWR, sets it again: 10_state.md rule R20.) -/
def Obligations.InitAcknowledgesTheFault : Prop :=
  (∀ w : Word, w &&& 0xFFCF#16 = 0x0001#16 → ∃ u, decodeWord w = .ok (.init u)) ∧
  ∀ (u : BitVec 2) (s : State), s.noReset = true →
    ∃ t, exec (.init u) s = .next t ∧ completedWith .ok t ∧ t.curx = 0 ∧ t.cury = 0 ∧ t.fault = false ∧
      (s.noWrite = true → t.busyWr = false) ∧ sameOperands s t ∧ t.disp = s.disp ∧ t.trace = s.trace ∧
      t.answers = s.answers

/-- 44_text.md rule R113: 0x0009, whatever bits 5:4, encodes SETCUR, which stores any two values in CURX and
CURY, issues no transaction and cannot time out. -/
def Obligations.SetcurStoresTheCursor : Prop :=
  (∀ w : Word, w &&& 0xFFCF#16 = 0x0009#16 → ∃ u, decodeWord w = .ok (.setcur u)) ∧
  ∀ (u : BitVec 2) (s : State), s.noReset = true → s.fault = false →
    ∃ t, exec (.setcur u) s = .next t ∧ completedKeeping .ok s t ∧ t.curx = s.arg0 ∧ t.cury = s.arg1 ∧
      t.disp = s.disp ∧ t.trace = s.trace ∧ t.answers = s.answers

/-! ### PLOT -/

/-- 41_pixelplot.md rules R87, R89, R91: an on-screen PLOT completes OK, sets that pixel, leaves every
other pixel, the cursor and the other controller alone, and issues SEL, RD, RD, SEL, WR. The pixel's own
controller ends as 20_memory.md rules R47 to R49 say (its column pointer wraps: rule R50, PRESUMED there,
log 14). -/
def Obligations.PlotSetsOnePixel : Prop :=
  ∀ (c : Color) (u : BitVec 1) (s : State), s.undisturbed → s.fault = false → s.disp.dram.wf = true →
    onScreen s.arg0.toInt s.arg1.toInt = true →
    ∃ t b, exec (.plot c u) s = .next t ∧ completedKeeping .ok s t ∧ sameCursor s t ∧
      t.pixel s.arg0.toInt s.arg1.toInt = c ∧
      (∀ x y, onScreen x y = true → (x, y) ≠ (s.arg0.toInt, s.arg1.toInt) → t.pixel x y = s.pixel x y) ∧
      (∀ sd, sd ≠ (locate s.arg0.toInt s.arg1.toInt).side → t.disp.chip sd = s.disp.chip sd) ∧
      (let a := locate s.arg0.toInt s.arg1.toInt;
       t.disp.chip a.side =
         { page := a.page, col := a.column + 1, latch := s.disp.byteAt { a with column := a.column + 1 } } ∧
       t.disp.byteAt a = b ∧ (∀ a', a' ≠ a → t.disp.byteAt a' = s.disp.byteAt a') ∧
       issued s t [(.sel a.side a.page a.column, .ok), (.rd a.side, .ok), (.rd a.side, .ok),
         (.sel a.side a.page a.column, .ok), (.wr a.side b, .ok)])

/-- 60_exceptions.md rule R132: an off-screen PLOT completes OUT_OF_RANGE, issues no transaction and changes
nothing else; no other command raises OUT_OF_RANGE, in any run; and no PLOT raises it after a
transaction. -/
def Obligations.OnlyPlotIsOutOfRange : Prop :=
  (∀ (c : Color) (u : BitVec 1) (s : State), s.noReset = true → s.fault = false →
    onScreen s.arg0.toInt s.arg1.toInt = false →
    ∃ t, exec (.plot c u) s = .next t ∧ completedKeeping .outOfRange s t ∧ sameCursor s t ∧
      t.disp = s.disp ∧ t.trace = s.trace ∧ t.answers = s.answers) ∧
  (∀ (i : Instr) (s t : State), (∀ c u, i ≠ .plot c u) → exec i s = .next t → t.result ≠ .outOfRange) ∧
  (∀ (c : Color) (u : BitVec 1) (s t : State), exec (.plot c u) s = .next t → t.result = .outOfRange →
    t.trace = s.trace)

/-- 41_pixelplot.md rule R92: the same PLOT twice in a row leaves the bytes of one PLOT, and the second still
issues its five transactions. -/
def Obligations.PlotIsIdempotent : Prop :=
  ∀ (c : Color) (u : BitVec 1) (s : State), s.undisturbed → s.fault = false → s.disp.dram.wf = true →
    ∃ t t', exec (.plot c u) s = .next t ∧ exec (.plot c u) t = .next t' ∧
      (∀ a, t'.disp.byteAt a = t.disp.byteAt a) ∧
      (onScreen s.arg0.toInt s.arg1.toInt = true → ∃ new, issued t t' new ∧ new.length = 5)

/-- 41_pixelplot.md rule R93: PLOTs of two different pixels leave the same bytes in either order. -/
def Obligations.PlotsOfDifferentPixelsCommute : Prop :=
  ∀ (c d : Color) (u : BitVec 1) (x y x' y' : Word) (s : State), s.undisturbed → s.fault = false →
    s.disp.dram.wf = true → (x, y) ≠ (x', y') →
    ∃ t1 t2 t1' t2', exec (.plot c u) { s with arg0 := x, arg1 := y } = .next t1 ∧
      exec (.plot d u) { t1 with arg0 := x', arg1 := y' } = .next t2 ∧
      exec (.plot d u) { s with arg0 := x', arg1 := y' } = .next t1' ∧
      exec (.plot c u) { t1' with arg0 := x, arg1 := y } = .next t2' ∧
      ∀ a, t2.disp.byteAt a = t2'.disp.byteAt a

/-- 60_exceptions.md rules R133, R134, 20_memory.md rule R51: a PLOT whose transaction number `k` (0 to 4)
times out completes HW_TIMEOUT with FAULT set, issues nothing after it, leaves every other byte, the
cursor and the operands alone, and its own byte as it was or, if it was the WR, possibly written. -/
def Obligations.PlotTimesOutPrecisely : Prop :=
  ∀ (c : Color) (u : BitVec 1) (s : State) (k : Nat) (rest : List Answer), s.noReset = true →
    s.fault = false → s.disp.dram.wf = true → onScreen s.arg0.toInt s.arg1.toInt = true → k < 5 →
    s.answers = List.replicate k .ok ++ .timeout :: rest →
    ∃ t new, exec (.plot c u) s = .next t ∧ completedWith .hwTimeout t ∧ t.fault = true ∧
      sameOperands s t ∧ sameCursor s t ∧ busyWrOnlySet s t ∧ issued s t new ∧ new.length = k + 1 ∧
      t.answers = rest ∧
      (let a := locate s.arg0.toInt s.arg1.toInt;
       (∀ a', a' ≠ a → t.disp.byteAt a' = s.disp.byteAt a') ∧
       (t.disp.byteAt a = s.disp.byteAt a ∨
         k = 4 ∧ t.disp.byteAt a = update (s.disp.byteAt a) (bitIndex s.arg1.toInt) c))

/-! ### RECT and FILL -/

/-- 42_shapes.md rules R96, R97: an undisturbed RECT completes OK and sets exactly the on-screen pixels of
the outline between its normalised corners, whatever their order and wherever they lie. -/
def Obligations.RectDrawsTheOutline : Prop :=
  ∀ (c : Color) (u : BitVec 1) (s : State), s.undisturbed → s.fault = false → s.disp.dram.wf = true →
    ∃ t, exec (.rect c u) s = .next t ∧ completedKeeping .ok s t ∧ sameCursor s t ∧
      ∀ x y, onScreen x y = true →
        (onOutline s.arg0.toInt s.arg1.toInt s.arg2.toInt s.arg3.toInt x y → t.pixel x y = c) ∧
        (¬onOutline s.arg0.toInt s.arg1.toInt s.arg2.toInt s.arg3.toInt x y → t.pixel x y = s.pixel x y)

/-- 42_shapes.md rules R94, R96: swapping the corners' x, or their y, changes neither the display nor the
transaction trace, in any run, resets and TIMEOUTs included. -/
def Obligations.RectCornersMayBeSwapped : Prop :=
  ∀ (c : Color) (u : BitVec 1) (s : State),
    ∃ t tx ty, exec (.rect c u) s = .next t ∧
      exec (.rect c u) { s with arg0 := s.arg2, arg2 := s.arg0 } = .next tx ∧
      exec (.rect c u) { s with arg1 := s.arg3, arg3 := s.arg1 } = .next ty ∧
      tx.disp = t.disp ∧ tx.trace = t.trace ∧ tx.result = t.result ∧
      ty.disp = t.disp ∧ ty.trace = t.trace ∧ ty.result = t.result

/-- 42_shapes.md rules R98, R100: an undisturbed FILL completes OK, leaves every display byte 0xFF or 0x00,
whatever it held, by exactly the 2048 transactions of the fill walk, and changes neither the cursor nor an
output latch. -/
def Obligations.FillWritesEveryByte : Prop :=
  ∀ (c : Color) (u : BitVec 1) (s : State), s.undisturbed → s.fault = false → s.disp.dram.wf = true →
    ∃ t, exec (.fill c u) s = .next t ∧ completedKeeping .ok s t ∧ sameCursor s t ∧
      (∀ a, t.disp.byteAt a = if c = .foreground then 0xFF#8 else 0x00#8) ∧
      (∀ sd, (t.disp.chip sd).latch = (s.disp.chip sd).latch) ∧
      issued s t ((List.range 1024).flatMap fun n =>
        let sd := if n < 512 then Side.left else Side.right;
        [(.sel sd (BitVec.ofNat 3 (n / 64 % 8)) (BitVec.ofNat 6 (n % 64)), .ok),
         (.wr sd (if c = .foreground then 0xFF#8 else 0x00#8), .ok)])

/-- 42_shapes.md rule R99: a FILL whose transaction number `n` times out completes HW_TIMEOUT; the bytes
before it in the walk (side, page, column) hold the fill value, the bytes after it are unchanged, and the
byte it was about holds either, the fill value only if it was the WR. -/
def Obligations.FillTimesOutPrecisely : Prop :=
  ∀ (c : Color) (u : BitVec 1) (s : State) (n : Nat) (rest : List Answer), s.noReset = true →
    s.fault = false → s.disp.dram.wf = true → n < 2048 →
    s.answers = List.replicate n .ok ++ .timeout :: rest →
    ∃ t, exec (.fill c u) s = .next t ∧ completedWith .hwTimeout t ∧ t.fault = true ∧ sameOperands s t ∧
      sameCursor s t ∧ t.trace.length = s.trace.length + n + 1 ∧
      ∀ a : Address, let j := 512 * (if a.side = .left then 0 else 1) + 64 * a.page.toNat + a.column.toNat;
        let v := if c = .foreground then 0xFF#8 else 0x00#8;
        (j < n / 2 → t.disp.byteAt a = v) ∧ (n / 2 < j → t.disp.byteAt a = s.disp.byteAt a) ∧
        (j = n / 2 → t.disp.byteAt a = s.disp.byteAt a ∨ n % 2 = 1 ∧ t.disp.byteAt a = v)

/-! ### CIRCLE -/

/-- 43_circle.md rules R101, R102, R103: an undisturbed CIRCLE completes OK and sets exactly the on-screen
points that the midpoint recurrence reaches; every other pixel keeps its value. -/
def Obligations.CircleDrawsTheMidpointPoints : Prop :=
  ∀ (c : Color) (u : BitVec 1) (s : State), s.undisturbed → s.fault = false → s.disp.dram.wf = true →
    ∃ t, exec (.circle c u) s = .next t ∧ completedKeeping .ok s t ∧ sameCursor s t ∧
      ∀ x y, onScreen x y = true →
        (onCircle s.arg0.toInt s.arg1.toInt s.arg2.toNat x y → t.pixel x y = c) ∧
        (¬onCircle s.arg0.toInt s.arg1.toInt s.arg2.toNat x y → t.pixel x y = s.pixel x y)

/-- 43_circle.md rule R104: each iteration adds 1 to x and never adds to y, y stays at most r, and the loop
has ended (x > y) after at most r + 1 iterations: allowing the machine's loop more plots nothing more, so
its bound never cuts it short. -/
def Obligations.CircleLoopEnds : Prop :=
  ∀ r : Nat, (∀ (xc yc : Int) (k : Nat), circleLoop xc yc (r + 1 + k) 0 r (1 - r) = circlePoints xc yc r) ∧
    (∀ n, (midpointXYD r n).1 = n ∧ (midpointXYD r (n + 1)).2.1 ≤ (midpointXYD r n).2.1 ∧
    (midpointXYD r n).2.1 ≤ r) ∧ (midpointXYD r (r + 1)).2.1 < (midpointXYD r (r + 1)).1

/-- 43_circle.md rules R102, R106: the points of a circle are symmetric under the eight reflections about
its centre. -/
def Obligations.CirclePointsAreSymmetric : Prop :=
  ∀ (xc yc : Int) (r : Nat) (dx dy : Int), (xc + dx, yc + dy) ∈ circlePoints xc yc r →
    (xc - dx, yc + dy) ∈ circlePoints xc yc r ∧ (xc + dx, yc - dy) ∈ circlePoints xc yc r ∧
    (xc + dy, yc + dx) ∈ circlePoints xc yc r

/-- 43_circle.md rule R105: radius 0 plots the centre eight times, in one iteration that takes d from 1 to
6 and ends the loop at x = 1, y = -1; radius 1 does not plot the centre. -/
def Obligations.SmallCircles : Prop :=
  ∀ xc yc : Int, circlePoints xc yc 0 = List.replicate 8 (xc, yc) ∧ midpointXYD 0 0 = (0, 0, 1) ∧
    midpointXYD 0 1 = (1, -1, 6) ∧ (xc, yc) ∉ circlePoints xc yc 1

/-! ### Text -/

/-- 44_text.md rules R107, R108, R110, R117: an undisturbed CHAR8 completes OK, writes the glyph's bytes
(complemented for BACKGROUND: rule R116, ASSUMED, log 13) at the page that holds CURY from column CURX on,
skips what is off the screen, changes no other byte and no output latch, issues one SEL and one WR for each visible column, and advances
CURX. -/
def Obligations.Char8WritesItsColumns : Prop :=
  ∀ (c : Color) (u : BitVec 1) (s : State), s.undisturbed → s.fault = false → s.disp.dram.wf = true →
    ∃ t, exec (.char8 c u) s = .next t ∧ completedKeeping .ok s t ∧ t.cury = s.cury ∧
      t.curx.toNat = min (s.curx.toNat + 8 + Config.gap8) 0xFFFF ∧
      (∀ i : Fin 8, onScreen (s.curx.toNat + i) s.cury.toNat = true →
        t.disp.byteAt (locate (s.curx.toNat + i) s.cury.toNat) =
          (if c = .foreground then Config.font8 (s.arg0.extractLsb' 0 8) i
           else ~~~(Config.font8 (s.arg0.extractLsb' 0 8) i))) ∧
      (∀ a, (∀ i : Fin 8, onScreen (s.curx.toNat + i) s.cury.toNat = true →
        a ≠ locate (s.curx.toNat + i) s.cury.toNat) → t.disp.byteAt a = s.disp.byteAt a) ∧
      (∀ sd, (t.disp.chip sd).latch = (s.disp.chip sd).latch) ∧
      issued s t (([0, 1, 2, 3, 4, 5, 6, 7] : List (Fin 8)).flatMap fun (i : Fin 8) =>
        let a := locate (s.curx.toNat + i) s.cury.toNat;
        if onScreen (s.curx.toNat + i) s.cury.toNat = true then
          [(.sel a.side a.page a.column, .ok),
           (.wr a.side (if c = .foreground then Config.font8 (s.arg0.extractLsb' 0 8) i
             else ~~~(Config.font8 (s.arg0.extractLsb' 0 8) i)), .ok)]
        else [])

/-- 44_text.md rules R107, R109, R111, R118: an undisturbed CHAR3 completes OK, sets exactly the on-screen
pixels whose mask bit is 1, keeps every other pixel, and advances CURX. -/
def Obligations.Char3PlotsItsMask : Prop :=
  ∀ (c : Color) (u : BitVec 1) (s : State), s.undisturbed → s.fault = false → s.disp.dram.wf = true →
    ∃ t, exec (.char3 c u) s = .next t ∧ completedKeeping .ok s t ∧ t.cury = s.cury ∧
      t.curx.toNat = min (s.curx.toNat + 3 + Config.gap3) 0xFFFF ∧
      ∀ x y, onScreen x y = true →
        ((∃ (i : Fin 3) (j : Fin 6), (Config.font3 (s.arg0.extractLsb' 0 8) i).getLsbD j = true ∧
          x = s.curx.toNat + i ∧ y = s.cury.toNat + j) → t.pixel x y = c) ∧
        ((¬∃ (i : Fin 3) (j : Fin 6), (Config.font3 (s.arg0.extractLsb' 0 8) i).getLsbD j = true ∧
          x = s.curx.toNat + i ∧ y = s.cury.toNat + j) → t.pixel x y = s.pixel x y)

/-- 44_text.md rules R107, R112: an undisturbed STRING of at most 64 characters completes OK and is its
glyphs in order: none changes nothing, and a STRING of `n + 1` leaves the bytes and the cursor that a
STRING of `n` followed by the single-glyph command for character `n` leaves. -/
def Obligations.StringIsItsGlyphsInOrder : Prop :=
  ∀ (c : Color) (f : Font) (s : State), s.undisturbed → s.fault = false → s.arg0.toNat ≤ 64 →
    ∃ t, exec (.string c f) s = .next t ∧ completedKeeping .ok s t ∧ t.cury = s.cury ∧
      t.curx = curxAfter f s.arg0.toNat s.curx ∧
      (s.arg0 = 0 → t.disp = s.disp ∧ t.trace = s.trace) ∧
      (∀ n, s.arg0.toNat = n + 1 → ∃ t1 t2, exec (.string c f) { s with arg0 := BitVec.ofNat 16 n } = .next t1 ∧
        exec (glyphCommand f c) { t1 with arg0 := (s.charAt n).setWidth 16 } = .next t2 ∧
        t2.curx = t.curx ∧ ∀ a, t2.disp.byteAt a = t.disp.byteAt a)

/-- 44_text.md rule R112, 60_exceptions.md rule R134: in any run of a STRING without a reset, CURX has
advanced by a whole number of glyphs: by its whole length if it completes OK, by none if it is refused or
too long. If it times out, CURX has advanced by the glyphs before the one that timed out, number `n` from 0:
with the same answers the STRING of `n` characters completes OK with that CURX, and the STRING of `n + 1`
times out as this one did, with the same CURX, transactions and display. -/
def Obligations.StringCountsWholeGlyphs : Prop :=
  ∀ (c : Color) (f : Font) (s : State), s.noReset = true →
    ∃ t n, exec (.string c f) s = .next t ∧ t.curx = curxAfter f n s.curx ∧ n ≤ s.arg0.toNat ∧
      (t.result = .ok → n = s.arg0.toNat) ∧ (t.result = .badCommand ∨ t.result = .refused → n = 0) ∧
      (t.result = .hwTimeout → n < s.arg0.toNat ∧ ∃ t1 t2,
        exec (.string c f) { s with arg0 := BitVec.ofNat 16 n } = .next t1 ∧ t1.result = .ok ∧
        t1.curx = t.curx ∧
        exec (.string c f) { s with arg0 := BitVec.ofNat 16 (n + 1) } = .next t2 ∧
        t2.result = .hwTimeout ∧ t2.curx = t.curx ∧ t2.trace = t.trace ∧ t2.disp = t.disp)

/-- 44_text.md rules R110, R111, 60_exceptions.md rule R134: a single glyph that times out does not move the
cursor. -/
def Obligations.TimedOutGlyphKeepsTheCursor : Prop :=
  ∀ (f : Font) (c : Color) (s : State), s.noReset = true → ∃ t, exec (glyphCommand f c) s = .next t ∧
    (t.result = .hwTimeout → sameCursor s t)

/-- 45_control.md rule R129, 70_reset_and_hazards.md rule R157: no command issues more transactions than its
bound, in any run. -/
def Obligations.TransactionBounds : Prop :=
  ∀ (i : Instr) (s : State), ∃ t new, exec i s = .next t ∧ issued s t new ∧
    new.length ≤ match i with
      | .nop _ => 0
      | .init _ => 0
      | .plot _ _ => 5
      | .rect _ _ => 1920
      | .fill _ _ => 2048
      | .circle _ _ => 40 * (s.arg2.toNat + 1)
      | .char8 _ _ => 16
      | .char3 _ _ => 90
      | .string _ f => (match f with | .f8x8 => 16 | .f3x6 => 90) * s.arg0.toNat
      | .setcur _ => 0
end

