-- ==== Sys2Proof/Laws/Memory.lean ====
section
/-! SUPPORT. The laws of the display memory: read after write, and that a write keeps the canonical
form. -/

namespace Sys2Proof.Machine

/-- A write leaves every other byte alone, in any list. -/
theorem Memory.read_write_other (m : Memory) {a b : Nat} (v : Byte) (h : b ≠ a) :
    (m.write a v).read b = m.read b := by
  induction m with
  | nil => unfold Memory.write; split <;> simp [Memory.read, h]
  | cons c m ih =>
    obtain ⟨d, w⟩ := c
    simp only [Memory.write]
    split
    · split <;> simp [Memory.read, h]
    · split
      · next had => subst had; split <;> simp [Memory.read, h]
      · simp [Memory.read, ih]

/-- Below `lo` nothing is listed. -/
theorem Memory.read_of_sortedFrom {m : Memory} {lo a : Nat} (h : m.sortedFrom lo = true) (ha : a < lo) :
    m.read a = Config.powerOnByte := by
  induction m generalizing lo with
  | nil => rfl
  | cons c m ih =>
    obtain ⟨d, w⟩ := c
    simp only [Memory.sortedFrom, Bool.and_eq_true, decide_eq_true_eq] at h
    have hne : a ≠ d := by omega
    simp only [Memory.read, hne, if_false]
    exact ih h.2 (by omega)

/-- A canonical list may be read as rising from any lower bound. -/
theorem Memory.sortedFrom_mono {m : Memory} {lo lo' : Nat} (h : m.sortedFrom lo = true) (hl : lo' ≤ lo) :
    m.sortedFrom lo' = true := by
  cases m with
  | nil => rfl
  | cons c m =>
    obtain ⟨d, w⟩ := c
    simp only [Memory.sortedFrom, Bool.and_eq_true, decide_eq_true_eq] at h ⊢
    exact ⟨⟨⟨by omega, h.1.1.2⟩, h.1.2⟩, h.2⟩

/-- In the canonical form a byte reads as it was written. -/
theorem Memory.read_write_same {m : Memory} {lo : Nat} (h : m.sortedFrom lo = true) (a : Nat) (v : Byte) :
    (m.write a v).read a = v := by
  induction m generalizing lo with
  | nil => unfold Memory.write; split <;> simp [Memory.read, *]
  | cons c m ih =>
    obtain ⟨d, w⟩ := c
    have hc := h
    simp only [Memory.sortedFrom, Bool.and_eq_true, decide_eq_true_eq] at h
    simp only [Memory.write]
    split
    · next had =>
      split
      · next hv =>
        have hne : a ≠ d := by omega
        simp only [Memory.read, hne, if_false]
        rw [hv, Memory.read_of_sortedFrom h.2 (by omega)]
      · simp [Memory.read]
    · split
      · next had =>
        subst had
        split
        · next hv => rw [hv, Memory.read_of_sortedFrom h.2 (by omega)]
        · simp [Memory.read]
      · next had =>
        simp only [Memory.read, had, if_false]
        exact ih h.2

/-- A write keeps the canonical form. -/
theorem Memory.write_sortedFrom {m : Memory} {lo a : Nat} (h : m.sortedFrom lo = true) (hlo : lo ≤ a)
    (ha : a < Config.dramBytes) (v : Byte) : (m.write a v).sortedFrom lo = true := by
  induction m generalizing lo with
  | nil =>
    unfold Memory.write
    split
    · rfl
    · next hv => simp only [Memory.sortedFrom]; simp [hlo, ha, hv]
  | cons c m ih =>
    obtain ⟨d, w⟩ := c
    have hc := h
    simp only [Memory.sortedFrom, Bool.and_eq_true, decide_eq_true_eq] at h
    simp only [Memory.write]
    split
    · next had =>
      split
      · exact hc
      · next hv =>
        simp only [Memory.sortedFrom, Bool.and_eq_true, decide_eq_true_eq]
        exact ⟨⟨⟨hlo, ha⟩, hv⟩, ⟨⟨by omega, h.1.1.2⟩, h.1.2⟩, h.2⟩
    · split
      · next had =>
        subst had
        split
        · exact Memory.sortedFrom_mono h.2 (by omega)
        · next hv =>
          simp only [Memory.sortedFrom, Bool.and_eq_true, decide_eq_true_eq]
          exact ⟨⟨⟨hlo, ha⟩, hv⟩, h.2⟩
      · next had1 had2 =>
        simp only [Memory.sortedFrom, Bool.and_eq_true, decide_eq_true_eq]
        exact ⟨⟨⟨h.1.1.1, h.1.1.2⟩, h.1.2⟩, ih h.2 (by omega)⟩

theorem Memory.write_wf {m : Memory} {a : Nat} (h : m.wf = true) (ha : a < Config.dramBytes) (v : Byte) :
    (m.write a v).wf = true := Memory.write_sortedFrom h (Nat.zero_le a) ha v

theorem Memory.read_write {m : Memory} (h : m.wf = true) (a b : Nat) (v : Byte) :
    (m.write a v).read b = if b = a then v else m.read b := by
  split
  · next hab => rw [hab]; exact Memory.read_write_same h a v
  · next hab => exact Memory.read_write_other m v hab

end Sys2Proof.Machine
end

