-- ==== Sys2Proof/Laws/State.lean ====
section
/-! SUPPORT. One lemma per field per named update of the state, so that no proof unfolds an update. -/

namespace Sys2Proof.Machine

/-! #### `dropWrite` -/

@[simp] theorem dropWrite_cmd (s : State) : (dropWrite s).cmd = s.cmd := rfl
@[simp] theorem dropWrite_busy (s : State) : (dropWrite s).busy = s.busy := rfl
@[simp] theorem dropWrite_result (s : State) : (dropWrite s).result = s.result := rfl
@[simp] theorem dropWrite_fault (s : State) : (dropWrite s).fault = s.fault := rfl
@[simp] theorem dropWrite_busyWr (s : State) : (dropWrite s).busyWr = true := rfl
@[simp] theorem dropWrite_arg0 (s : State) : (dropWrite s).arg0 = s.arg0 := rfl
@[simp] theorem dropWrite_arg1 (s : State) : (dropWrite s).arg1 = s.arg1 := rfl
@[simp] theorem dropWrite_arg2 (s : State) : (dropWrite s).arg2 = s.arg2 := rfl
@[simp] theorem dropWrite_arg3 (s : State) : (dropWrite s).arg3 = s.arg3 := rfl
@[simp] theorem dropWrite_curx (s : State) : (dropWrite s).curx = s.curx := rfl
@[simp] theorem dropWrite_cury (s : State) : (dropWrite s).cury = s.cury := rfl
@[simp] theorem dropWrite_charbuf (s : State) : (dropWrite s).charbuf = s.charbuf := rfl
@[simp] theorem dropWrite_seq (s : State) : (dropWrite s).seq = s.seq := rfl
@[simp] theorem dropWrite_work (s : State) : (dropWrite s).work = s.work := rfl
@[simp] theorem dropWrite_disp (s : State) : (dropWrite s).disp = s.disp := rfl
@[simp] theorem dropWrite_host (s : State) : (dropWrite s).host = s.host := rfl
@[simp] theorem dropWrite_answers (s : State) : (dropWrite s).answers = s.answers := rfl
@[simp] theorem dropWrite_reads (s : State) : (dropWrite s).reads = s.reads := rfl
@[simp] theorem dropWrite_trace (s : State) : (dropWrite s).trace = s.trace := rfl
@[simp] theorem dropWrite_draws (s : State) : (dropWrite s).draws = s.draws := rfl

/-! #### `finish` -/

@[simp] theorem finish_cmd (c : Result) (s : State) : (finish c s).cmd = s.cmd := rfl
@[simp] theorem finish_busy (c : Result) (s : State) : (finish c s).busy = false := rfl
@[simp] theorem finish_result (c : Result) (s : State) : (finish c s).result = c := rfl
@[simp] theorem finish_fault (c : Result) (s : State) : (finish c s).fault = s.fault := rfl
@[simp] theorem finish_busyWr (c : Result) (s : State) : (finish c s).busyWr = s.busyWr := rfl
@[simp] theorem finish_arg0 (c : Result) (s : State) : (finish c s).arg0 = s.arg0 := rfl
@[simp] theorem finish_arg1 (c : Result) (s : State) : (finish c s).arg1 = s.arg1 := rfl
@[simp] theorem finish_arg2 (c : Result) (s : State) : (finish c s).arg2 = s.arg2 := rfl
@[simp] theorem finish_arg3 (c : Result) (s : State) : (finish c s).arg3 = s.arg3 := rfl
@[simp] theorem finish_curx (c : Result) (s : State) : (finish c s).curx = s.curx := rfl
@[simp] theorem finish_cury (c : Result) (s : State) : (finish c s).cury = s.cury := rfl
@[simp] theorem finish_charbuf (c : Result) (s : State) : (finish c s).charbuf = s.charbuf := rfl
@[simp] theorem finish_seq (c : Result) (s : State) : (finish c s).seq = .idle := rfl
@[simp] theorem finish_work (c : Result) (s : State) : (finish c s).work = Config.freeWork s.draws := rfl
@[simp] theorem finish_disp (c : Result) (s : State) : (finish c s).disp = s.disp := rfl
@[simp] theorem finish_host (c : Result) (s : State) : (finish c s).host = s.host := rfl
@[simp] theorem finish_answers (c : Result) (s : State) : (finish c s).answers = s.answers := rfl
@[simp] theorem finish_reads (c : Result) (s : State) : (finish c s).reads = s.reads := rfl
@[simp] theorem finish_trace (c : Result) (s : State) : (finish c s).trace = s.trace := rfl
@[simp] theorem finish_draws (c : Result) (s : State) : (finish c s).draws = s.draws + 1 := rfl

/-! #### `acknowledge` -/

@[simp] theorem acknowledge_cmd (s : State) : (acknowledge s).cmd = s.cmd := rfl
@[simp] theorem acknowledge_busy (s : State) : (acknowledge s).busy = s.busy := rfl
@[simp] theorem acknowledge_result (s : State) : (acknowledge s).result = s.result := rfl
@[simp] theorem acknowledge_fault (s : State) : (acknowledge s).fault = false := rfl
@[simp] theorem acknowledge_busyWr (s : State) : (acknowledge s).busyWr = false := rfl
@[simp] theorem acknowledge_arg0 (s : State) : (acknowledge s).arg0 = s.arg0 := rfl
@[simp] theorem acknowledge_arg1 (s : State) : (acknowledge s).arg1 = s.arg1 := rfl
@[simp] theorem acknowledge_arg2 (s : State) : (acknowledge s).arg2 = s.arg2 := rfl
@[simp] theorem acknowledge_arg3 (s : State) : (acknowledge s).arg3 = s.arg3 := rfl
@[simp] theorem acknowledge_curx (s : State) : (acknowledge s).curx = s.curx := rfl
@[simp] theorem acknowledge_cury (s : State) : (acknowledge s).cury = s.cury := rfl
@[simp] theorem acknowledge_charbuf (s : State) : (acknowledge s).charbuf = s.charbuf := rfl
@[simp] theorem acknowledge_seq (s : State) : (acknowledge s).seq = s.seq := rfl
@[simp] theorem acknowledge_work (s : State) : (acknowledge s).work = s.work := rfl
@[simp] theorem acknowledge_disp (s : State) : (acknowledge s).disp = s.disp := rfl
@[simp] theorem acknowledge_host (s : State) : (acknowledge s).host = s.host := rfl
@[simp] theorem acknowledge_answers (s : State) : (acknowledge s).answers = s.answers := rfl
@[simp] theorem acknowledge_reads (s : State) : (acknowledge s).reads = s.reads := rfl
@[simp] theorem acknowledge_trace (s : State) : (acknowledge s).trace = s.trace := rfl
@[simp] theorem acknowledge_draws (s : State) : (acknowledge s).draws = s.draws := rfl

/-! #### `homeCursor` -/

@[simp] theorem homeCursor_cmd (s : State) : (homeCursor s).cmd = s.cmd := rfl
@[simp] theorem homeCursor_busy (s : State) : (homeCursor s).busy = s.busy := rfl
@[simp] theorem homeCursor_result (s : State) : (homeCursor s).result = s.result := rfl
@[simp] theorem homeCursor_fault (s : State) : (homeCursor s).fault = s.fault := rfl
@[simp] theorem homeCursor_busyWr (s : State) : (homeCursor s).busyWr = s.busyWr := rfl
@[simp] theorem homeCursor_arg0 (s : State) : (homeCursor s).arg0 = s.arg0 := rfl
@[simp] theorem homeCursor_arg1 (s : State) : (homeCursor s).arg1 = s.arg1 := rfl
@[simp] theorem homeCursor_arg2 (s : State) : (homeCursor s).arg2 = s.arg2 := rfl
@[simp] theorem homeCursor_arg3 (s : State) : (homeCursor s).arg3 = s.arg3 := rfl
@[simp] theorem homeCursor_curx (s : State) : (homeCursor s).curx = 0 := rfl
@[simp] theorem homeCursor_cury (s : State) : (homeCursor s).cury = 0 := rfl
@[simp] theorem homeCursor_charbuf (s : State) : (homeCursor s).charbuf = s.charbuf := rfl
@[simp] theorem homeCursor_seq (s : State) : (homeCursor s).seq = s.seq := rfl
@[simp] theorem homeCursor_work (s : State) : (homeCursor s).work = s.work := rfl
@[simp] theorem homeCursor_disp (s : State) : (homeCursor s).disp = s.disp := rfl
@[simp] theorem homeCursor_host (s : State) : (homeCursor s).host = s.host := rfl
@[simp] theorem homeCursor_answers (s : State) : (homeCursor s).answers = s.answers := rfl
@[simp] theorem homeCursor_reads (s : State) : (homeCursor s).reads = s.reads := rfl
@[simp] theorem homeCursor_trace (s : State) : (homeCursor s).trace = s.trace := rfl
@[simp] theorem homeCursor_draws (s : State) : (homeCursor s).draws = s.draws := rfl

/-! #### `recordRead` -/

@[simp] theorem recordRead_cmd (off : BitVec 7) (s : State) : (recordRead off s).cmd = s.cmd := rfl
@[simp] theorem recordRead_busy (off : BitVec 7) (s : State) : (recordRead off s).busy = s.busy := rfl
@[simp] theorem recordRead_result (off : BitVec 7) (s : State) : (recordRead off s).result = s.result := rfl
@[simp] theorem recordRead_fault (off : BitVec 7) (s : State) : (recordRead off s).fault = s.fault := rfl
@[simp] theorem recordRead_busyWr (off : BitVec 7) (s : State) : (recordRead off s).busyWr = s.busyWr := rfl
@[simp] theorem recordRead_arg0 (off : BitVec 7) (s : State) : (recordRead off s).arg0 = s.arg0 := rfl
@[simp] theorem recordRead_arg1 (off : BitVec 7) (s : State) : (recordRead off s).arg1 = s.arg1 := rfl
@[simp] theorem recordRead_arg2 (off : BitVec 7) (s : State) : (recordRead off s).arg2 = s.arg2 := rfl
@[simp] theorem recordRead_arg3 (off : BitVec 7) (s : State) : (recordRead off s).arg3 = s.arg3 := rfl
@[simp] theorem recordRead_curx (off : BitVec 7) (s : State) : (recordRead off s).curx = s.curx := rfl
@[simp] theorem recordRead_cury (off : BitVec 7) (s : State) : (recordRead off s).cury = s.cury := rfl
@[simp] theorem recordRead_charbuf (off : BitVec 7) (s : State) : (recordRead off s).charbuf = s.charbuf := rfl
@[simp] theorem recordRead_seq (off : BitVec 7) (s : State) : (recordRead off s).seq = s.seq := rfl
@[simp] theorem recordRead_work (off : BitVec 7) (s : State) : (recordRead off s).work = s.work := rfl
@[simp] theorem recordRead_disp (off : BitVec 7) (s : State) : (recordRead off s).disp = s.disp := rfl
@[simp] theorem recordRead_host (off : BitVec 7) (s : State) : (recordRead off s).host = s.host := rfl
@[simp] theorem recordRead_answers (off : BitVec 7) (s : State) : (recordRead off s).answers = s.answers := rfl
@[simp] theorem recordRead_reads (off : BitVec 7) (s : State) : (recordRead off s).reads = hostRead off s :: s.reads := rfl
@[simp] theorem recordRead_trace (off : BitVec 7) (s : State) : (recordRead off s).trace = s.trace := rfl
@[simp] theorem recordRead_draws (off : BitVec 7) (s : State) : (recordRead off s).draws = s.draws := rfl

/-! #### `completed` -/

@[simp] theorem completed_cmd (t : Transaction) (q : SeqState) (s : State) : (completed t q s).cmd = s.cmd := rfl
@[simp] theorem completed_busy (t : Transaction) (q : SeqState) (s : State) : (completed t q s).busy = s.busy := rfl
@[simp] theorem completed_result (t : Transaction) (q : SeqState) (s : State) : (completed t q s).result = s.result := rfl
@[simp] theorem completed_fault (t : Transaction) (q : SeqState) (s : State) : (completed t q s).fault = s.fault := rfl
@[simp] theorem completed_busyWr (t : Transaction) (q : SeqState) (s : State) : (completed t q s).busyWr = s.busyWr := rfl
@[simp] theorem completed_arg0 (t : Transaction) (q : SeqState) (s : State) : (completed t q s).arg0 = s.arg0 := rfl
@[simp] theorem completed_arg1 (t : Transaction) (q : SeqState) (s : State) : (completed t q s).arg1 = s.arg1 := rfl
@[simp] theorem completed_arg2 (t : Transaction) (q : SeqState) (s : State) : (completed t q s).arg2 = s.arg2 := rfl
@[simp] theorem completed_arg3 (t : Transaction) (q : SeqState) (s : State) : (completed t q s).arg3 = s.arg3 := rfl
@[simp] theorem completed_curx (t : Transaction) (q : SeqState) (s : State) : (completed t q s).curx = s.curx := rfl
@[simp] theorem completed_cury (t : Transaction) (q : SeqState) (s : State) : (completed t q s).cury = s.cury := rfl
@[simp] theorem completed_charbuf (t : Transaction) (q : SeqState) (s : State) : (completed t q s).charbuf = s.charbuf := rfl
@[simp] theorem completed_seq (t : Transaction) (q : SeqState) (s : State) : (completed t q s).seq = q := rfl
@[simp] theorem completed_disp (t : Transaction) (q : SeqState) (s : State) : (completed t q s).disp = s.disp.perform t := rfl
@[simp] theorem completed_host (t : Transaction) (q : SeqState) (s : State) : (completed t q s).host = s.host := rfl
@[simp] theorem completed_answers (t : Transaction) (q : SeqState) (s : State) : (completed t q s).answers = s.answers.tail := rfl
@[simp] theorem completed_reads (t : Transaction) (q : SeqState) (s : State) : (completed t q s).reads = s.reads := rfl
@[simp] theorem completed_trace (t : Transaction) (q : SeqState) (s : State) : (completed t q s).trace = (t, .ok) :: s.trace := rfl
@[simp] theorem completed_draws (t : Transaction) (q : SeqState) (s : State) : (completed t q s).draws = s.draws := rfl
@[simp] theorem completed_work_opcode (t : Transaction) (q : SeqState) (s : State) :
    (completed t q s).work.opcode = s.work.opcode := by
  unfold completed; split <;> rfl
@[simp] theorem completed_work_color (t : Transaction) (q : SeqState) (s : State) :
    (completed t q s).work.color = s.work.color := by
  unfold completed; split <;> rfl
@[simp] theorem completed_work_font (t : Transaction) (q : SeqState) (s : State) :
    (completed t q s).work.font = s.work.font := by
  unfold completed; split <;> rfl
@[simp] theorem completed_work_arg0 (t : Transaction) (q : SeqState) (s : State) :
    (completed t q s).work.arg0 = s.work.arg0 := by
  unfold completed; split <;> rfl
@[simp] theorem completed_work_arg1 (t : Transaction) (q : SeqState) (s : State) :
    (completed t q s).work.arg1 = s.work.arg1 := by
  unfold completed; split <;> rfl
@[simp] theorem completed_work_arg2 (t : Transaction) (q : SeqState) (s : State) :
    (completed t q s).work.arg2 = s.work.arg2 := by
  unfold completed; split <;> rfl
@[simp] theorem completed_work_arg3 (t : Transaction) (q : SeqState) (s : State) :
    (completed t q s).work.arg3 = s.work.arg3 := by
  unfold completed; split <;> rfl
@[simp] theorem completed_work_text (t : Transaction) (q : SeqState) (s : State) :
    (completed t q s).work.text = s.work.text := by
  unfold completed; split <;> rfl
@[simp] theorem completed_work_todo (t : Transaction) (q : SeqState) (s : State) :
    (completed t q s).work.todo = s.work.todo := by
  unfold completed; split <;> rfl

/-! #### `failed` -/

@[simp] theorem failed_cmd (t : Transaction) (s : State) : (failed t s).cmd = s.cmd := rfl
@[simp] theorem failed_busy (t : Transaction) (s : State) : (failed t s).busy = s.busy := rfl
@[simp] theorem failed_result (t : Transaction) (s : State) : (failed t s).result = s.result := rfl
@[simp] theorem failed_fault (t : Transaction) (s : State) : (failed t s).fault = s.fault := rfl
@[simp] theorem failed_busyWr (t : Transaction) (s : State) : (failed t s).busyWr = s.busyWr := rfl
@[simp] theorem failed_arg0 (t : Transaction) (s : State) : (failed t s).arg0 = s.arg0 := rfl
@[simp] theorem failed_arg1 (t : Transaction) (s : State) : (failed t s).arg1 = s.arg1 := rfl
@[simp] theorem failed_arg2 (t : Transaction) (s : State) : (failed t s).arg2 = s.arg2 := rfl
@[simp] theorem failed_arg3 (t : Transaction) (s : State) : (failed t s).arg3 = s.arg3 := rfl
@[simp] theorem failed_curx (t : Transaction) (s : State) : (failed t s).curx = s.curx := rfl
@[simp] theorem failed_cury (t : Transaction) (s : State) : (failed t s).cury = s.cury := rfl
@[simp] theorem failed_charbuf (t : Transaction) (s : State) : (failed t s).charbuf = s.charbuf := rfl
@[simp] theorem failed_seq (t : Transaction) (s : State) : (failed t s).seq = s.seq := rfl
@[simp] theorem failed_work (t : Transaction) (s : State) : (failed t s).work = s.work := rfl
@[simp] theorem failed_disp (t : Transaction) (s : State) : (failed t s).disp = s.disp.timeOut t s.draws := rfl
@[simp] theorem failed_host (t : Transaction) (s : State) : (failed t s).host = s.host := rfl
@[simp] theorem failed_answers (t : Transaction) (s : State) : (failed t s).answers = s.answers := rfl
@[simp] theorem failed_reads (t : Transaction) (s : State) : (failed t s).reads = s.reads := rfl
@[simp] theorem failed_trace (t : Transaction) (s : State) : (failed t s).trace = (t, .timeout) :: s.trace := rfl
@[simp] theorem failed_draws (t : Transaction) (s : State) : (failed t s).draws = s.draws + 1 := rfl

/-! #### `setTodo` -/

@[simp] theorem setTodo_cmd (ts : List Task) (s : State) : (setTodo ts s).cmd = s.cmd := rfl
@[simp] theorem setTodo_busy (ts : List Task) (s : State) : (setTodo ts s).busy = s.busy := rfl
@[simp] theorem setTodo_result (ts : List Task) (s : State) : (setTodo ts s).result = s.result := rfl
@[simp] theorem setTodo_fault (ts : List Task) (s : State) : (setTodo ts s).fault = s.fault := rfl
@[simp] theorem setTodo_busyWr (ts : List Task) (s : State) : (setTodo ts s).busyWr = s.busyWr := rfl
@[simp] theorem setTodo_arg0 (ts : List Task) (s : State) : (setTodo ts s).arg0 = s.arg0 := rfl
@[simp] theorem setTodo_arg1 (ts : List Task) (s : State) : (setTodo ts s).arg1 = s.arg1 := rfl
@[simp] theorem setTodo_arg2 (ts : List Task) (s : State) : (setTodo ts s).arg2 = s.arg2 := rfl
@[simp] theorem setTodo_arg3 (ts : List Task) (s : State) : (setTodo ts s).arg3 = s.arg3 := rfl
@[simp] theorem setTodo_curx (ts : List Task) (s : State) : (setTodo ts s).curx = s.curx := rfl
@[simp] theorem setTodo_cury (ts : List Task) (s : State) : (setTodo ts s).cury = s.cury := rfl
@[simp] theorem setTodo_charbuf (ts : List Task) (s : State) : (setTodo ts s).charbuf = s.charbuf := rfl
@[simp] theorem setTodo_seq (ts : List Task) (s : State) : (setTodo ts s).seq = s.seq := rfl
@[simp] theorem setTodo_disp (ts : List Task) (s : State) : (setTodo ts s).disp = s.disp := rfl
@[simp] theorem setTodo_host (ts : List Task) (s : State) : (setTodo ts s).host = s.host := rfl
@[simp] theorem setTodo_answers (ts : List Task) (s : State) : (setTodo ts s).answers = s.answers := rfl
@[simp] theorem setTodo_reads (ts : List Task) (s : State) : (setTodo ts s).reads = s.reads := rfl
@[simp] theorem setTodo_trace (ts : List Task) (s : State) : (setTodo ts s).trace = s.trace := rfl
@[simp] theorem setTodo_draws (ts : List Task) (s : State) : (setTodo ts s).draws = s.draws := rfl
@[simp] theorem setTodo_work_opcode (ts : List Task) (s : State) : (setTodo ts s).work.opcode = s.work.opcode := rfl
@[simp] theorem setTodo_work_color (ts : List Task) (s : State) : (setTodo ts s).work.color = s.work.color := rfl
@[simp] theorem setTodo_work_font (ts : List Task) (s : State) : (setTodo ts s).work.font = s.work.font := rfl
@[simp] theorem setTodo_work_arg0 (ts : List Task) (s : State) : (setTodo ts s).work.arg0 = s.work.arg0 := rfl
@[simp] theorem setTodo_work_arg1 (ts : List Task) (s : State) : (setTodo ts s).work.arg1 = s.work.arg1 := rfl
@[simp] theorem setTodo_work_arg2 (ts : List Task) (s : State) : (setTodo ts s).work.arg2 = s.work.arg2 := rfl
@[simp] theorem setTodo_work_arg3 (ts : List Task) (s : State) : (setTodo ts s).work.arg3 = s.work.arg3 := rfl
@[simp] theorem setTodo_work_text (ts : List Task) (s : State) : (setTodo ts s).work.text = s.work.text := rfl
@[simp] theorem setTodo_work_byte (ts : List Task) (s : State) : (setTodo ts s).work.byte = s.work.byte := rfl
@[simp] theorem setTodo_work_todo (ts : List Task) (s : State) : (setTodo ts s).work.todo = ts := rfl

/-! #### `advance` -/

@[simp] theorem advance_cmd (f : Font) (s : State) : (advance f s).cmd = s.cmd := rfl
@[simp] theorem advance_busy (f : Font) (s : State) : (advance f s).busy = s.busy := rfl
@[simp] theorem advance_result (f : Font) (s : State) : (advance f s).result = s.result := rfl
@[simp] theorem advance_fault (f : Font) (s : State) : (advance f s).fault = s.fault := rfl
@[simp] theorem advance_busyWr (f : Font) (s : State) : (advance f s).busyWr = s.busyWr := rfl
@[simp] theorem advance_arg0 (f : Font) (s : State) : (advance f s).arg0 = s.arg0 := rfl
@[simp] theorem advance_arg1 (f : Font) (s : State) : (advance f s).arg1 = s.arg1 := rfl
@[simp] theorem advance_arg2 (f : Font) (s : State) : (advance f s).arg2 = s.arg2 := rfl
@[simp] theorem advance_arg3 (f : Font) (s : State) : (advance f s).arg3 = s.arg3 := rfl
@[simp] theorem advance_curx (f : Font) (s : State) : (advance f s).curx = sat16 (s.curx.toNat + glyphStep f) := rfl
@[simp] theorem advance_cury (f : Font) (s : State) : (advance f s).cury = s.cury := rfl
@[simp] theorem advance_charbuf (f : Font) (s : State) : (advance f s).charbuf = s.charbuf := rfl
@[simp] theorem advance_seq (f : Font) (s : State) : (advance f s).seq = s.seq := rfl
@[simp] theorem advance_work (f : Font) (s : State) : (advance f s).work = s.work := rfl
@[simp] theorem advance_disp (f : Font) (s : State) : (advance f s).disp = s.disp := rfl
@[simp] theorem advance_host (f : Font) (s : State) : (advance f s).host = s.host := rfl
@[simp] theorem advance_answers (f : Font) (s : State) : (advance f s).answers = s.answers := rfl
@[simp] theorem advance_reads (f : Font) (s : State) : (advance f s).reads = s.reads := rfl
@[simp] theorem advance_trace (f : Font) (s : State) : (advance f s).trace = s.trace := rfl
@[simp] theorem advance_draws (f : Font) (s : State) : (advance f s).draws = s.draws := rfl

/-! #### `setCursor` -/

@[simp] theorem setCursor_cmd (s : State) : (setCursor s).cmd = s.cmd := rfl
@[simp] theorem setCursor_busy (s : State) : (setCursor s).busy = s.busy := rfl
@[simp] theorem setCursor_result (s : State) : (setCursor s).result = s.result := rfl
@[simp] theorem setCursor_fault (s : State) : (setCursor s).fault = s.fault := rfl
@[simp] theorem setCursor_busyWr (s : State) : (setCursor s).busyWr = s.busyWr := rfl
@[simp] theorem setCursor_arg0 (s : State) : (setCursor s).arg0 = s.arg0 := rfl
@[simp] theorem setCursor_arg1 (s : State) : (setCursor s).arg1 = s.arg1 := rfl
@[simp] theorem setCursor_arg2 (s : State) : (setCursor s).arg2 = s.arg2 := rfl
@[simp] theorem setCursor_arg3 (s : State) : (setCursor s).arg3 = s.arg3 := rfl
@[simp] theorem setCursor_curx (s : State) : (setCursor s).curx = s.work.arg0 := rfl
@[simp] theorem setCursor_cury (s : State) : (setCursor s).cury = s.work.arg1 := rfl
@[simp] theorem setCursor_charbuf (s : State) : (setCursor s).charbuf = s.charbuf := rfl
@[simp] theorem setCursor_seq (s : State) : (setCursor s).seq = s.seq := rfl
@[simp] theorem setCursor_work (s : State) : (setCursor s).work = s.work := rfl
@[simp] theorem setCursor_disp (s : State) : (setCursor s).disp = s.disp := rfl
@[simp] theorem setCursor_host (s : State) : (setCursor s).host = s.host := rfl
@[simp] theorem setCursor_answers (s : State) : (setCursor s).answers = s.answers := rfl
@[simp] theorem setCursor_reads (s : State) : (setCursor s).reads = s.reads := rfl
@[simp] theorem setCursor_trace (s : State) : (setCursor s).trace = s.trace := rfl
@[simp] theorem setCursor_draws (s : State) : (setCursor s).draws = s.draws := rfl

/-! #### `startWork` -/

@[simp] theorem startWork_cmd (i : Instr) (s : State) : (startWork i s).cmd = s.cmd := rfl
@[simp] theorem startWork_busy (i : Instr) (s : State) : (startWork i s).busy = true := rfl
@[simp] theorem startWork_result (i : Instr) (s : State) : (startWork i s).result = s.result := rfl
@[simp] theorem startWork_fault (i : Instr) (s : State) : (startWork i s).fault = s.fault := rfl
@[simp] theorem startWork_busyWr (i : Instr) (s : State) : (startWork i s).busyWr = s.busyWr := rfl
@[simp] theorem startWork_arg0 (i : Instr) (s : State) : (startWork i s).arg0 = s.arg0 := rfl
@[simp] theorem startWork_arg1 (i : Instr) (s : State) : (startWork i s).arg1 = s.arg1 := rfl
@[simp] theorem startWork_arg2 (i : Instr) (s : State) : (startWork i s).arg2 = s.arg2 := rfl
@[simp] theorem startWork_arg3 (i : Instr) (s : State) : (startWork i s).arg3 = s.arg3 := rfl
@[simp] theorem startWork_curx (i : Instr) (s : State) : (startWork i s).curx = s.curx := rfl
@[simp] theorem startWork_cury (i : Instr) (s : State) : (startWork i s).cury = s.cury := rfl
@[simp] theorem startWork_charbuf (i : Instr) (s : State) : (startWork i s).charbuf = s.charbuf := rfl
@[simp] theorem startWork_seq (i : Instr) (s : State) : (startWork i s).seq = s.seq := rfl
@[simp] theorem startWork_disp (i : Instr) (s : State) : (startWork i s).disp = s.disp := rfl
@[simp] theorem startWork_host (i : Instr) (s : State) : (startWork i s).host = s.host := rfl
@[simp] theorem startWork_answers (i : Instr) (s : State) : (startWork i s).answers = s.answers := rfl
@[simp] theorem startWork_reads (i : Instr) (s : State) : (startWork i s).reads = s.reads := rfl
@[simp] theorem startWork_trace (i : Instr) (s : State) : (startWork i s).trace = s.trace := rfl
@[simp] theorem startWork_draws (i : Instr) (s : State) : (startWork i s).draws = s.draws := rfl
@[simp] theorem startWork_work_color (i : Instr) (s : State) : (startWork i s).work.color = Color.ofBit (colorBit i) := rfl
@[simp] theorem startWork_work_font (i : Instr) (s : State) : (startWork i s).work.font = Font.ofBit (fontBit i) := rfl
@[simp] theorem startWork_work_opcode (i : Instr) (s : State) : (startWork i s).work.opcode = opcodeOf i := rfl
@[simp] theorem startWork_work_text (i : Instr) (s : State) : (startWork i s).work.text = s.charbuf := rfl
@[simp] theorem startWork_work_todo (i : Instr) (s : State) : (startWork i s).work.todo = [] := rfl
@[simp] theorem startWork_work_byte (i : Instr) (s : State) : (startWork i s).work.byte = s.work.byte := rfl
@[simp] theorem startWork_work_arg0 (i : Instr) (s : State) : (startWork i s).work.arg0 = s.arg0 := rfl
@[simp] theorem startWork_work_arg1 (i : Instr) (s : State) : (startWork i s).work.arg1 = s.arg1 := rfl
@[simp] theorem startWork_work_arg2 (i : Instr) (s : State) : (startWork i s).work.arg2 = s.arg2 := rfl
@[simp] theorem startWork_work_arg3 (i : Instr) (s : State) : (startWork i s).work.arg3 = s.arg3 := rfl

/-! #### `engineReset` -/

@[simp] theorem engineReset_cmd (s : State) : (engineReset s).cmd = 0 := rfl
@[simp] theorem engineReset_busy (s : State) : (engineReset s).busy = false := rfl
@[simp] theorem engineReset_result (s : State) : (engineReset s).result = .ok := rfl
@[simp] theorem engineReset_fault (s : State) : (engineReset s).fault = false := rfl
@[simp] theorem engineReset_busyWr (s : State) : (engineReset s).busyWr = false := rfl
@[simp] theorem engineReset_arg0 (s : State) : (engineReset s).arg0 = 0 := rfl
@[simp] theorem engineReset_arg1 (s : State) : (engineReset s).arg1 = 0 := rfl
@[simp] theorem engineReset_arg2 (s : State) : (engineReset s).arg2 = 0 := rfl
@[simp] theorem engineReset_arg3 (s : State) : (engineReset s).arg3 = 0 := rfl
@[simp] theorem engineReset_curx (s : State) : (engineReset s).curx = 0 := rfl
@[simp] theorem engineReset_cury (s : State) : (engineReset s).cury = 0 := rfl
@[simp] theorem engineReset_charbuf (s : State) : (engineReset s).charbuf = Config.freeCharbuf s.draws := rfl
@[simp] theorem engineReset_seq (s : State) : (engineReset s).seq = .idle := rfl
@[simp] theorem engineReset_work (s : State) : (engineReset s).work = Config.freeWork s.draws := rfl
@[simp] theorem engineReset_disp (s : State) : (engineReset s).disp = s.disp := rfl
@[simp] theorem engineReset_host (s : State) : (engineReset s).host = s.host := rfl
@[simp] theorem engineReset_answers (s : State) : (engineReset s).answers = s.answers := rfl
@[simp] theorem engineReset_reads (s : State) : (engineReset s).reads = s.reads := rfl
@[simp] theorem engineReset_trace (s : State) : (engineReset s).trace = s.trace := rfl
@[simp] theorem engineReset_draws (s : State) : (engineReset s).draws = s.draws + 1 := rfl

/-! #### The two controllers -/

@[simp] theorem Display.setChip_dram (d : Display) (k : Chip) (s : Side) : (d.setChip k s).dram = d.dram := by
  cases s <;> rfl

@[simp] theorem Display.setChip_chip_same (d : Display) (k : Chip) (s : Side) : (d.setChip k s).chip s = k := by
  cases s <;> rfl

theorem Display.setChip_chip_other (d : Display) (k : Chip) {s s' : Side} (h : s' ≠ s) :
    (d.setChip k s).chip s' = d.chip s' := by
  cases s <;> cases s' <;> first | rfl | exact absurd rfl h

@[simp] theorem Display.putByte_chip (d : Display) (a : Address) (v : Byte) (s : Side) :
    (d.putByte a v).chip s = d.chip s := by
  cases s <;> rfl

@[simp] theorem Display.putByte_dram (d : Display) (a : Address) (v : Byte) :
    (d.putByte a v).dram = d.dram.write a.cell v := rfl

end Sys2Proof.Machine
end

