-- ==== Sys2Proof/Laws/Display.lean ====
section
/-! SUPPORT. The display subsystem: addresses and cells, what a transaction can do to DRAM, and the pixel
view. -/

namespace Sys2Proof.Machine

theorem Address.cell_lt (a : Address) : a.cell < Config.dramBytes := by
  obtain ⟨s, p, c⟩ := a
  have := p.isLt
  have := c.isLt
  cases s <;> simp only [Address.cell, Side.code, Config.dramBytes] <;> omega

theorem Address.cell_inj {a b : Address} (h : a.cell = b.cell) : a = b := by
  obtain ⟨s, p, c⟩ := a
  obtain ⟨s', p', c'⟩ := b
  have h1 := p.isLt
  have h2 := c.isLt
  have h3 := p'.isLt
  have h4 := c'.isLt
  cases s <;> cases s' <;> simp only [Address.cell, Side.code] at h <;>
    first
    | (exfalso; omega)
    | (have hp : p = p' := BitVec.eq_of_toNat_eq (by omega)
       have hc : c = c' := BitVec.eq_of_toNat_eq (by omega)
       subst hp; subst hc; rfl)

theorem Address.cell_eq_iff (a b : Address) : a.cell = b.cell ↔ a = b :=
  ⟨Address.cell_inj, fun h => h ▸ rfl⟩

theorem Display.byteAt_putByte {d : Display} (h : d.dram.wf = true) (a b : Address) (v : Byte) :
    (d.putByte a v).byteAt b = if b = a then v else d.byteAt b := by
  simp only [Display.byteAt, Display.putByte_dram, Memory.read_write h, Address.cell_eq_iff]

theorem Display.byteAt_putByte_other (d : Display) {a b : Address} (v : Byte) (h : b ≠ a) :
    (d.putByte a v).byteAt b = d.byteAt b :=
  Memory.read_write_other _ _ fun hc => h (Address.cell_inj hc)

@[simp] theorem Display.byteAt_setChip (d : Display) (k : Chip) (s : Side) (a : Address) :
    (d.setChip k s).byteAt a = d.byteAt a := by
  simp [Display.byteAt]

theorem Display.putByte_wf {d : Display} (h : d.dram.wf = true) (a : Address) (v : Byte) :
    (d.putByte a v).dram.wf = true := Memory.write_wf h a.cell_lt v

theorem Display.perform_wf {d : Display} (h : d.dram.wf = true) (t : Transaction) :
    (d.perform t).dram.wf = true := by
  cases t with
  | sel s p c => simpa [Display.perform] using h
  | rd s => simpa [Display.perform] using h
  | wr s v => simpa [Display.perform] using Display.putByte_wf h _ v

theorem Display.timeOut_wf {d : Display} (h : d.dram.wf = true) (t : Transaction) (n : Nat) :
    (d.timeOut t n).dram.wf = true := by
  cases t with
  | sel s p c => simpa [Display.timeOut] using h
  | rd s => simpa [Display.timeOut] using h
  | wr s v =>
    simp only [Display.timeOut, Display.setChip_dram]
    split
    · exact Display.putByte_wf h _ v
    · exact h

end Sys2Proof.Machine
end

