-- ==== Sys2Proof/Laws/Engine.lean ====
section
/-! SUPPORT. What one engine action can do, said once: serving the Host, issuing a transaction, the last
action of a command; and the induction over a command's run, packaged once for a relation between its
start and its end (`EngineRel`). -/

namespace Sys2Proof.Machine

/-! ### Serving the Host -/

/-- Serving the Host changes only its list, what it has read, and BUSYWR, which is only ever set. -/
theorem serve_go {h : List HostEvent} {s s' : State} (e : serve h s = .go s') :
    s' = { s with host := s'.host, reads := s'.reads, busyWr := s'.busyWr } ∧ s'.host <:+ h ∧
    (s.busyWr = true → s'.busyWr = true) ∧
    (h.all HostEvent.notWrite = true → s'.busyWr = s.busyWr) := by
  induction h generalizing s with
  | nil => simp only [serve, Served.go.injEq] at e; subst e; simp
  | cons ev rest ih =>
    cases ev with
    | w16 off v =>
      obtain ⟨h1, h2, h3, h4⟩ := ih e
      exact ⟨h1, h2.trans (List.suffix_cons _ _), fun _ => h3 rfl, by simp [HostEvent.notWrite]⟩
    | r16 off =>
      obtain ⟨h1, h2, h3, h4⟩ := ih e
      refine ⟨h1, h2.trans (List.suffix_cons _ _), h3, fun hw => h4 ?_⟩
      simpa [HostEvent.notWrite] using hw
    | wait => simp only [serve, Served.go.injEq] at e; subst e; simp
    | pause => simp only [serve, Served.go.injEq] at e; subst e; simp [List.suffix_cons]
    | reset c => simp [serve] at e

/-- A reset that arrives finds the state as it was but for what the Host has done. -/
theorem serve_reset {h : List HostEvent} {s s' : State} {c : Bool} (e : serve h s = .reset c s') :
    s' = { s with host := s'.host, reads := s'.reads, busyWr := s'.busyWr } ∧ s'.host <:+ h ∧
    HostEvent.reset c ∈ h := by
  induction h generalizing s with
  | nil => simp [serve] at e
  | cons ev rest ih =>
    cases ev with
    | w16 off v =>
      obtain ⟨h1, h2, h3⟩ := ih e
      exact ⟨h1, h2.trans (List.suffix_cons _ _), List.mem_cons_of_mem _ h3⟩
    | r16 off =>
      obtain ⟨h1, h2, h3⟩ := ih e
      exact ⟨h1, h2.trans (List.suffix_cons _ _), List.mem_cons_of_mem _ h3⟩
    | wait => simp [serve] at e
    | pause => simp [serve] at e
    | reset c' =>
      simp only [serve, Served.reset.injEq] at e
      obtain ⟨rfl, rfl⟩ := e
      simp [List.suffix_cons]

/-- What serving the Host does with the accesses it takes: none is a WAIT or a reset, BUSYWR is set if one
is a write, and each read returns its register (BUSYWR in STATUS apart, which an earlier write may have
set). -/
theorem serve_served {h : List HostEvent} {s s' : State} (e : serve h s = .go s') :
    ∃ served new, h = served ++ s'.host ∧ HostEvent.wait ∉ served ∧ served.all HostEvent.notReset = true ∧
      s'.busyWr = (s.busyWr || !served.all HostEvent.notWrite) ∧ s'.reads = new.reverse ++ s.reads ∧
      List.Forall₂ (fun off v => ∃ b, v = hostRead off { s with busyWr := b })
        (served.filterMap HostEvent.readOffset) new := by
  induction h generalizing s with
  | nil => simp only [serve, Served.go.injEq] at e; subst e; exact ⟨[], [], by simp⟩
  | cons ev rest ih =>
    cases ev with
    | w16 off v =>
      obtain ⟨served, new, rfl, hw, hr, hb, hn, hf⟩ := ih e
      exact ⟨.w16 off v :: served, new, rfl, by simpa using hw, by simpa [HostEvent.notReset] using hr,
        by simpa [HostEvent.notWrite] using hb, hn, hf⟩
    | r16 off =>
      obtain ⟨served, new, rfl, hw, hr, hb, hn, hf⟩ := ih e
      refine ⟨.r16 off :: served, hostRead off s :: new, rfl, by simpa using hw,
        by simpa [HostEvent.notReset] using hr, by simpa [HostEvent.notWrite] using hb, ?_,
        .cons ⟨s.busyWr, rfl⟩ hf⟩
      rw [hn]
      simp
    | wait => simp only [serve, Served.go.injEq] at e; subst e; exact ⟨[], [], by simp⟩
    | pause =>
      simp only [serve, Served.go.injEq] at e
      subst e
      exact ⟨[.pause], [], by simp [HostEvent.notReset, HostEvent.notWrite, HostEvent.readOffset]⟩
    | reset c => simp [serve] at e

theorem notReset_of_suffix {h h' : List HostEvent} (hs : h' <:+ h)
    (hr : h.all HostEvent.notReset = true) : h'.all HostEvent.notReset = true := by
  rw [List.all_eq_true] at hr ⊢
  exact fun e he => hr e (hs.subset he)

theorem notWrite_of_suffix {h h' : List HostEvent} (hs : h' <:+ h)
    (hr : h.all HostEvent.notWrite = true) : h'.all HostEvent.notWrite = true := by
  rw [List.all_eq_true] at hr ⊢
  exact fun e he => hr e (hs.subset he)

/-- With no reset scripted the engine acts next. -/
theorem serve_of_noReset {h : List HostEvent} (s : State) (hr : h.all HostEvent.notReset = true) :
    ∃ s', serve h s = .go s' := by
  cases e : serve h s with
  | go s' => exact ⟨s', rfl⟩
  | reset c s' =>
    have hm := (serve_reset e).2.2
    rw [List.all_eq_true] at hr
    have := hr _ hm
    simp [HostEvent.notReset] at this

/-! ### Issuing a transaction -/

/-- The three ways a transaction can go. -/
theorem issue_cases (t : Transaction) (q : SeqState) (s : State) :
    (∃ s1, serve s.host s = .go s1 ∧ s1.answers.headD .ok = .ok ∧
      issue t q s = .running (completed t q s1)) ∨
    (∃ s1, serve s.host s = .go s1 ∧ s1.answers.headD .ok ≠ .ok ∧
      issue t q s = .ended (timedOut t s1)) ∨
    (∃ c s1, serve s.host s = .reset c s1 ∧
      issue t q s = .ended (engineReset (if c then failed t s1 else s1))) := by
  unfold issue
  cases e : serve s.host s with
  | go s1 =>
    by_cases ea : s1.answers.headD .ok = .ok
    · exact .inl ⟨s1, rfl, ea, if_pos ea⟩
    · exact .inr (.inl ⟨s1, rfl, ea, if_neg ea⟩)
  | reset c s1 => exact .inr (.inr ⟨c, s1, rfl, rfl⟩)

/-- The two ways an action without a transaction can go. -/
theorem internalAction_cases (f : State → State) (s : State) :
    (∃ s1, serve s.host s = .go s1 ∧ internalAction f s = .running (f s1)) ∨
    (∃ c s1, serve s.host s = .reset c s1 ∧ internalAction f s = .ended (engineReset s1)) := by
  unfold internalAction
  cases e : serve s.host s with
  | go s1 => exact .inl ⟨s1, rfl, rfl⟩
  | reset c s1 => exact .inr ⟨c, s1, rfl, rfl⟩

/-- The two ways the last action of a command can go. -/
theorem lastAction_cases (f : State → State) (s : State) :
    (∃ s1, serve s.host s = .go s1 ∧ lastAction f s = f s1) ∨
    (∃ c s1, serve s.host s = .reset c s1 ∧ lastAction f s = engineReset s1) := by
  unfold lastAction
  rcases internalAction_cases f s with ⟨s1, e, h⟩ | ⟨c, s1, e, h⟩ <;> rw [h]
  · exact .inl ⟨s1, e, rfl⟩
  · exact .inr ⟨c, s1, e, rfl⟩

/-! ### What `exec` runs for each command -/

section ExecEquations

variable (c : Color) (f : Font) (u : BitVec 1) (w : BitVec 2) (s : State)

theorem exec_nop : exec (.nop w) s = .next (runCommand (.nop w) .running s) := rfl
theorem exec_init : exec (.init w) s = .next (runAlways (.init w) initBody s) := rfl
theorem exec_plot : exec (.plot c u) s = .next (runCommand (.plot c u) plotBody s) := rfl
theorem exec_rect : exec (.rect c u) s = .next (runCommand (.rect c u) rectBody s) := rfl
theorem exec_fill : exec (.fill c u) s = .next (runCommand (.fill c u) fillBody s) := rfl
theorem exec_circle : exec (.circle c u) s = .next (runCommand (.circle c u) circleBody s) := rfl
theorem exec_char8 : exec (.char8 c u) s = .next (runCommand (.char8 c u) char8Body s) := rfl
theorem exec_char3 : exec (.char3 c u) s = .next (runCommand (.char3 c u) char3Body s) := rfl
theorem exec_string : exec (.string c f) s = .next (runCommand (.string c f) stringBody s) := rfl
theorem exec_setcur : exec (.setcur w) s = .next (runCommand (.setcur w) setcurBody s) := rfl

end ExecEquations

/-! ### A relation that every engine action keeps -/

/-- `R` holds from a state to wherever a flow stands. -/
inductive Flow.Rel (R : State → State → Prop) (s : State) : Flow → Prop where
  | running {s' : State} (h : R s s') : Flow.Rel R s (.running s')
  | ended {s' : State} (h : R s s') : Flow.Rel R s (.ended s')

/-- What a relation must meet to hold from a command's start to its end: it is a preorder, and each kind
of engine action keeps it. -/
structure EngineRel (R : State → State → Prop) : Prop where
  refl : ∀ s, R s s
  trans : ∀ {a b c}, R a b → R b c → R a c
  served : ∀ {s s'}, serve s.host s = .go s' → R s s'
  completed : ∀ t q s, R s (completed t q s)
  timedOut : ∀ t s, R s (timedOut t s)
  cut : ∀ {t s c s'}, serve s.host s = .reset c s' →
    R s (engineReset (if c then failed t s' else s'))
  reset : ∀ {s c s'}, serve s.host s = .reset c s' → R s (engineReset s')
  work : ∀ s w, R s { s with work := w }
  advance : ∀ f s, R s (advance f s)
  finish : ∀ s, R s (finish .ok s)
  abort : ∀ code s, code ≠ .hwTimeout → R s (abort code s)

namespace EngineRel

variable {R : State → State → Prop}

theorem weaken (hR : EngineRel R) {s s1 : State} {r : Flow} (h1 : R s s1) (h : r.Rel R s1) : r.Rel R s := by
  cases h with
  | running h => exact .running (hR.trans h1 h)
  | ended h => exact .ended (hR.trans h1 h)

theorem andThen (hR : EngineRel R) {s : State} {r : Flow} {f : State → Flow} (h : r.Rel R s)
    (hf : ∀ s', r = .running s' → (f s').Rel R s') : (r.andThen f).Rel R s := by
  cases h with
  | running h => exact hR.weaken h (hf _ rfl)
  | ended h => exact .ended h

theorem ite (_ : EngineRel R) {s : State} {c : Bool} {f g : Flow} (hf : c = true → f.Rel R s)
    (hg : c = false → g.Rel R s) : (if c then f else g).Rel R s := by
  cases c
  · exact hg rfl
  · exact hf rfl

theorem issue (hR : EngineRel R) (t : Transaction) (q : SeqState) (s : State) :
    (issue t q s).Rel R s := by
  rcases issue_cases t q s with ⟨s1, e, _, h⟩ | ⟨s1, e, _, h⟩ | ⟨c, s1, e, h⟩ <;> rw [h]
  · exact .running (hR.trans (hR.served e) (hR.completed _ _ _))
  · exact .ended (hR.trans (hR.served e) (hR.timedOut _ _))
  · exact .ended (hR.cut e)

theorem internalAction (hR : EngineRel R) {f : State → State} (hf : ∀ s, R s (f s)) (s : State) :
    (internalAction f s).Rel R s := by
  rcases internalAction_cases f s with ⟨s1, e, h⟩ | ⟨c, s1, e, h⟩ <;> rw [h]
  · exact .running (hR.trans (hR.served e) (hf _))
  · exact .ended (hR.reset e)

theorem lastAction (hR : EngineRel R) {f : State → State} (hf : ∀ s, R s (f s)) (s : State) :
    R s (lastAction f s) := by
  rcases lastAction_cases f s with ⟨s1, e, h⟩ | ⟨c, s1, e, h⟩ <;> rw [h]
  · exact hR.trans (hR.served e) (hf _)
  · exact hR.reset e

theorem raise (hR : EngineRel R) {code : Result} (hc : code ≠ .hwTimeout) (s : State) :
    (raise code s).Rel R s :=
  .ended (hR.lastAction (fun s => hR.abort code s hc) s)

theorem close (hR : EngineRel R) {s : State} {r : Flow} (h : r.Rel R s) : R s r.close := by
  cases h with
  | running h => exact hR.trans h (hR.lastAction hR.finish _)
  | ended h => exact h

theorem writeByte (hR : EngineRel R) (a : Address) (v : Byte) (s : State) :
    (writeByte a v s).Rel R s :=
  hR.andThen (hR.issue _ _ _) fun _ _ => hR.issue _ _ _

theorem readTrue (hR : EngineRel R) (a : Address) (s : State) : (readTrue a s).Rel R s :=
  hR.andThen (hR.issue _ _ _) fun _ _ => hR.andThen (hR.issue _ _ _) fun _ _ => hR.issue _ _ _

theorem plotCore (hR : EngineRel R) (x y : Int) (s : State) : (plotCore x y s).Rel R s :=
  hR.andThen (hR.readTrue _ _) fun _ _ => hR.writeByte _ _ _

theorem plotClipped (hR : EngineRel R) (x y : Int) (s : State) : (plotClipped x y s).Rel R s := by
  unfold Machine.plotClipped
  split
  · exact hR.plotCore x y s
  · exact .running (hR.refl s)

theorem storeClipped (hR : EngineRel R) (x y : Int) (v : Byte) (s : State) :
    (storeClipped x y v s).Rel R s := by
  unfold Machine.storeClipped
  split
  · exact hR.writeByte _ v s
  · exact .running (hR.refl s)

theorem runTask (hR : EngineRel R) (t : Task) (s : State) : (runTask t s).Rel R s := by
  cases t with
  | point x y => exact hR.plotClipped x y s
  | store a v => exact hR.writeByte a v s
  | column ch i =>
    show (blitColumn ch i s).Rel R s
    unfold blitColumn
    exact hR.storeClipped _ _ _ s
  | dot ch i j =>
    show (blitDot ch i j s).Rel R s
    unfold blitDot
    refine hR.ite (fun _ => ?_) fun _ => ?_
    · exact hR.plotClipped _ _ s
    · exact .running (hR.refl s)
  | advance f => exact hR.internalAction (hR.advance f) s

theorem runTasks (hR : EngineRel R) (n : Nat) (s : State) : (runTasks n s).Rel R s := by
  induction n generalizing s with
  | zero => exact .running (hR.refl s)
  | succ n ih =>
    unfold Machine.runTasks
    split
    · exact .running (hR.refl s)
    · next t ts _ =>
      have h1 : R s (setTodo ts s) := hR.work s _
      exact hR.andThen (hR.weaken h1 (hR.runTask t _)) fun s' _ => ih s'

theorem raster (hR : EngineRel R) (ts : List Task) (s : State) : (raster ts s).Rel R s := by
  have h1 : R s (setTodo ts s) := hR.work s _
  exact hR.weaken h1 (hR.runTasks ts.length _)

theorem runAlways (hR : EngineRel R) {i : Instr} {body : State → Flow} (s : State)
    (hs : R s (startWork i s)) (hb : ∀ s, (body s).Rel R s) : R s (runAlways i body s) := by
  have h := hb (startWork i s)
  unfold Machine.runAlways
  exact hR.trans hs (hR.close h)

theorem runCommand (hR : EngineRel R) {i : Instr} {body : State → Flow} (s : State)
    (hs : R s (startWork i s)) (hb : ∀ s, (body s).Rel R s) : R s (runCommand i body s) := by
  refine hR.runAlways s hs fun s => ?_
  by_cases h : s.fault = true
  · simp only [h, if_true]; exact hR.raise (by decide) s
  · simp only [h]; exact hb s

theorem rejectCommand (hR : EngineRel R) (s : State) (hs : R s { s with busy := true }) :
    R s (rejectCommand s) :=
  hR.trans hs (hR.lastAction (fun s => hR.abort _ s (by decide)) _)

/-- Every drawing command and NOP: nothing but INIT and SETCUR writes the cursor or clears a flag. -/
theorem body (hR : EngineRel R) :
    (∀ s, (Flow.running s).Rel R s) ∧ (∀ s, (plotBody s).Rel R s) ∧ (∀ s, (rectBody s).Rel R s) ∧
    (∀ s, (fillBody s).Rel R s) ∧ (∀ s, (circleBody s).Rel R s) ∧ (∀ s, (char8Body s).Rel R s) ∧
    (∀ s, (char3Body s).Rel R s) ∧ (∀ s, (stringBody s).Rel R s) := by
  refine ⟨fun s => .running (hR.refl s), fun s => ?_, fun s => ?_, fun s => ?_, fun s => ?_, fun s => ?_, fun s => ?_,
    fun s => ?_⟩
  · unfold plotBody
    split
    · exact hR.plotCore _ _ _
    · exact hR.raise (by decide) s
  · unfold rectBody; exact hR.raster _ s
  · unfold fillBody; exact hR.raster _ s
  · unfold circleBody; exact hR.raster _ s
  · unfold char8Body; exact hR.raster _ s
  · unfold char3Body; exact hR.raster _ s
  · unfold stringBody
    split
    · exact hR.raise (by decide) s
    · exact hR.raster _ s

/-- The whole of `exec`: a relation that the engine's actions, the start of work, INIT's effect and
SETCUR's effect keep holds from the state a command runs in to the state it ends in. -/
theorem exec (hR : EngineRel R) (i : Instr) (s : State) (hs : R s (startWork i s))
    (hack : ∀ s, R s (acknowledge s)) (hinit : ∀ s, R s (Machine.finish .ok (homeCursor s)))
    (hset : ∀ s, R s (Machine.finish .ok (setCursor s))) :
    ∃ t, exec i s = .next t ∧ R s t := by
  obtain ⟨b0, b1, b2, b3, b4, b5, b6, b7⟩ := hR.body
  cases i with
  | nop u => exact ⟨_, exec_nop u s, hR.runCommand s hs b0⟩
  | init u =>
    refine ⟨_, exec_init u s, hR.runAlways s hs fun s => ?_⟩
    exact hR.andThen (hR.internalAction hack s) fun s _ => .ended (hR.lastAction hinit s)
  | plot c u => exact ⟨_, exec_plot c u s, hR.runCommand s hs b1⟩
  | rect c u => exact ⟨_, exec_rect c u s, hR.runCommand s hs b2⟩
  | fill c u => exact ⟨_, exec_fill c u s, hR.runCommand s hs b3⟩
  | circle c u => exact ⟨_, exec_circle c u s, hR.runCommand s hs b4⟩
  | char8 c u => exact ⟨_, exec_char8 c u s, hR.runCommand s hs b5⟩
  | char3 c u => exact ⟨_, exec_char3 c u s, hR.runCommand s hs b6⟩
  | string c f => exact ⟨_, exec_string c f s, hR.runCommand s hs b7⟩
  | setcur u => exact ⟨_, exec_setcur u s, hR.runCommand s hs fun s => .ended (hR.lastAction hset s)⟩

end EngineRel

end Sys2Proof.Machine
end

