-- ==== Sys2Proof/Laws/Simulation.lean ====
section
/-! SUPPORT. Two runs of a command side by side: a relation that every engine action keeps between two
states is kept by the whole run (`Sim`). Its first use: the Host's accesses during a command change nothing
but what it has read, its list, and BUSYWR (`exec_hush`). -/

namespace Sys2Proof.Machine

/-- `E` relates two states while the command runs, `F` once it has ended. The engine's decisions read the
same from related states, and every action keeps the relation. -/
structure Sim (E F : State → State → Prop) : Prop where
  served : ∀ {s s'}, E s s' →
    (∃ a a', serve s.host s = .go a ∧ serve s'.host s' = .go a' ∧ E a a') ∨
    (∃ c a a', serve s.host s = .reset c a ∧ serve s'.host s' = .reset c a' ∧
      F (engineReset a) (engineReset a') ∧ ∀ t, F (engineReset (failed t a)) (engineReset (failed t a')))
  reads : ∀ {s s'}, E s s' → s'.answers = s.answers ∧ s'.work.byte = s.work.byte ∧
    s'.work.color = s.work.color ∧ s'.work.todo = s.work.todo ∧ s'.curx = s.curx ∧ s'.cury = s.cury
  completed : ∀ {s s'} t q, E s s' → E (completed t q s) (completed t q s')
  timedOut : ∀ {s s'} t, E s s' → F (timedOut t s) (timedOut t s')
  finish : ∀ {s s'}, E s s' → F (finish .ok s) (finish .ok s')
  abort : ∀ {s s'} code, E s s' → F (abort code s) (abort code s')
  setTodo : ∀ {s s'} ts, E s s' → E (setTodo ts s) (setTodo ts s')
  advance : ∀ {s s'} f, E s s' → E (advance f s) (advance f s')

/-- Two flows that stand at related states. -/
inductive Flow.Sim (E F : State → State → Prop) : Flow → Flow → Prop where
  | running {s s' : State} (h : E s s') : Flow.Sim E F (.running s) (.running s')
  | ended {s s' : State} (h : F s s') : Flow.Sim E F (.ended s) (.ended s')

namespace Sim

variable {E F : State → State → Prop}

theorem andThen {r r' : Flow} {f f' : State → Flow} (h : Flow.Sim E F r r')
    (hf : ∀ {s s'}, E s s' → Flow.Sim E F (f s) (f' s')) :
    Flow.Sim E F (r.andThen f) (r'.andThen f') := by
  cases h with
  | running h => exact hf h
  | ended h => exact .ended h

theorem issue (hS : Sim E F) {s s' : State} (t : Transaction) (q : SeqState) (h : E s s') :
    Flow.Sim E F (issue t q s) (issue t q s') := by
  unfold Machine.issue
  rcases hS.served h with ⟨a, a', e, e', ha⟩ | ⟨c, a, a', e, e', ha, hc⟩
  · rw [e, e']
    simp only [(hS.reads ha).1]
    by_cases hk : a.answers.headD .ok = .ok
    · simp only [hk, if_true]; exact .running (hS.completed t q ha)
    · simp only [hk, if_false]; exact .ended (hS.timedOut t ha)
  · rw [e, e']
    cases c
    · exact .ended ha
    · exact .ended (hc t)

theorem internalAction (hS : Sim E F) {s s' : State} {f f' : State → State}
    (hf : ∀ {s s'}, E s s' → E (f s) (f' s')) (h : E s s') :
    Flow.Sim E F (internalAction f s) (internalAction f' s') := by
  unfold Machine.internalAction
  rcases hS.served h with ⟨a, a', e, e', ha⟩ | ⟨c, a, a', e, e', ha, hc⟩
  · rw [e, e']; exact .running (hf ha)
  · rw [e, e']; exact .ended ha

theorem lastAction (hS : Sim E F) {s s' : State} {f f' : State → State}
    (hf : ∀ {s s'}, E s s' → F (f s) (f' s')) (h : E s s') : F (lastAction f s) (lastAction f' s') := by
  unfold Machine.lastAction Machine.internalAction
  rcases hS.served h with ⟨a, a', e, e', ha⟩ | ⟨c, a, a', e, e', ha, hc⟩
  · rw [e, e']; exact hf ha
  · rw [e, e']; exact ha

theorem raise (hS : Sim E F) {s s' : State} (code : Result) (h : E s s') :
    Flow.Sim E F (raise code s) (raise code s') :=
  .ended (hS.lastAction (hS.abort code) h)

theorem close (hS : Sim E F) {r r' : Flow} (h : Flow.Sim E F r r') : F r.close r'.close := by
  cases h with
  | running h => exact hS.lastAction hS.finish h
  | ended h => exact h

theorem writeByte (hS : Sim E F) {s s' : State} (a : Address) (v : Byte) (h : E s s') :
    Flow.Sim E F (writeByte a v s) (writeByte a v s') :=
  andThen (hS.issue _ _ h) fun h => hS.issue _ _ h

theorem readTrue (hS : Sim E F) {s s' : State} (a : Address) (h : E s s') :
    Flow.Sim E F (readTrue a s) (readTrue a s') :=
  andThen (hS.issue _ _ h) fun h => andThen (hS.issue _ _ h) fun h => hS.issue _ _ h

theorem plotCore (hS : Sim E F) {s s' : State} (x y : Int) (h : E s s') :
    Flow.Sim E F (plotCore x y s) (plotCore x y s') := by
  unfold Machine.plotCore
  refine andThen (hS.readTrue _ h) fun {a a'} h => ?_
  rw [(hS.reads h).2.1, (hS.reads h).2.2.1]
  exact hS.writeByte _ _ h

theorem plotClipped (hS : Sim E F) {s s' : State} (x y : Int) (h : E s s') :
    Flow.Sim E F (plotClipped x y s) (plotClipped x y s') := by
  unfold Machine.plotClipped
  split
  · exact hS.plotCore x y h
  · exact .running h

theorem storeClipped (hS : Sim E F) {s s' : State} (x y : Int) (v : Byte) (h : E s s') :
    Flow.Sim E F (storeClipped x y v s) (storeClipped x y v s') := by
  unfold Machine.storeClipped
  split
  · exact hS.writeByte _ v h
  · exact .running h

theorem runTask (hS : Sim E F) {s s' : State} (t : Task) (h : E s s') :
    Flow.Sim E F (runTask t s) (runTask t s') := by
  obtain ⟨_, _, hc, _, hx, hy⟩ := hS.reads h
  cases t with
  | point x y => exact hS.plotClipped x y h
  | store a v => exact hS.writeByte a v h
  | column ch i =>
    show Flow.Sim E F (blitColumn ch i s) (blitColumn ch i s')
    unfold blitColumn
    rw [hc, hx, hy]
    exact hS.storeClipped _ _ _ h
  | dot ch i j =>
    show Flow.Sim E F (blitDot ch i j s) (blitDot ch i j s')
    unfold blitDot
    rw [hx, hy]
    split
    · exact hS.plotClipped _ _ h
    · exact .running h
  | advance f => exact hS.internalAction (hS.advance f) h

theorem runTasks (hS : Sim E F) (n : Nat) {s s' : State} (h : E s s') :
    Flow.Sim E F (runTasks n s) (runTasks n s') := by
  induction n generalizing s s' with
  | zero => exact .running h
  | succ n ih =>
    unfold Machine.runTasks
    rw [(hS.reads h).2.2.2.1]
    split
    · exact .running h
    · exact andThen (hS.runTask _ (hS.setTodo _ h)) fun h => ih h

/-- Related states run the same tasks to related ends. -/
theorem raster (hS : Sim E F) (ts : List Task) {s s' : State} (h : E s s') :
    Flow.Sim E F (raster ts s) (raster ts s') :=
  hS.runTasks ts.length (hS.setTodo ts h)

/-- A command whose rule keeps the relation ends in related states. -/
theorem runAlways (hS : Sim E F) {i i' : Instr} {body body' : State → Flow} {s s' : State}
    (h : E (startWork i s) (startWork i' s'))
    (hb : ∀ {s s'}, E s s' → Flow.Sim E F (body s) (body' s')) :
    F (runAlways i body s) (runAlways i' body' s') :=
  hS.close (hb h)

/-- As `runAlways`, for a command that FAULT refuses; the rules need to agree only from the command's own
start. -/
theorem runCommand (hS : Sim E F) {i i' : Instr} {body body' : State → Flow} {s s' : State}
    (hf : s'.fault = s.fault) (h : E (startWork i s) (startWork i' s'))
    (hb : Flow.Sim E F (body (startWork i s)) (body' (startWork i' s'))) :
    F (runCommand i body s) (runCommand i' body' s') := by
  unfold Machine.runCommand Machine.runAlways
  refine hS.close ?_
  beta_reduce
  by_cases hk : (startWork i s).fault = true
  · have hk' : (startWork i' s').fault = true := hf.trans hk
    rw [if_pos hk, if_pos hk']; exact hS.raise _ h
  · have hk' : ¬(startWork i' s').fault = true := fun h' => hk (hf.symm.trans h')
    rw [if_neg hk, if_neg hk']; exact hb

end Sim

/-! ### The Host does not disturb a command -/

/-- The state without what only the Host's accesses touch during a command. -/
def hush (s : State) : State := { s with host := [], reads := [], busyWr := false }

/-- Two states that differ in nothing but that, with no reset scripted. -/
def HushEq (s s' : State) : Prop := hush s = hush s' ∧ s.noReset = true ∧ s'.noReset = true

theorem hush_serve {h : List HostEvent} {s s' : State} (e : serve h s = .go s') : hush s' = hush s := by
  rw [(serve_go e).1]; rfl

theorem noReset_serve {s s' : State} (e : serve s.host s = .go s') (h : s.noReset = true) :
    s'.noReset = true := notReset_of_suffix (serve_go e).2.1 h

theorem hush_completed {s s' : State} (t : Transaction) (q : SeqState) (h : hush s = hush s') :
    hush (completed t q s) = hush (completed t q s') :=
  (congrArg (completed t q) h : completed t q (hush s) = completed t q (hush s'))

theorem hush_finish {s s' : State} (c : Result) (h : hush s = hush s') :
    hush (finish c s) = hush (finish c s') :=
  (congrArg (finish c) h : finish c (hush s) = finish c (hush s'))

theorem hush_abort {s s' : State} (c : Result) (h : hush s = hush s') :
    hush (abort c s) = hush (abort c s') := by
  have e : ∀ s, hush (abort c s) = abort c (hush s) := fun s => by unfold abort; split <;> rfl
  rw [e, e, h]

theorem hush_acknowledge {s s' : State} (h : hush s = hush s') : hush (acknowledge s) = hush (acknowledge s') :=
  (congrArg acknowledge h : acknowledge (hush s) = acknowledge (hush s'))

theorem hush_timedOut {s s' : State} (t : Transaction) (h : hush s = hush s') :
    hush (timedOut t s) = hush (timedOut t s') := by
  have e : ∀ s, hush (timedOut t s) = timedOut t (hush s) := fun s => rfl
  rw [e, e, h]

theorem hushSim : Sim HushEq (fun s s' => hush s = hush s') where
  served {s s'} h := by
    obtain ⟨h1, h2, h3⟩ := h
    obtain ⟨a, e⟩ := serve_of_noReset s h2
    obtain ⟨a', e'⟩ := serve_of_noReset s' h3
    refine .inl ⟨a, a', e, e', ?_, noReset_serve e h2, noReset_serve e' h3⟩
    rw [hush_serve e, hush_serve e', h1]
  reads {s s'} h := by
    have hw : s'.work = s.work := (congrArg State.work h.1).symm
    exact ⟨(congrArg State.answers h.1).symm, by rw [hw], by rw [hw], by rw [hw],
      (congrArg State.curx h.1).symm, (congrArg State.cury h.1).symm⟩
  completed t q h := ⟨hush_completed t q h.1, h.2.1, h.2.2⟩
  timedOut t h := hush_timedOut t h.1
  finish h := hush_finish _ h.1
  abort code h := hush_abort code h.1
  setTodo ts h := ⟨(congrArg (setTodo ts) h.1 : setTodo ts (hush _) = setTodo ts (hush _)), h.2.1, h.2.2⟩
  advance f h := ⟨(congrArg (advance f) h.1 : advance f (hush _) = advance f (hush _)), h.2.1, h.2.2⟩

theorem hushEq_hush {s : State} (h : s.noReset = true) : HushEq s (hush s) := ⟨rfl, h, rfl⟩

/-- A rule that runs the same on hushed states. -/
def Hushed (body : State → Flow) : Prop :=
  ∀ {s s' : State}, HushEq s s' → Flow.Sim HushEq (fun s s' => hush s = hush s') (body s) (body s')

/-- The rules that read their operands from the working state. -/
theorem hushed_raster {ts : State → List Task} (h : ∀ s, ts (hush s) = ts s) :
    Hushed fun s => raster (ts s) s := by
  intro s s' e
  have : ts s = ts s' := by rw [← h s, ← h s', e.1]
  show Flow.Sim _ _ (raster (ts s) s) (raster (ts s') s')
  rw [this]
  exact hushSim.raster _ e

theorem hushed_bodies : Hushed (fun s => .running s) ∧ Hushed plotBody ∧ Hushed rectBody ∧
    Hushed fillBody ∧ Hushed circleBody ∧ Hushed char8Body ∧ Hushed char3Body ∧ Hushed stringBody ∧
    Hushed initBody ∧ Hushed setcurBody := by
  refine ⟨fun h => .running h, fun {s s'} h => ?_,
    hushed_raster (ts := fun s => pointTasks (rectPoints (coord0 s) (coord1 s) (coord2 s) (coord3 s)))
      fun _ => rfl,
    hushed_raster (ts := fun s => fillAddresses.map fun a => .store a (fillByte s.work.color)) fun _ => rfl,
    hushed_raster (ts := fun s => pointTasks (circlePoints (coord0 s) (coord1 s) (radius s))) fun _ => rfl,
    hushed_raster (ts := fun s => glyphTasks .f8x8 (charCode s)) fun _ => rfl,
    hushed_raster (ts := fun s => glyphTasks .f3x6 (charCode s)) fun _ => rfl, fun {s s'} h => ?_,
    fun h => Sim.andThen (hushSim.internalAction (fun h => ⟨hush_acknowledge h.1, h.2.1, h.2.2⟩) h)
      fun h => .ended (hushSim.lastAction (fun {s s'} h => ?_) h),
    fun h => .ended (hushSim.lastAction (fun {s s'} h => ?_) h)⟩
  · have hw : s'.work = s.work := (congrArg State.work h.1).symm
    unfold plotBody coord0 coord1
    rw [hw]
    split
    · exact hushSim.plotCore _ _ h
    · exact hushSim.raise _ h
  · have hw : s'.work = s.work := (congrArg State.work h.1).symm
    unfold stringBody stringChars stringLen
    rw [hw]
    split
    · exact hushSim.raise _ h
    · exact hushSim.raster _ h
  · exact (congrArg (fun s => finish .ok (homeCursor s)) h.1 :
      finish .ok (homeCursor (hush s)) = finish .ok (homeCursor (hush s')))
  · exact (congrArg (fun s => finish .ok (setCursor s)) h.1 :
      finish .ok (setCursor (hush s)) = finish .ok (setCursor (hush s')))

theorem runAlways_hush {i : Instr} {body : State → Flow} (hb : Hushed body) {s s' : State}
    (h : HushEq s s') : hush (runAlways i body s) = hush (runAlways i body s') :=
  hushSim.runAlways ⟨(congrArg (startWork i) h.1 : startWork i (hush s) = startWork i (hush s')), h.2.1, h.2.2⟩
    hb

theorem runCommand_hush {i : Instr} {body : State → Flow} (hb : Hushed body) {s s' : State}
    (h : HushEq s s') : hush (runCommand i body s) = hush (runCommand i body s') := by
  have h' : HushEq (startWork i s) (startWork i s') :=
    ⟨(congrArg (startWork i) h.1 : startWork i (hush s) = startWork i (hush s')), h.2.1, h.2.2⟩
  exact hushSim.runCommand (congrArg State.fault h.1).symm h' (hb h')

/-- A command does the same to the machine, whatever host accesses arrive while it runs, if no reset
arrives: the same as with any other accesses, but for the Host's own list, its reads, and BUSYWR. -/
theorem exec_hush (i : Instr) {s s' : State} (h : HushEq s s') :
    ∃ t t', exec i s = .next t ∧ exec i s' = .next t' ∧ hush t = hush t' := by
  obtain ⟨b0, b1, b2, b3, b4, b5, b6, b7, b8, b9⟩ := hushed_bodies
  cases i with
  | nop u => exact ⟨_, _, exec_nop u s, exec_nop u s', runCommand_hush b0 h⟩
  | init u => exact ⟨_, _, exec_init u s, exec_init u s', runAlways_hush b8 h⟩
  | plot c u => exact ⟨_, _, exec_plot c u s, exec_plot c u s', runCommand_hush b1 h⟩
  | rect c u => exact ⟨_, _, exec_rect c u s, exec_rect c u s', runCommand_hush b2 h⟩
  | fill c u => exact ⟨_, _, exec_fill c u s, exec_fill c u s', runCommand_hush b3 h⟩
  | circle c u => exact ⟨_, _, exec_circle c u s, exec_circle c u s', runCommand_hush b4 h⟩
  | char8 c u => exact ⟨_, _, exec_char8 c u s, exec_char8 c u s', runCommand_hush b5 h⟩
  | char3 c u => exact ⟨_, _, exec_char3 c u s, exec_char3 c u s', runCommand_hush b6 h⟩
  | string c f => exact ⟨_, _, exec_string c f s, exec_string c f s', runCommand_hush b7 h⟩
  | setcur u => exact ⟨_, _, exec_setcur u s, exec_setcur u s', runCommand_hush b9 h⟩

end Sys2Proof.Machine
end

