-- ==== Sys2Proof/Laws/Calm.lean ====
section
/-! SUPPORT. Commands that nothing disturbs: no host access, no TIMEOUT. Each drawing primitive then has
one next state, and a rasterizer's effect on DRAM and the text cursor is a fold over its tasks. With
`exec_hush` the same holds whatever host accesses (but a reset) arrive. -/

namespace Sys2Proof.Machine

@[simp] theorem serve_nil (s : State) : serve [] s = .go { s with host := [] } := rfl

/-- No host event is scripted and no answer is a TIMEOUT. -/
def Calm (s : State) : Prop := s.host = [] ∧ s.noTimeout = true

/-- What drawing leaves alone. -/
def Keeps (s s' : State) : Prop :=
  s' = { s with disp := s'.disp, curx := s'.curx, seq := s'.seq,
                work := { s.work with byte := s'.work.byte, todo := s'.work.todo },
                answers := s'.answers, trace := s'.trace }

theorem Keeps.refl (s : State) : Keeps s s := rfl

theorem Keeps.trans {a b c : State} (h1 : Keeps a b) (h2 : Keeps b c) : Keeps a c := by
  unfold Keeps at *
  rw [h2, h1]

theorem headD_of_noTimeout {as : List Answer} (h : as.all (fun a => a == .ok) = true) :
    as.headD .ok = .ok := by
  cases as with
  | nil => rfl
  | cons a as => simpa using (by simpa using h : a = .ok ∧ _).1

theorem tail_of_noTimeout {as : List Answer} (h : as.all (fun a => a == .ok) = true) :
    as.tail.all (fun a => a == .ok) = true := by
  cases as with
  | nil => rfl
  | cons a as => simp only [List.all_cons, Bool.and_eq_true] at h; exact h.2

theorem issue_calm (t : Transaction) (q : SeqState) {s : State} (h : Calm s) :
    issue t q s = .running (completed t q s) ∧ Calm (completed t q s) := by
  obtain ⟨h1, h2⟩ := h
  refine ⟨?_, by simpa using h1, tail_of_noTimeout h2⟩
  have hs : ({ s with host := [] } : State) = s := by rw [← h1]
  unfold issue
  simp only [h1, serve_nil, hs, headD_of_noTimeout h2, if_true]

theorem internalAction_calm (f : State → State) {s : State} (h : Calm s) :
    internalAction f s = .running (f s) := by
  have hs : ({ s with host := [] } : State) = s := by rw [← h.1]
  unfold internalAction
  rw [h.1, serve_nil, hs]

/-- `writeByte` undisturbed (40_addressing.md rule R82). -/
theorem writeByte_calm (a : Address) (v : Byte) {s : State} (h : Calm s) :
    ∃ s', writeByte a v s = .running s' ∧ Calm s' ∧ Keeps s s' ∧ s'.work = s.work ∧ s'.curx = s.curx ∧
      s'.seq = .idle ∧ s'.disp.dram = s.disp.dram.write a.cell v ∧
      (∀ d, d ≠ a.side → s'.disp.chip d = s.disp.chip d) ∧
      s'.disp.chip a.side =
        { page := a.page, col := a.column + 1, latch := (s.disp.chip a.side).latch } ∧
      s'.trace = (.wr a.side v, .ok) :: (.sel a.side a.page a.column, .ok) :: s.trace := by
  obtain ⟨e1, c1⟩ := issue_calm (.sel a.side a.page a.column) .addrW h
  obtain ⟨e2, c2⟩ := issue_calm (.wr a.side v) .idle c1
  refine ⟨_, ?_, c2, ?_, ?_, rfl, rfl, ?_, ?_, ?_, rfl⟩
  · unfold writeByte; rw [e1]; exact e2
  · rfl
  · rfl
  · simp [Display.perform, Display.pointer, Address.cell]
  · intro d hd
    simp [Display.perform, Display.setChip_chip_other _ _ hd]
  · simp [Display.perform, Display.pointer]

/-- `readTrue` undisturbed (40_addressing.md rule R83): the byte held is the current byte. -/
theorem readTrue_calm (a : Address) {s : State} (h : Calm s) :
    ∃ s', readTrue a s = .running s' ∧ Calm s' ∧ Keeps s s' ∧
      s'.work = { s.work with byte := s.disp.byteAt a } ∧ s'.curx = s.curx ∧
      s'.seq = .haveByte ∧ s'.disp.dram = s.disp.dram ∧
      (s'.disp.chip a.side).page = a.page ∧ (s'.disp.chip a.side).col = a.column + 2 ∧
      (s'.disp.chip a.side).latch = s.disp.byteAt { a with column := a.column + 1 } ∧
      (∀ d, d ≠ a.side → s'.disp.chip d = s.disp.chip d) ∧
      s'.trace = (.rd a.side, .ok) :: (.rd a.side, .ok) :: (.sel a.side a.page a.column, .ok) :: s.trace := by
  obtain ⟨e1, c1⟩ := issue_calm (.sel a.side a.page a.column) .addrR h
  obtain ⟨e2, c2⟩ := issue_calm (.rd a.side) .readPending c1
  obtain ⟨e3, c3⟩ := issue_calm (.rd a.side) .haveByte c2
  have hb : (completed (.rd a.side) .haveByte (completed (.rd a.side) .readPending
      (completed (.sel a.side a.page a.column) .addrR s))).work = { s.work with byte := s.disp.byteAt a } := by
    simp [completed, Display.answerByte, Display.perform, Display.pointer, Display.byteAt]
  refine ⟨_, ?_, c3, ?_, hb, rfl, rfl, ?_, ?_, ?_, ?_, ?_, rfl⟩
  · unfold readTrue; rw [e1]; simp only [Flow.andThen]; rw [e2]; exact e3
  · rfl
  · simp [Display.perform]
  · simp [Display.perform]
  · simp only [completed_disp, Display.perform, Display.setChip_chip_same]
    bv_omega
  · simp [Display.perform, Display.pointer, Display.byteAt]
  · intro d hd
    simp [Display.perform, Display.setChip_chip_other _ _ hd]

/-- The transactions of a byte write, newest first (40_addressing.md rule R82). -/
def writeTrace (a : Address) (v : Byte) : List (Transaction × Answer) :=
  [(.wr a.side v, .ok), (.sel a.side a.page a.column, .ok)]

/-- The transactions of a PixelPlot, newest first (41_pixelplot.md rule R87). -/
def plotTrace (a : Address) (v : Byte) : List (Transaction × Answer) :=
  [(.wr a.side v, .ok), (.sel a.side a.page a.column, .ok), (.rd a.side, .ok), (.rd a.side, .ok),
   (.sel a.side a.page a.column, .ok)]

/-- The byte a PixelPlot writes. -/
def plottedByte (x y : Int) (c : Color) (m : Memory) : Byte :=
  update (m.read (locate x y).cell) (bitIndex y) c

/-- `plotCore` undisturbed (41_pixelplot.md rule R87). -/
theorem plotCore_calm (x y : Int) {s : State} (h : Calm s) :
    ∃ s', plotCore x y s = .running s' ∧ Calm s' ∧ Keeps s s' ∧ s'.work.todo = s.work.todo ∧
      s'.curx = s.curx ∧ s'.seq = .idle ∧
      s'.disp.dram = s.disp.dram.write (locate x y).cell (plottedByte x y s.work.color s.disp.dram) ∧
      (∀ d, d ≠ (locate x y).side → s'.disp.chip d = s.disp.chip d) ∧
      s'.disp.chip (locate x y).side =
        { page := (locate x y).page, col := (locate x y).column + 1,
          latch := s.disp.byteAt { locate x y with column := (locate x y).column + 1 } } ∧
      s'.trace = plotTrace (locate x y) (plottedByte x y s.work.color s.disp.dram) ++ s.trace := by
  obtain ⟨s1, e1, c1, k1, w1, x1, _, m1, _, _, l1, d1, t1⟩ := readTrue_calm (locate x y) h
  obtain ⟨s2, e2, c2, k2, w2, x2, q2, m2, d2, p2, t2⟩ :=
    writeByte_calm (locate x y) (update s1.work.byte (bitIndex y) s1.work.color) c1
  have hv : update s1.work.byte (bitIndex y) s1.work.color = plottedByte x y s.work.color s.disp.dram := by
    rw [w1]; rfl
  rw [hv] at m2 t2
  refine ⟨s2, ?_, c2, k1.trans k2, ?_, x2.trans x1, q2, ?_, fun d hd => (d2 d hd).trans (d1 d hd), ?_,
    ?_⟩
  · unfold plotCore; rw [e1]; exact e2
  · rw [w2, w1]
  · rw [m2, m1]
  · rw [p2, l1]
  · rw [t2, t1]; rfl

/-! ### A rasterizer as a fold -/

/-- What a rasterizer changes that outlives the command: DRAM, CURX, and the transactions issued, newest
first. -/
structure Canvas where
  dram : Memory
  curx : Word
  trace : List (Transaction × Answer)

/-- The canvas of a state. -/
def State.canvas (s : State) : Canvas := ⟨s.disp.dram, s.curx, s.trace⟩

/-- A clipped point, drawn. -/
def drawPoint (c : Color) (x y : Int) (k : Canvas) : Canvas :=
  if onScreen x y then
    { k with
      dram := k.dram.write (locate x y).cell (plottedByte x y c k.dram)
      trace := plotTrace (locate x y) (plottedByte x y c k.dram) ++ k.trace }
  else k

/-- A byte, drawn. -/
def drawStore (a : Address) (v : Byte) (k : Canvas) : Canvas :=
  { k with dram := k.dram.write a.cell v, trace := writeTrace a v ++ k.trace }

/-- A clipped byte, drawn. -/
def drawByte (x y : Int) (v : Byte) (k : Canvas) : Canvas :=
  if onScreen x y then drawStore (locate x y) v k else k

/-- One task, drawn in a color at a cursor row. -/
def drawTask (c : Color) (cury : Word) (t : Task) (k : Canvas) : Canvas :=
  match t with
  | .point x y => drawPoint c x y k
  | .store a v => drawStore a v k
  | .column ch i => drawByte (k.curx.toNat + i.val) cury.toNat (glyphByte (Config.font8 ch i) c) k
  | .dot ch i j =>
    if (Config.font3 ch i).getLsbD j then drawPoint c (k.curx.toNat + i.val) (cury.toNat + j.val) k else k
  | .advance f => { k with curx := sat16 (k.curx.toNat + glyphStep f) }

/-- The tasks of a rasterizer, drawn in order. -/
def drawTasks (c : Color) (cury : Word) (ts : List Task) (k : Canvas) : Canvas :=
  ts.foldl (fun k t => drawTask c cury t k) k

@[simp] theorem drawTasks_nil (c : Color) (cury : Word) (k : Canvas) : drawTasks c cury [] k = k := rfl

@[simp] theorem drawTasks_cons (c : Color) (cury : Word) (t : Task) (ts : List Task) (k : Canvas) :
    drawTasks c cury (t :: ts) k = drawTasks c cury ts (drawTask c cury t k) := rfl

theorem drawTasks_append (c : Color) (cury : Word) (ts us : List Task) (k : Canvas) :
    drawTasks c cury (ts ++ us) k = drawTasks c cury us (drawTasks c cury ts k) := by
  simp [drawTasks]

/-- A flow that has drawn: still running, calm, and with the canvas `k`; `todo` as it was. -/
def Drew (s : State) (k : Canvas) (r : Flow) : Prop :=
  ∃ s', r = .running s' ∧ Calm s' ∧ Keeps s s' ∧ s'.work.todo = s.work.todo ∧ s'.canvas = k ∧
    (s.seq = .idle → s'.seq = .idle)

theorem Drew.refl {s : State} (h : Calm s) : Drew s s.canvas (.running s) :=
  ⟨s, rfl, h, Keeps.refl s, rfl, rfl, id⟩

theorem plotClipped_calm (x y : Int) {s : State} (h : Calm s) :
    Drew s (drawPoint s.work.color x y s.canvas) (plotClipped x y s) := by
  unfold plotClipped drawPoint
  by_cases ho : onScreen x y = true
  · simp only [ho, if_true]
    obtain ⟨s', e, c, k, w, hx, q, m, _, _, t⟩ := plotCore_calm x y h
    exact ⟨s', e, c, k, w, by simp [State.canvas, m, hx, t], fun _ => q⟩
  · simp only [ho]; exact Drew.refl h

theorem writeByte_drew (a : Address) (v : Byte) {s : State} (h : Calm s) :
    Drew s (drawStore a v s.canvas) (writeByte a v s) := by
  obtain ⟨s', e, c, k, w, hx, q, m, _, _, t⟩ := writeByte_calm a v h
  exact ⟨s', e, c, k, by rw [w], by simp [State.canvas, drawStore, writeTrace, m, hx, t], fun _ => q⟩

theorem storeClipped_calm (x y : Int) (v : Byte) {s : State} (h : Calm s) :
    Drew s (drawByte x y v s.canvas) (storeClipped x y v s) := by
  unfold storeClipped drawByte
  by_cases ho : onScreen x y = true
  · simp only [ho, if_true]; exact writeByte_drew _ v h
  · simp only [ho]; exact Drew.refl h

theorem runTask_calm (t : Task) {s : State} (h : Calm s) :
    Drew s (drawTask s.work.color s.cury t s.canvas) (runTask t s) := by
  cases t with
  | point x y => exact plotClipped_calm x y h
  | store a v => exact writeByte_drew a v h
  | column ch i => exact storeClipped_calm _ _ _ h
  | dot ch i j =>
    show Drew s _ (blitDot ch i j s)
    unfold blitDot drawTask
    by_cases hm : (Config.font3 ch i).getLsbD j = true
    · simp only [hm, if_true]; exact plotClipped_calm _ _ h
    · simp only [hm]; exact Drew.refl h
  | advance f => exact ⟨advance f s, internalAction_calm _ h, h, rfl, rfl, rfl, id⟩

theorem runTasks_calm (ts : List Task) {s : State} (h : Calm s) (ht : s.work.todo = ts) :
    ∃ s', runTasks ts.length s = .running s' ∧ Calm s' ∧ Keeps s s' ∧
      s'.canvas = drawTasks s.work.color s.cury ts s.canvas ∧ (s.seq = .idle → s'.seq = .idle) := by
  induction ts generalizing s with
  | nil => exact ⟨s, rfl, h, Keeps.refl s, rfl, id⟩
  | cons t ts ih =>
    obtain ⟨s1, e1, c1, k1, w1, v1, q1⟩ := runTask_calm t (s := setTodo ts s) h
    have hk : Keeps s (setTodo ts s) := rfl
    have k1' := hk.trans k1
    obtain ⟨s2, e2, c2, k2, v2, q2⟩ := ih c1 w1
    refine ⟨s2, ?_, c2, k1'.trans k2, ?_, fun q => q2 (q1 q)⟩
    · show runTasks (ts.length + 1) s = _
      unfold runTasks
      rw [ht]
      show (runTask t (setTodo ts s)).andThen _ = _
      rw [e1]
      exact e2
    · have hc : s1.work.color = s.work.color := by rw [k1']
      have hy : s1.cury = s.cury := by rw [k1']
      rw [v2, v1, hc, hy]
      rfl

/-- A rasterizer undisturbed: it draws its tasks in order. -/
theorem raster_calm (ts : List Task) {s : State} (h : Calm s) :
    ∃ s', raster ts s = .running s' ∧ Calm s' ∧ Keeps s s' ∧
      s'.canvas = drawTasks s.work.color s.cury ts s.canvas ∧ (s.seq = .idle → s'.seq = .idle) := by
  have hk : Keeps s (setTodo ts s) := rfl
  obtain ⟨s', e, c, k, v, q⟩ := runTasks_calm ts (s := setTodo ts s) h rfl
  exact ⟨s', e, c, hk.trans k, v, q⟩

/-! ### Whole commands -/

theorem lastAction_calm (f : State → State) {s : State} (h : Calm s) : lastAction f s = f s := by
  unfold lastAction
  rw [internalAction_calm f h]
  rfl

theorem calm_hush {s : State} (h : s.undisturbed) : Calm (hush s) := ⟨rfl, h.1⟩

theorem Color.ofBit_bit (c : Color) : Color.ofBit c.bit = c := by cases c <;> rfl

theorem Font.ofBit_bit (f : Font) : Font.ofBit f.bit = f := by cases f <;> rfl

/-- What a drawing command that nothing disturbs leaves, from the state it runs in: it completes OK, keeps
CMD, ARG0 to ARG3, CHARBUF, CURY and FAULT, and has drawn its tasks. -/
structure DrewCommand (ts : List Task) (c : Color) (s t : State) : Prop where
  done : completedWith .ok t
  operands : sameOperands s t
  cury : t.cury = s.cury
  fault : t.fault = s.fault
  canvas : t.canvas = drawTasks c s.cury ts s.canvas
  host : t.noReset = true
  answers : t.noTimeout = true

theorem runCommand_calm {i : Instr} {body : State → Flow} {ts : List Task} {s : State} (h : Calm s)
    (hf : s.fault = false) (hb : body (startWork i s) = raster ts (startWork i s)) :
    DrewCommand ts (Color.ofBit (colorBit i)) s (runCommand i body s) ∧
      (runCommand i body s).busyWr = s.busyWr := by
  obtain ⟨s', e, c, k, v, q⟩ := raster_calm ts (s := startWork i s) h
  have hr : runCommand i body s = finish .ok s' := by
    unfold runCommand runAlways
    simp only [startWork_fault, hf]
    rw [show (if false = true then raise .refused (startWork i s) else body (startWork i s))
      = body (startWork i s) from rfl, hb, e]
    exact lastAction_calm _ c
  rw [hr]
  refine ⟨⟨⟨rfl, rfl, rfl⟩, ?_, ?_, ?_, v, ?_, c.2⟩, ?_⟩
  · unfold sameOperands; simp only [finish_cmd, finish_arg0, finish_arg1, finish_arg2, finish_arg3, finish_charbuf]; rw [k]; simp
  · simp only [finish_cury]; rw [k]; simp
  · simp only [finish_fault]; rw [k]; simp
  · unfold State.noReset; simp only [finish_host, c.1]; rfl
  · simp only [finish_busyWr]; rw [k]; simp

end Sys2Proof.Machine
end

