-- ==== Sys2Proof/Laws/Frame.lean ====
section
/-! SUPPORT. What a command leaves alone in any run without a reset, TIMEOUTs and host accesses included;
and the drawing commands in undisturbed runs. -/

namespace Sys2Proof.Machine

/-- What every engine action keeps when no reset is scripted (45_control.md rule R130). -/
def FrameRel (s t : State) : Prop :=
  s.noReset = true →
    t.host <:+ s.host ∧ sameOperands s t ∧ t.cury = s.cury ∧ s.curx.toNat ≤ t.curx.toNat ∧
    (s.busyWr = true → t.busyWr = true) ∧ (s.noWrite = true → t.busyWr = s.busyWr) ∧
    (s.fault = true → t.fault = true) ∧ t.answers <:+ s.answers

theorem noReset_of_frame {s t : State} (h : t.host <:+ s.host) (hs : s.noReset = true) :
    t.noReset = true := notReset_of_suffix h hs

theorem sat16_toNat (v : Nat) : (sat16 v).toNat = min v 0xFFFF := by
  unfold sat16
  rw [BitVec.toNat_ofNat]
  omega

/-- The registers no command writes (45_control.md rule R130), as one value. -/
def State.operands (s : State) : Word × (Word × Word × Word × Word) × Vector Byte 64 :=
  (s.cmd, (s.arg0, s.arg1, s.arg2, s.arg3), s.charbuf)

theorem sameOperands_iff {s t : State} : sameOperands s t ↔ t.operands = s.operands := by
  simp only [sameOperands, State.operands, Prod.mk.injEq, and_assoc]

theorem sameOperands_refl (s : State) : sameOperands s s := sameOperands_iff.2 rfl

theorem sameOperands_trans {s t u : State} (hst : sameOperands s t) (htu : sameOperands t u) :
    sameOperands s u :=
  sameOperands_iff.2 ((sameOperands_iff.1 htu).trans (sameOperands_iff.1 hst))

theorem frameRel : EngineRel FrameRel where
  refl s _ := ⟨List.suffix_refl _, sameOperands_refl s, rfl, le_refl _, id, fun _ => rfl, id,
    List.suffix_refl _⟩
  trans h1 h2 hs := by
    obtain ⟨a1, a2, a3, a4, a5, a6, a7, a8⟩ := h1 hs
    obtain ⟨b1, b2, b3, b4, b5, b6, b7, b8⟩ := h2 (noReset_of_frame a1 hs)
    refine ⟨b1.trans a1, sameOperands_trans a2 b2, b3.trans a3, a4.trans b4, fun h => b5 (a5 h),
      fun h => ?_, fun h => b7 (a7 h), b8.trans a8⟩
    rw [b6 (notWrite_of_suffix a1 h), a6 h]
  served {s s'} e _ := by
    obtain ⟨h1, h2, h3, h4⟩ := serve_go e
    refine ⟨h2, ?_, ?_, ?_, h3, h4, ?_, ?_⟩
    · rw [h1]; exact sameOperands_refl s
    · rw [h1]
    · rw [h1]
    · rw [h1]; exact id
    · rw [h1]
  completed t q s _ := ⟨List.suffix_refl _, sameOperands_refl s, rfl, le_refl _, id, fun _ => rfl, id,
    List.tail_suffix _⟩
  timedOut t s _ := ⟨List.suffix_refl _, sameOperands_refl s, rfl, le_refl _, id, fun _ => rfl, fun _ => rfl,
    List.tail_suffix _⟩
  cut {t s c s'} e hs := by
    obtain ⟨s1, e1⟩ := serve_of_noReset s hs
    rw [e1] at e
    simp at e
  reset {s c s'} e hs := by
    obtain ⟨s1, e1⟩ := serve_of_noReset s hs
    rw [e1] at e
    simp at e
  work s w _ := ⟨List.suffix_refl _, sameOperands_refl s, rfl, le_refl _, id, fun _ => rfl, id,
    List.suffix_refl _⟩
  advance f s _ := by
    refine ⟨List.suffix_refl _, sameOperands_refl s, rfl, ?_, id, fun _ => rfl, id, List.suffix_refl _⟩
    rw [advance_curx, sat16_toNat]
    have := s.curx.isLt
    omega
  finish s _ := ⟨List.suffix_refl _, sameOperands_refl s, rfl, le_refl _, id, fun _ => rfl, id,
    List.suffix_refl _⟩
  abort code s hc _ := by
    unfold Machine.abort
    simp only [hc, if_false]
    exact ⟨List.suffix_refl _, sameOperands_refl s, rfl, le_refl _, id, fun _ => rfl, id,
      List.suffix_refl _⟩

theorem frame_startWork (i : Instr) (s : State) : FrameRel s (startWork i s) := fun _ =>
  ⟨List.suffix_refl _, sameOperands_refl s, rfl, le_refl _, id, fun _ => rfl, id, List.suffix_refl _⟩

/-- The frame of a command run by `runCommand`, whatever happens in it but a reset. -/
theorem runCommand_frame {i : Instr} {body : State → Flow} (hb : ∀ s, (body s).Rel FrameRel s) (s : State) :
    FrameRel s (runCommand i body s) :=
  frameRel.runCommand s (frame_startWork i s) hb

/-- A drawing command that neither a TIMEOUT nor a reset disturbs: whatever host accesses arrive, it
completes OK and has drawn its tasks. -/
theorem drew_command {i : Instr} {body : State → Flow} {ts : List Task} {s : State}
    (hb : Hushed body) (hf : ∀ s, (body s).Rel FrameRel s) (hu : s.undisturbed) (h0 : s.fault = false)
    (ht : body (startWork i (hush s)) = raster ts (startWork i (hush s))) :
    DrewCommand ts (Color.ofBit (colorBit i)) s (runCommand i body s) ∧
      busyWrOnlySet s (runCommand i body s) := by
  obtain ⟨f1, f2, f3, f4, f5, f6, f7, f8⟩ := runCommand_frame (i := i) hf s hu.2
  obtain ⟨⟨d1, d2, d3, d4, d5, d6, d7⟩, _⟩ := runCommand_calm (calm_hush hu) h0 ht
  have e := runCommand_hush (i := i) hb (hushEq_hush hu.2)
  generalize runCommand i body s = t at *
  generalize runCommand i body (hush s) = t' at *
  have v : (hush t).canvas = (hush t').canvas := congrArg State.canvas e
  have vr : (hush t).result = (hush t').result := congrArg State.result e
  have vb : (hush t).busy = (hush t').busy := congrArg State.busy e
  have vq : (hush t).seq = (hush t').seq := congrArg State.seq e
  have vf : (hush t).fault = (hush t').fault := congrArg State.fault e
  have vn : (hush t).noTimeout = (hush t').noTimeout := congrArg State.noTimeout e
  exact ⟨⟨⟨vr.trans d1.1, vb.trans d1.2.1, vq.trans d1.2.2⟩, f2, f3, vf.trans d4, v.trans d5,
    noReset_of_frame f1 hu.2, vn.trans d7⟩, f5, f6⟩

end Sys2Proof.Machine
end

