-- ==== Sys2Proof/Laws/Pixel.lean ====
section
/-! SUPPORT. The pixel view of DRAM, and what drawing points and bytes does to it. -/

namespace Sys2Proof.Machine

theorem onScreen_iff (x y : Int) : onScreen x y = true ↔ 0 ≤ x ∧ x < 128 ∧ 0 ≤ y ∧ y < 64 := by
  simp [onScreen]

theorem locate_page (x y : Int) (h : onScreen x y = true) : (locate x y).page.toNat = y.toNat / 8 := by
  have := (onScreen_iff x y).1 h
  simp only [locate, BitVec.toNat_ofNat]
  omega

theorem locate_column (x y : Int) : (locate x y).column.toNat = x.toNat % 64 := by
  simp only [locate, BitVec.toNat_ofNat]
  omega

/-- Two on-screen pixels with the same address and bit are the same pixel (40_addressing.md rule R78). -/
theorem locate_inj {x y u v : Int} (h : onScreen x y = true) (h' : onScreen u v = true)
    (ha : locate x y = locate u v) (hk : bitIndex y = bitIndex v) : x = u ∧ y = v := by
  have h1 := (onScreen_iff x y).1 h
  have h2 := (onScreen_iff u v).1 h'
  have hp := congrArg (fun a => a.page.toNat) ha
  have hc := congrArg (fun a => a.column.toNat) ha
  have hs := congrArg Address.side ha
  simp only [locate_page _ _ h, locate_page _ _ h'] at hp
  simp only [locate_column] at hc
  simp only [locate] at hs
  unfold bitIndex at hk
  by_cases hx : x < 64 <;> by_cases hu : u < 64 <;> simp only [hx, hu, if_true, if_false] at hs
  · omega
  · exact absurd hs (by simp)
  · exact absurd hs (by simp)
  · omega

theorem bitIndex_lt (y : Int) : bitIndex y < 8 := Nat.mod_lt _ (by omega)

theorem one_shift_getLsbD {k j : Nat} (hk : k < 8) (hj : j < 8) :
    (1#8 <<< k).getLsbD j = decide (j = k) := by
  interval_cases k <;> interval_cases j <;> rfl

/-- `update` changes one bit (41_pixelplot.md rule R88). -/
theorem update_getLsbD (b : Byte) {k j : Nat} (hk : k < 8) (hj : j < 8) (c : Color) :
    (update b k c).getLsbD j = if j = k then decide (c = .foreground) else b.getLsbD j := by
  cases c
  · simp only [update, BitVec.getLsbD_and, BitVec.getLsbD_not, one_shift_getLsbD hk hj, hj]
    by_cases h : j = k <;> simp [h]
  · simp only [update, BitVec.getLsbD_or, one_shift_getLsbD hk hj]
    by_cases h : j = k <;> simp [h]

/-- The pixel of a memory. -/
def Memory.pixel (m : Memory) (x y : Int) : Color :=
  if (m.read (locate x y).cell).getLsbD (bitIndex y) then .foreground else .background

theorem pixel_eq (s : State) (x y : Int) : s.pixel x y = s.disp.dram.pixel x y := rfl

/-- One plotted point changes one pixel (41_pixelplot.md rule R89). -/
theorem drawPoint_pixel (c : Color) (x y : Int) {k : Canvas} (hw : k.dram.wf = true) {u v : Int}
    (hu : onScreen u v = true) :
    (drawPoint c x y k).dram.pixel u v = if (u, v) = (x, y) then c else k.dram.pixel u v := by
  unfold drawPoint
  by_cases ho : onScreen x y = true
  · simp only [ho, if_true]
    unfold Memory.pixel
    rw [Memory.read_write hw]
    by_cases ha : locate u v = locate x y
    · rw [if_pos (congrArg Address.cell ha)]
      unfold plottedByte
      rw [update_getLsbD _ (bitIndex_lt y) (bitIndex_lt v)]
      by_cases hk : bitIndex v = bitIndex y
      · obtain ⟨rfl, rfl⟩ := locate_inj hu ho ha hk
        cases c <;> simp
      · have hne : (u, v) ≠ (x, y) := fun h => hk (by rw [(Prod.mk.inj h).2])
        simp [hk, hne, ha]
    · have hne : (u, v) ≠ (x, y) := fun h => ha (by rw [(Prod.mk.inj h).1, (Prod.mk.inj h).2])
      rw [if_neg fun h => ha (Address.cell_inj h), if_neg hne]
  · have hne : (u, v) ≠ (x, y) := fun h => ho (by rw [← (Prod.mk.inj h).1, ← (Prod.mk.inj h).2]; exact hu)
    simp [ho, hne]

theorem drawTask_wf (c : Color) (cury : Word) (t : Task) {k : Canvas} (hw : k.dram.wf = true) :
    (drawTask c cury t k).dram.wf = true := by
  have hp : ∀ x y, (drawPoint c x y k).dram.wf = true := fun x y => by
    unfold drawPoint; split
    · exact Memory.write_wf hw (Address.cell_lt _) _
    · exact hw
  have hb : ∀ x y v, (drawByte x y v k).dram.wf = true := fun x y v => by
    unfold drawByte; split
    · exact Memory.write_wf hw (Address.cell_lt _) _
    · exact hw
  cases t with
  | point x y => exact hp x y
  | store a v => exact Memory.write_wf hw (Address.cell_lt _) _
  | column ch i => exact hb _ _ _
  | dot ch i j =>
    show (if _ then _ else _ : Canvas).dram.wf = true
    split
    · exact hp _ _
    · exact hw
  | advance f => exact hw

theorem drawTasks_wf (c : Color) (cury : Word) (ts : List Task) {k : Canvas} (hw : k.dram.wf = true) :
    (drawTasks c cury ts k).dram.wf = true := by
  induction ts generalizing k with
  | nil => exact hw
  | cons t ts ih => exact ih (drawTask_wf c cury t hw)

/-- Drawing points sets exactly the named pixels (41_pixelplot.md rule R93). -/
theorem drawPoints_pixel (c : Color) (cury : Word) (ps : List (Int × Int)) {k : Canvas}
    (hw : k.dram.wf = true) {u v : Int} (hu : onScreen u v = true) :
    (drawTasks c cury (pointTasks ps) k).dram.pixel u v = if (u, v) ∈ ps then c else k.dram.pixel u v := by
  induction ps generalizing k with
  | nil => simp [pointTasks]
  | cons p ps ih =>
    have h1 : (drawTask c cury (.point p.1 p.2) k).dram.wf = true := drawTask_wf _ _ _ hw
    show (drawTasks c cury (pointTasks ps) (drawTask c cury (.point p.1 p.2) k)).dram.pixel u v = _
    rw [ih h1]
    show (if _ then _ else (drawPoint c p.1 p.2 k).dram.pixel u v) = _
    rw [drawPoint_pixel c p.1 p.2 hw hu]
    by_cases h : (u, v) ∈ ps
    · simp [h]
    · by_cases h' : (u, v) = p
      · simp [h']
      · simp [h, h']

theorem drawPoints_curx (c : Color) (cury : Word) (ps : List (Int × Int)) (k : Canvas) :
    (drawTasks c cury (pointTasks ps) k).curx = k.curx := by
  induction ps generalizing k with
  | nil => rfl
  | cons p ps ih =>
    show (drawTasks c cury (pointTasks ps) (drawPoint c p.1 p.2 k)).curx = _
    rw [ih]
    unfold drawPoint
    split <;> rfl

/-- Five transactions for each on-screen point, repeats counted (70_reset_and_hazards.md rule R157). -/
theorem drawPoints_count (c : Color) (cury : Word) (ps : List (Int × Int)) (k : Canvas) :
    (drawTasks c cury (pointTasks ps) k).trace.length =
      k.trace.length + 5 * (ps.filter fun p => onScreen p.1 p.2).length := by
  induction ps generalizing k with
  | nil => rfl
  | cons p ps ih =>
    show (drawTasks c cury (pointTasks ps) (drawPoint c p.1 p.2 k)).trace.length = _
    rw [ih]
    unfold drawPoint
    by_cases h : onScreen p.1 p.2 = true
    · simp only [h, if_true, List.filter_cons_of_pos, List.length_cons, List.length_append]
      simp only [plotTrace, List.length_cons, List.length_nil]; omega
    · simp [h]

end Sys2Proof.Machine
end

