-- ==== Sys2Proof/Laws/Drawing.lean ====
section
/-! SUPPORT. What the rasterizers' task lists draw: whole bytes, the columns of a glyph, the cursor after
glyphs; and which points a list of integers names. -/

namespace Sys2Proof.Machine

theorem mem_intRange (a b x : Int) : x ∈ intRange a b ↔ a ≤ x ∧ x ≤ b := by
  unfold intRange
  simp only [List.mem_map, List.mem_range]
  constructor
  · rintro ⟨n, h, rfl⟩; omega
  · rintro ⟨h1, h2⟩; exact ⟨(x - a).toNat, by omega, by omega⟩

/-! ### Whole bytes -/

/-- Storing one value at each of a list of addresses. -/
theorem drawStores_read (c : Color) (cury : Word) (v : Byte) (as : List Address) {k : Canvas}
    (hw : k.dram.wf = true) (a : Address) :
    (drawTasks c cury (as.map fun a => .store a v) k).dram.read a.cell =
      if a ∈ as then v else k.dram.read a.cell := by
  induction as generalizing k with
  | nil => simp
  | cons b as ih =>
    have h1 : (drawTask c cury (.store b v) k).dram.wf = true := drawTask_wf _ _ _ hw
    rw [List.map_cons, drawTasks_cons, ih h1]
    show (if _ then _ else (k.dram.write b.cell v).read a.cell) = _
    rw [Memory.read_write hw]
    by_cases h : a ∈ as
    · simp [h]
    · by_cases h' : a = b
      · simp [h']
      · have hc : a.cell ≠ b.cell := fun e => h' (Address.cell_inj e)
        simp [h, h', hc]

/-- The transactions of storing one value at each of a list of addresses. -/
theorem drawStores_trace (c : Color) (cury : Word) (v : Byte) (as : List Address) (k : Canvas) :
    (drawTasks c cury (as.map fun a => .store a v) k).trace =
      (as.flatMap fun a => (writeTrace a v).reverse).reverse ++ k.trace ∧
    (drawTasks c cury (as.map fun a => .store a v) k).curx = k.curx := by
  induction as generalizing k with
  | nil => simp
  | cons b as ih =>
    rw [List.map_cons, drawTasks_cons]
    obtain ⟨h1, h2⟩ := ih (drawTask c cury (.store b v) k)
    refine ⟨h1.trans ?_, h2⟩
    simp [drawTask, drawStore]

/-- The fill walk reaches every address (42_shapes.md rule R98). -/
theorem mem_fillAddresses (a : Address) : a ∈ fillAddresses := by
  obtain ⟨s, p, c⟩ := a
  unfold fillAddresses
  simp only [List.mem_flatMap, List.mem_map, List.mem_range]
  exact ⟨s, by cases s <;> simp, p.toNat, p.isLt, c.toNat, c.isLt, by simp⟩

theorem fillAddresses_length : fillAddresses.length = 1024 := by decide +kernel

/-! ### Glyphs -/

/-- Columns of an 8×8 glyph, each drawn at its own x. -/
theorem drawColumns (c : Color) (cury : Word) (ch : Byte) (is : List (Fin 8)) {k : Canvas}
    (hw : k.dram.wf = true) :
    (drawTasks c cury (is.map fun i => Task.column ch i) k).curx = k.curx ∧
    (∀ i ∈ is, onScreen (k.curx.toNat + i) cury.toNat = true →
      (drawTasks c cury (is.map fun i => Task.column ch i) k).dram.read
        (locate (k.curx.toNat + i) cury.toNat).cell = glyphByte (Config.font8 ch i) c) ∧
    (∀ a : Address, (∀ i ∈ is, onScreen (k.curx.toNat + i) cury.toNat = true →
        a ≠ locate (k.curx.toNat + i) cury.toNat) →
      (drawTasks c cury (is.map fun i => Task.column ch i) k).dram.read a.cell = k.dram.read a.cell) := by
  induction is generalizing k with
  | nil => exact ⟨rfl, by simp, by simp⟩
  | cons i is ih =>
    rw [List.map_cons, drawTasks_cons]
    generalize hk1 : drawTask c cury (.column ch i) k = k1
    have h1 : k1.dram.wf = true := hk1 ▸ drawTask_wf _ _ _ hw
    have hx : k1.curx = k.curx := by
      rw [← hk1]
      show (drawByte _ _ _ _).curx = _
      unfold drawByte
      split <;> rfl
    have hr : ∀ a : Address, k1.dram.read a.cell =
        if onScreen (k.curx.toNat + i) cury.toNat = true ∧ a = locate (k.curx.toNat + i) cury.toNat
        then glyphByte (Config.font8 ch i) c else k.dram.read a.cell := by
      intro a
      rw [← hk1]
      show (drawByte _ _ _ _).dram.read _ = _
      unfold drawByte
      by_cases ho : onScreen (k.curx.toNat + i) cury.toNat = true
      · rw [if_pos ho]
        show (k.dram.write _ _).read _ = _
        rw [Memory.read_write hw]
        by_cases h : a = locate (k.curx.toNat + i) cury.toNat
        · rw [if_pos (by rw [h]), if_pos ⟨ho, h⟩]
        · rw [if_neg fun e => h (Address.cell_inj e), if_neg fun e => h e.2]
      · rw [if_neg ho, if_neg fun e => ho e.1]
    obtain ⟨a1, a3, a4⟩ := ih h1
    have a1 := a1.trans hx
    rw [hx] at a3 a4
    refine ⟨a1, ?_, ?_⟩
    · intro j hj ho
      by_cases h : j ∈ is
      · exact a3 j h ho
      · obtain rfl : j = i := by simpa [h] using hj
        refine (a4 _ ?_).trans ?_
        · intro j' hj' ho' e
          have hx' := (locate_inj ho ho' e rfl).1
          have hjj : j = j' := by ext; omega
          exact h (hjj ▸ hj')
        · rw [hr, if_pos ⟨ho, rfl⟩]
    · intro a ha
      refine (a4 a fun j hj => ha j (List.mem_cons_of_mem _ hj)).trans ?_
      rw [hr, if_neg]
      rintro ⟨ho, e⟩
      exact ha i List.mem_cons_self ho e

theorem drawTask_curx (c : Color) (cury : Word) (ch : Byte) (k : Canvas) :
    (∀ i, (drawTask c cury (.column ch i) k).curx = k.curx) ∧
    (∀ i j, (drawTask c cury (.dot ch i j) k).curx = k.curx) := by
  have hp : ∀ x y, (drawPoint c x y k).curx = k.curx := fun x y => by unfold drawPoint; split <;> rfl
  refine ⟨fun i => ?_, fun i j => ?_⟩
  · show (drawByte _ _ _ _).curx = _
    unfold drawByte
    split <;> rfl
  · show (if _ then _ else _ : Canvas).curx = _
    split
    · exact hp _ _
    · rfl

/-- The transactions of columns of an 8×8 glyph: a byte write for each visible one. -/
theorem drawColumns_trace (c : Color) (cury : Word) (ch : Byte) (is : List (Fin 8)) (k : Canvas) :
    (drawTasks c cury (is.map fun i => Task.column ch i) k).trace =
      (is.flatMap fun (i : Fin 8) =>
        if onScreen (k.curx.toNat + i) cury.toNat = true then
          (writeTrace (locate (k.curx.toNat + i) cury.toNat) (glyphByte (Config.font8 ch i) c)).reverse
        else []).reverse ++ k.trace := by
  induction is generalizing k with
  | nil => rfl
  | cons i is ih =>
    have ht : (drawTask c cury (.column ch i) k).trace =
        (if onScreen (k.curx.toNat + i) cury.toNat = true then
          (writeTrace (locate (k.curx.toNat + i) cury.toNat) (glyphByte (Config.font8 ch i) c)).reverse
        else []).reverse ++ k.trace := by
      simp only [drawTask, drawByte]
      split <;> simp [drawStore]
    rw [List.map_cons, drawTasks_cons, ih, (drawTask_curx c cury ch k).1 i, ht, List.flatMap_cons,
      List.reverse_append, List.append_assoc]

/-- One glyph advances the cursor once (44_text.md rule R107). -/
theorem drawGlyph_curx (c : Color) (cury : Word) (f : Font) (ch : Byte) (k : Canvas) :
    (drawTasks c cury (glyphTasks f ch) k).curx = sat16 (k.curx.toNat + glyphStep f) := by
  have hc : ∀ i k, (drawTask c cury (.column ch i) k).curx = k.curx := fun i k => (drawTask_curx c cury ch k).1 i
  have hd : ∀ i j k, (drawTask c cury (.dot ch i j) k).curx = k.curx := fun i j k =>
    (drawTask_curx c cury ch k).2 i j
  unfold glyphTasks
  cases f
  · rw [drawTasks_append]
    show sat16 (_ + _) = _
    simp only [List.map_cons, List.map_nil, drawTasks_cons, drawTasks_nil, hc]
  · rw [drawTasks_append]
    show sat16 (_ + _) = _
    simp only [List.flatMap_cons, List.map_cons, List.map_nil, List.flatMap_nil, List.cons_append,
      List.nil_append, drawTasks_cons, drawTasks_nil, hd]

end Sys2Proof.Machine
end

