-- ==== Sys2Proof/Laws/Ending.lean ====
section
/-! SUPPORT. From a property that holds while a command runs to one that holds once it has ended, packaged
once for every command (`Run.exec`). -/

namespace Sys2Proof.Machine

/-- Each engine action keeps `P` while the command runs, and each way to end a command turns `P` into `Q`. -/
structure Run (P Q : State → Prop) : Prop where
  served : ∀ {s s'}, P s → serve s.host s = .go s' → P s'
  cut : ∀ {s s' c} t, P s → serve s.host s = .reset c s' →
    Q (engineReset s') ∧ Q (engineReset (if c then failed t s' else s'))
  completed : ∀ {s} t q, P s → P (completed t q s)
  timedOut : ∀ {s} t, P s → Q (timedOut t s)
  finish : ∀ {s}, P s → Q (finish .ok s)
  setTodo : ∀ {s} ts, P s → P (setTodo ts s)
  advance : ∀ {s} f, P s → P (advance f s)

/-- A flow that still runs with `P`, or has ended with `Q`. -/
inductive Flow.At (P Q : State → Prop) : Flow → Prop where
  | running {s : State} (h : P s) : Flow.At P Q (.running s)
  | ended {s : State} (h : Q s) : Flow.At P Q (.ended s)

namespace Run

variable {P Q : State → Prop}

theorem andThen {r : Flow} {f : State → Flow} (h : r.At P Q) (hf : ∀ {s}, P s → (f s).At P Q) :
    (r.andThen f).At P Q := by
  cases h with
  | running h => exact hf h
  | ended h => exact .ended h

theorem issue (hR : Run P Q) (t : Transaction) (q : SeqState) {s : State} (h : P s) :
    (issue t q s).At P Q := by
  rcases issue_cases t q s with ⟨s1, e, _, h1⟩ | ⟨s1, e, _, h1⟩ | ⟨c, s1, e, h1⟩ <;> rw [h1]
  · exact .running (hR.completed t q (hR.served h e))
  · exact .ended (hR.timedOut t (hR.served h e))
  · exact .ended (hR.cut t h e).2

theorem lastAction (hR : Run P Q) {f : State → State} (hf : ∀ {s}, P s → Q (f s)) {s : State} (h : P s) :
    Q (lastAction f s) := by
  rcases lastAction_cases f s with ⟨s1, e, h1⟩ | ⟨c, s1, e, h1⟩ <;> rw [h1]
  · exact hf (hR.served h e)
  · exact (hR.cut (.rd .left) h e).1

theorem internalAction (hR : Run P Q) {f : State → State} (hf : ∀ {s}, P s → P (f s)) {s : State} (h : P s) :
    (internalAction f s).At P Q := by
  rcases internalAction_cases f s with ⟨s1, e, h1⟩ | ⟨c, s1, e, h1⟩ <;> rw [h1]
  · exact .running (hf (hR.served h e))
  · exact .ended (hR.cut (.rd .left) h e).1

theorem raise (hR : Run P Q) {code : Result} (hc : ∀ {s}, P s → Q (abort code s)) {s : State} (h : P s) :
    (raise code s).At P Q := .ended (hR.lastAction hc h)

theorem close (hR : Run P Q) {r : Flow} (h : r.At P Q) : Q r.close := by
  cases h with
  | running h => exact hR.lastAction hR.finish h
  | ended h => exact h

theorem writeByte (hR : Run P Q) (a : Address) (v : Byte) {s : State} (h : P s) :
    (writeByte a v s).At P Q :=
  andThen (hR.issue _ _ h) fun h => hR.issue _ _ h

theorem plotCore (hR : Run P Q) (x y : Int) {s : State} (h : P s) : (plotCore x y s).At P Q :=
  andThen (andThen (hR.issue _ _ h) fun h => andThen (hR.issue _ _ h) fun h => hR.issue _ _ h)
    fun h => hR.writeByte _ _ h

theorem plotClipped (hR : Run P Q) (x y : Int) {s : State} (h : P s) : (plotClipped x y s).At P Q := by
  unfold Machine.plotClipped
  split
  · exact hR.plotCore x y h
  · exact .running h

theorem runTask (hR : Run P Q) (t : Task) {s : State} (h : P s) : (runTask t s).At P Q := by
  cases t with
  | point x y => exact hR.plotClipped x y h
  | store a v => exact hR.writeByte a v h
  | column ch i =>
    show (blitColumn ch i s).At P Q
    unfold blitColumn storeClipped
    split
    · exact hR.writeByte _ _ h
    · exact .running h
  | dot ch i j =>
    show (blitDot ch i j s).At P Q
    unfold blitDot
    split
    · exact hR.plotClipped _ _ h
    · exact .running h
  | advance f => exact hR.internalAction (hR.advance f) h

theorem runTasks (hR : Run P Q) (n : Nat) {s : State} (h : P s) : (runTasks n s).At P Q := by
  induction n generalizing s with
  | zero => exact .running h
  | succ n ih =>
    unfold Machine.runTasks
    split
    · exact .running h
    · exact andThen (hR.runTask _ (hR.setTodo _ h)) fun h => ih h

theorem raster (hR : Run P Q) (ts : List Task) {s : State} (h : P s) : (raster ts s).At P Q :=
  hR.runTasks _ (hR.setTodo ts h)

theorem runCommand (hR : Run P Q) (hr : ∀ {s}, P s → Q (abort .refused s)) {i : Instr}
    {body : State → Flow} {s : State} (h : P (startWork i s)) (hb : ∀ {s}, P s → (body s).At P Q) :
    Q (runCommand i body s) := by
  unfold Machine.runCommand Machine.runAlways
  refine hR.close ?_
  beta_reduce
  split
  · exact hR.raise hr h
  · exact hb h

/-- Every command but INIT and SETCUR ends in a state with `Q`, if an abort with BAD_COMMAND, REFUSED and,
for PLOT, OUT_OF_RANGE does. -/
theorem drawing (hR : Run P Q) (hr : ∀ {s}, P s → Q (abort .refused s))
    (hb : ∀ {s}, P s → Q (abort .badCommand s)) (i : Instr) (hi : ∀ u, i ≠ .init u) (hc : ∀ u, i ≠ .setcur u)
    (ho : (∃ c u, i = .plot c u) → ∀ {s}, P s → Q (abort .outOfRange s)) (s : State)
    (h : P (startWork i s)) : ∃ t, exec i s = .next t ∧ Q t := by
  cases i with
  | nop u => exact ⟨_, exec_nop u s, hR.runCommand hr h .running⟩
  | init u => exact absurd rfl (hi u)
  | plot c u =>
    refine ⟨_, exec_plot c u s, hR.runCommand hr h fun {s} h => ?_⟩
    unfold plotBody
    split
    · exact hR.plotCore _ _ h
    · exact hR.raise (ho ⟨c, u, rfl⟩) h
  | rect c u => exact ⟨_, exec_rect c u s, hR.runCommand hr h fun h => by unfold rectBody; exact hR.raster _ h⟩
  | fill c u => exact ⟨_, exec_fill c u s, hR.runCommand hr h fun h => by unfold fillBody; exact hR.raster _ h⟩
  | circle c u =>
    exact ⟨_, exec_circle c u s, hR.runCommand hr h fun h => by unfold circleBody; exact hR.raster _ h⟩
  | char8 c u =>
    exact ⟨_, exec_char8 c u s, hR.runCommand hr h fun h => by unfold char8Body; exact hR.raster _ h⟩
  | char3 c u =>
    exact ⟨_, exec_char3 c u s, hR.runCommand hr h fun h => by unfold char3Body; exact hR.raster _ h⟩
  | string c f =>
    refine ⟨_, exec_string c f s, hR.runCommand hr h fun {s} h => ?_⟩
    unfold stringBody
    split
    · exact hR.raise hb h
    · exact hR.raster _ h
  | setcur u => exact absurd rfl (hc u)

/-- Every command ends in a state with `Q`, if the effects of INIT and SETCUR give it too. -/
theorem exec (hR : Run P Q) (hr : ∀ {s}, P s → Q (abort .refused s))
    (hb : ∀ {s}, P s → Q (abort .badCommand s)) (ha : ∀ {s}, P s → P (acknowledge s))
    (hi : ∀ {s}, P s → Q (Machine.finish .ok (homeCursor s)))
    (hc : ∀ {s}, P s → Q (Machine.finish .ok (setCursor s))) (i : Instr)
    (ho : (∃ c u, i = .plot c u) → ∀ {s}, P s → Q (abort .outOfRange s)) (s : State)
    (h : P (startWork i s)) : ∃ t, Machine.exec i s = .next t ∧ Q t := by
  by_cases h1 : ∃ u, i = .init u
  · obtain ⟨u, rfl⟩ := h1
    exact ⟨_, exec_init u s, hR.close (andThen (hR.internalAction ha h) fun h => .ended (hR.lastAction hi h))⟩
  · by_cases h2 : ∃ u, i = .setcur u
    · obtain ⟨u, rfl⟩ := h2
      exact ⟨_, exec_setcur u s, hR.runCommand hr h fun h => .ended (hR.lastAction hc h)⟩
    · exact hR.drawing hr hb i (fun u e => h1 ⟨u, e⟩) (fun u e => h2 ⟨u, e⟩) ho s h

end Run

/-- A state in which a command has ended. -/
def Ended (s : State) : Prop := s.busy = false ∧ s.seq = .idle

theorem run_ended : Run (fun _ => True) Ended where
  served _ _ := trivial
  cut _ _ _ := ⟨⟨rfl, rfl⟩, ⟨rfl, rfl⟩⟩
  completed _ _ _ := trivial
  timedOut _ _ := ⟨rfl, rfl⟩
  finish _ := ⟨rfl, rfl⟩
  setTodo _ _ := trivial
  advance _ _ := trivial

end Sys2Proof.Machine
end

