-- ==== Sys2Proof/Laws/Host.lean ====
section
/-! SUPPORT. The Host's accesses: what each register number reads and writes, and what a step does with a
host event. -/

namespace Sys2Proof.Machine

/-- An access names the register `off / 2` (20_memory.md rules R40, R41). -/
theorem wordOffset_eq (off : BitVec 7) : wordOffset off = 2 * (off.toNat / 2) := by
  revert off; decide

/-- The buffer after a write of CHARBUF word `j`. -/
def setCharWord (b : Vector Byte 64) (j : Nat) (v : Word) : Vector Byte 64 :=
  (b.setIfInBounds (2 * j) (v.extractLsb' 0 8)).setIfInBounds (2 * j + 1) (v.extractLsb' 8 8)

theorem charAt_with_charbuf (s : State) (b : Vector Byte 64) (k : Nat) :
    ({ s with charbuf := b } : State).charAt k = if h : k < 64 then b[k] else 0 := rfl

/-- A write of CHARBUF word `j` (20_memory.md rule R42). -/
theorem hostWrite_charbuf {off : BitVec 7} {j : Nat} (v : Word) {s : State} (hb : s.busy = false)
    (hj : j < 32) (h : off.toNat / 2 = 8 + j) :
    hostWrite off v s = { s with charbuf := setCharWord s.charbuf j v } := by
  unfold hostWrite
  have e : 2 * (8 + j) - 16 = 2 * j := by omega
  rw [wordOffset_eq, h]
  simp only [hb, e]
  rw [if_neg (by simp), if_neg (by omega), if_neg (by omega), if_neg (by omega), if_neg (by omega),
    if_neg (by omega), if_pos (by omega)]
  rfl

/-- The characters after a write of CHARBUF word `j`. -/
theorem charAt_set_word (v : Word) (s : State) {j : Nat} (hj : j < 32) (k : Nat) :
    ({ s with charbuf := setCharWord s.charbuf j v } : State).charAt k =
      if k = 2 * j then v.extractLsb' 0 8 else if k = 2 * j + 1 then v.extractLsb' 8 8 else s.charAt k := by
  rw [charAt_with_charbuf]
  unfold State.charAt setCharWord
  by_cases h : k < 64
  · simp only [h, dif_pos, Vector.getElem_setIfInBounds]
    split_ifs <;> first | omega | rfl
  · simp only [h, dif_neg, not_false_eq_true]
    split_ifs <;> first | omega | rfl

/-- A host write changes none of the display, SEQ, RESULT and FAULT. -/
theorem hostWrite_keeps (off : BitVec 7) (v : Word) (s : State) :
    (hostWrite off v s).disp = s.disp ∧ (hostWrite off v s).seq = s.seq ∧
    (hostWrite off v s).result = s.result ∧ (hostWrite off v s).fault = s.fault := by
  unfold hostWrite
  split
  · exact ⟨rfl, rfl, rfl, rfl⟩
  · dsimp only
    split_ifs <;> exact ⟨rfl, rfl, rfl, rfl⟩

/-- A host write that starts no command leaves BUSY alone. -/
theorem hostWrite_busy {off : BitVec 7} {v : Word} {s : State} (h : commandOf (.w16 off v) s = none) :
    (hostWrite off v s).busy = s.busy := by
  unfold hostWrite
  unfold commandOf at h
  split
  · rfl
  · next hb =>
    have h0 : wordOffset off ≠ 0 := fun e => by simp [hb, e] at h
    dsimp only
    rw [if_neg h0]
    split_ifs <;> rfl

/-- The registers a command never writes read the same before and after it (10_state.md rule R37). -/
theorem hostRead_sameOperands {off : BitVec 7} (h1 : off.toNat / 2 ≠ 1) (h2 : off.toNat / 2 ≠ 6)
    (h3 : off.toNat / 2 ≠ 7) {s t : State} (h : sameOperands s t) : hostRead off t = hostRead off s := by
  obtain ⟨hcmd, h0, h1', h2', h3', hbuf⟩ := h
  have hc : ∀ k, t.charAt k = s.charAt k := fun k => by unfold State.charAt; rw [hbuf]
  unfold hostRead State.charWord
  rw [wordOffset_eq, hcmd, h0, h1', h2', h3']
  simp only [hc]
  have e1 : 2 * (off.toNat / 2) ≠ 2 := by omega
  have e2 : 2 * (off.toNat / 2) ≠ 12 := by omega
  have e3 : 2 * (off.toNat / 2) ≠ 14 := by omega
  simp only [e1, e2, e3, if_false]

/-- A step on a host event that starts no command. -/
theorem step_event {s : State} {e : HostEvent} {rest : List HostEvent} (h : s.host = e :: rest)
    (hc : commandOf e s = none) : step s = .next (hostAct e { s with host := rest }) := by
  unfold step
  rw [h]
  simp only [hc]

/-- A step on a write to CMD while BUSY = 0: the command runs with CMD stored and BUSY set. -/
theorem step_command {s : State} {off : BitVec 7} {w : Word} {rest : List HostEvent}
    (h : s.host = .w16 off w :: rest) (ho : off.toNat / 2 = 0) (hb : s.busy = false) :
    step s = match decodeWord w with
      | .ok i => exec i { s with cmd := w, busy := true, host := rest }
      | .error _ => .next (rejectCommand { s with cmd := w, busy := true, host := rest }) := by
  have ho' : wordOffset off = 0 := by rw [wordOffset_eq, ho]
  have hc : commandOf (.w16 off w) s = some w := by simp [commandOf, hb, ho']
  have ha : hostAct (.w16 off w) { s with host := rest } =
      { s with cmd := w, busy := true, host := rest } := by
    simp [hostAct, hostWrite, ho', hb]
  unfold step
  rw [h]
  cases hw : decodeWord w <;> simp only [hc, ha, hw]

/-- A step on a write to another register while BUSY = 0. -/
theorem step_write {s : State} {off : BitVec 7} {v : Word} {rest : List HostEvent}
    (h : s.host = .w16 off v :: rest) (ho : off.toNat / 2 ≠ 0) :
    step s = .next (hostWrite off v { s with host := rest }) := by
  have ho' : wordOffset off ≠ 0 := by rw [wordOffset_eq]; omega
  exact step_event h (by simp [commandOf, ho'])

end Sys2Proof.Machine
end

