-- ==== Sys2Proof/Laws/PerInstr.lean ====
section
/-! SUPPORT. The per-instruction family: every command's word is well formed and carries its opcode. -/

namespace Sys2Proof.Laws.EncodedWellFormed

/-- The word of a command is well formed (30_encoding.md rule R71) and its OPC field is the command's own
(rule R65). -/
def Statement (i : Instr) : Prop :=
  wordWellFormed (encode i) = true ∧ (encode i &&& 0xF#16).toNat = (opcodeOf i).toNat

theorem nop (unused : BitVec 2) : Statement (.nop unused) := by
  unfold Statement; revert unused; decide
theorem init (unused : BitVec 2) : Statement (.init unused) := by
  unfold Statement; revert unused; decide
theorem plot (color : Color) (unused : BitVec 1) : Statement (.plot color unused) := by
  unfold Statement; revert unused; cases color <;> decide
theorem rect (color : Color) (unused : BitVec 1) : Statement (.rect color unused) := by
  unfold Statement; revert unused; cases color <;> decide
theorem fill (color : Color) (unused : BitVec 1) : Statement (.fill color unused) := by
  unfold Statement; revert unused; cases color <;> decide
theorem circle (color : Color) (unused : BitVec 1) : Statement (.circle color unused) := by
  unfold Statement; revert unused; cases color <;> decide
theorem char8 (color : Color) (unused : BitVec 1) : Statement (.char8 color unused) := by
  unfold Statement; revert unused; cases color <;> decide
theorem char3 (color : Color) (unused : BitVec 1) : Statement (.char3 color unused) := by
  unfold Statement; revert unused; cases color <;> decide
theorem string (color : Color) (font : Font) : Statement (.string color font) := by
  unfold Statement; cases color <;> cases font <;> decide
theorem setcur (unused : BitVec 2) : Statement (.setcur unused) := by
  unfold Statement; revert unused; decide

end Sys2Proof.Laws.EncodedWellFormed
end

