-- ==== Sys2Proof/Laws/Sequencing.lean ====
section
/-! SUPPORT. The transactions a rasterizer issues, as moves of the sequencer (40_addressing.md rule R81):
each drawing operation goes from IDLE back to IDLE, and one that times out is the last. -/

namespace Sys2Proof.Machine

/-- Transactions that completed, as a path through the sequencer's table. -/
inductive SeqPath : SeqState → Option Address → List (Transaction × Answer) → SeqState → Option Address → Prop where
  | nil {q : SeqState} {m : Option Address} : SeqPath q m [] q m
  | cons {q q' q2 : SeqState} {m m' m2 : Option Address} {t : Transaction}
      {ts : List (Transaction × Answer)} :
      SeqMove q m t q' m' → SeqPath q' m' ts q2 m2 → SeqPath q m ((t, .ok) :: ts) q2 m2

namespace SeqPath

variable {q q2 q3 : SeqState} {m m2 m3 : Option Address} {ts us : List (Transaction × Answer)}

theorem run (h : SeqPath q m ts q2 m2) (h' : SeqRun q2 m2 us) : SeqRun q m (ts ++ us) := by
  induction h with
  | nil => exact h'
  | cons a _ ih => exact .move a (ih h')

theorem trans (h : SeqPath q m ts q2 m2) (h' : SeqPath q2 m2 us q3 m3) : SeqPath q m (ts ++ us) q3 m3 := by
  induction h with
  | nil => exact h'
  | cons a _ ih => exact .cons a (ih h')

end SeqPath

/-- A flow that has moved the sequencer from one place to another, or has ended legally. -/
inductive Flow.Moves (q : SeqState) (m : Option Address) (q2 : SeqState) (m2 : Option Address) (s : State) :
    Flow → Prop where
  | running {s' : State} (new : List (Transaction × Answer)) (h : issued s s' new)
      (hn : s'.noReset = true) (p : SeqPath q m new q2 m2) : Flow.Moves q m q2 m2 s (.running s')
  | ended {s' : State} (new : List (Transaction × Answer)) (h : issued s s' new) (p : SeqRun q m new) :
      Flow.Moves q m q2 m2 s (.ended s')

variable {q q2 q3 : SeqState} {m m2 m3 : Option Address}

theorem issued_trans {a b c : State} {n1 n2 : List (Transaction × Answer)} (h1 : issued a b n1)
    (h2 : issued b c n2) : issued a c (n1 ++ n2) := by
  unfold issued at *
  rw [h2, h1]
  simp

/-- One transaction is one move. -/
theorem issue_moves {s : State} {t : Transaction} (hn : s.noReset = true) (h : SeqMove q m t q2 m2)
    (after : SeqState) : (issue t after s).Moves q m q2 m2 s := by
  rcases issue_cases t after s with ⟨s1, e, _, h1⟩ | ⟨s1, e, _, h1⟩ | ⟨c, s1, e, h1⟩ <;> rw [h1]
  · have ht : s1.trace = s.trace := by rw [(serve_go e).1]
    refine .running [(t, .ok)] ?_ (show s1.noReset = true from noReset_serve e hn) (.cons h .nil)
    show _ :: s1.trace = _
    rw [ht]; rfl
  · have ht : s1.trace = s.trace := by rw [(serve_go e).1]
    refine .ended [(t, .timeout)] ?_ (.timeout h)
    show (t, .timeout) :: s1.trace = _
    rw [ht]; rfl
  · obtain ⟨a, e'⟩ := serve_of_noReset s hn
    rw [e] at e'; cases e'

theorem andThen_moves {s : State} {r : Flow} {f : State → Flow} (h : r.Moves q m q2 m2 s)
    (hf : ∀ s', s'.noReset = true → (f s').Moves q2 m2 q3 m3 s') : (r.andThen f).Moves q m q3 m3 s := by
  cases h with
  | running new h hn p =>
    rename_i s'
    have h2 := hf _ hn
    show (f s').Moves q m q3 m3 s
    generalize f s' = r2 at h2
    cases h2 with
    | running n2 h2 hn2 p2 => exact .running (new ++ n2) (issued_trans h h2) hn2 (p.trans p2)
    | ended n2 h2 p2 => exact .ended (new ++ n2) (issued_trans h h2) (p.run p2)
  | ended new h p => exact .ended new h p

/-- A flow from IDLE to IDLE. -/
abbrev Flow.Cycles (s : State) (r : Flow) : Prop := r.Moves .idle none .idle none s

theorem running_cycles {s s' : State} (h : s'.trace = s.trace) (hn : s'.noReset = true) :
    (Flow.running s').Cycles s := .running [] h hn .nil

theorem cycles_of_trace {s s0 : State} {r : Flow} (h : r.Cycles s) (e : s.trace = s0.trace) :
    r.Cycles s0 := by
  cases h with
  | running new h hn p => exact .running new (by unfold issued at *; rw [h, e]) hn p
  | ended new h p => exact .ended new (by unfold issued at *; rw [h, e]) p

/-- An action without a transaction moves nothing. -/
theorem internalAction_cycles {f : State → State} (hf : ∀ s, (f s).trace = s.trace ∧ (f s).host = s.host)
    {s : State} (hn : s.noReset = true) : (internalAction f s).Cycles s := by
  rcases internalAction_cases f s with ⟨s1, e, h⟩ | ⟨c, s1, e, h⟩
  · have ht : s1.trace = s.trace := by rw [(serve_go e).1]
    rw [h]
    exact running_cycles ((hf s1).1.trans ht) (by unfold State.noReset; rw [(hf s1).2]; exact noReset_serve e hn)
  · obtain ⟨a, e'⟩ := serve_of_noReset s hn
    rw [e] at e'; cases e'

theorem writeByte_cycles (a : Address) (v : Byte) {s : State} (hn : s.noReset = true) :
    (writeByte a v s).Cycles s :=
  andThen_moves (issue_moves hn (.selectToWrite a) _) fun _ hn => issue_moves hn (.write a v) _

theorem plotCore_cycles (x y : Int) {s : State} (hn : s.noReset = true) : (plotCore x y s).Cycles s :=
  andThen_moves
    (andThen_moves (issue_moves hn (.selectToRead _) _) fun _ hn =>
      andThen_moves (issue_moves hn (.throwaway _) _) fun _ hn => issue_moves hn (.trueRead _) _)
    fun _ hn => andThen_moves (issue_moves hn (.reselect _) _) fun _ hn => issue_moves hn (.write _ _) _

theorem plotClipped_cycles (x y : Int) {s : State} (hn : s.noReset = true) :
    (plotClipped x y s).Cycles s := by
  unfold plotClipped
  split
  · exact plotCore_cycles x y hn
  · exact running_cycles rfl hn

theorem runTask_cycles (t : Task) {s : State} (hn : s.noReset = true) : (runTask t s).Cycles s := by
  cases t with
  | point x y => exact plotClipped_cycles x y hn
  | store a v => exact writeByte_cycles a v hn
  | column ch i =>
    show (blitColumn ch i s).Cycles s
    unfold blitColumn storeClipped
    split
    · exact writeByte_cycles _ _ hn
    · exact running_cycles rfl hn
  | dot ch i j =>
    show (blitDot ch i j s).Cycles s
    unfold blitDot
    split
    · exact plotClipped_cycles _ _ hn
    · exact running_cycles rfl hn
  | advance f => exact internalAction_cycles (f := Machine.advance f) (fun _ => ⟨rfl, rfl⟩) hn

theorem runTasks_cycles (n : Nat) {s : State} (hn : s.noReset = true) : (runTasks n s).Cycles s := by
  induction n generalizing s with
  | zero => exact running_cycles rfl hn
  | succ n ih =>
    unfold runTasks
    split
    · exact running_cycles rfl hn
    · exact andThen_moves (cycles_of_trace (runTask_cycles _ (s := setTodo _ s) hn) rfl) fun _ hn => ih hn

/-- A rasterizer's transactions are legal, whatever the Bus answers. -/
theorem raster_cycles (ts : List Task) {s : State} (hn : s.noReset = true) : (raster ts s).Cycles s :=
  cycles_of_trace (runTasks_cycles (s := setTodo ts s) _ hn) rfl

/-- The last action of a command issues nothing. -/
theorem lastAction_trace {f : State → State} (hf : ∀ s, (f s).trace = s.trace) {s : State}
    (hn : s.noReset = true) : (lastAction f s).trace = s.trace := by
  rcases lastAction_cases f s with ⟨a, e, h⟩ | ⟨c, a, e, _⟩
  · have ht : a.trace = s.trace := by rw [(serve_go e).1]
    rw [h]
    exact (hf a).trans ht
  · obtain ⟨a, e'⟩ := serve_of_noReset s hn
    rw [e] at e'; cases e'

theorem abort_trace (c : Result) (s : State) : (abort c s).trace = s.trace := by
  unfold abort; split <;> rfl

end Sys2Proof.Machine
end

