-- ==== Sys2Proof/Tests/Slice0.lean ====
section
/-! SUPPORT. Small tests. Expected values come from spec/: the vectors of 95_test_vectors.md, named in each
comment, or the rule named there. Then one witness for each statement that has hypotheses. -/

namespace Sys2Proof.Tests

open Sys2Proof.Machine

/-! ### Well-formedness: an ill-formed term for each check -/

/-- R68, R67, R71 -/
theorem test_word_wf : wordWellFormed 0x0039#16 = true ∧ wordWellFormed 0x0040#16 = false ∧
    wordWellFormed 0x8002#16 = false ∧ wordWellFormed 0x000A#16 = false := by decide

/-- R72, HOST_AW and HOST_W of R5 -/
theorem test_access_wf : (Line.w16 127 65535).wf = true ∧ (Line.w16 128 0).wf = false ∧
    (Line.w16 0 65536).wf = false ∧ (Line.r16 127).wf = true ∧ (Line.r16 128).wf = false ∧
    Line.wait.wf = true ∧ Line.nop.wf = true ∧ (Line.init 65535).wf = true ∧
    (Line.init 65536).wf = false := by decide

/-- R66 -/
theorem test_plot_wf : (Line.plot .foreground (-32768) 32767).wf = true ∧
    (Line.plot .foreground 32768 0).wf = false ∧ (Line.plot .foreground 0 (-32769)).wf = false := by decide

theorem test_rect_wf : (Line.rect .foreground (-32768) 32767 32767 (-32768)).wf = true ∧
    (Line.rect .foreground 32768 0 0 0).wf = false ∧ (Line.rect .foreground 0 32768 0 0).wf = false ∧
    (Line.rect .foreground 0 0 (-32769) 0).wf = false ∧
    (Line.rect .foreground 0 0 0 (-32769)).wf = false := by decide

theorem test_circle_wf : (Line.circle .foreground 32767 (-32768) 65535).wf = true ∧
    (Line.circle .foreground 32768 0 0).wf = false ∧ (Line.circle .foreground 0 32768 0).wf = false ∧
    (Line.circle .foreground 0 0 65536).wf = false := by decide

theorem test_text_wf : (Line.char8 .foreground 255).wf = true ∧ (Line.char8 .foreground 256).wf = false ∧
    (Line.char3 .foreground 255).wf = true ∧ (Line.char3 .foreground 256).wf = false ∧
    (Line.string .f8x8 .foreground 65535).wf = true ∧ (Line.string .f8x8 .foreground 65536).wf = false ∧
    (Line.setcur 65535 65535).wf = true ∧ (Line.setcur 65536 0).wf = false ∧
    (Line.setcur 0 65536).wf = false := by decide

/-- R73 -/
theorem test_pseudo_wf : Line.cls.wf = true ∧ (Line.fill .foreground).wf = true ∧
    (Line.hline .foreground 32768 0 0).wf = false ∧ (Line.hline .foreground 0 32768 0).wf = false ∧
    (Line.hline .foreground 0 0 32768).wf = false ∧ (Line.vline .foreground 32768 0 0).wf = false ∧
    (Line.vline .foreground 0 32768 0).wf = false ∧ (Line.vline .foreground 0 0 32768).wf = false ∧
    (Line.goto 65536 0).wf = false ∧ (Line.goto 0 65536).wf = false ∧
    (Line.puts .f8x8 .foreground (List.replicate 64 255)).wf = true ∧
    (Line.puts .f8x8 .foreground [256]).wf = false ∧
    (Line.puts .f8x8 .foreground (List.replicate 65 0)).wf = false := by decide

/-! ### Decoding: words written out from R63 (RSVD 15:6, FONT 5, COLOR 4, OPC 3:0) and R65 -/

theorem test_decode_nop : decodeWord 0b0000000000_1_1_0000#16 = .ok (.nop 3) := rfl
theorem test_decode_init : decodeWord 0b0000000000_0_1_0001#16 = .ok (.init 1) := rfl
theorem test_decode_plot : decodeWord 0b0000000000_0_1_0010#16 = .ok (.plot .foreground 0) ∧
    decodeWord 0b0000000000_1_0_0010#16 = .ok (.plot .background 1) := ⟨rfl, rfl⟩
theorem test_decode_rect : decodeWord 0b0000000000_0_1_0011#16 = .ok (.rect .foreground 0) ∧
    decodeWord 0b0000000000_0_0_0011#16 = .ok (.rect .background 0) := ⟨rfl, rfl⟩
theorem test_decode_fill : decodeWord 0b0000000000_1_0_0100#16 = .ok (.fill .background 1) ∧
    decodeWord 0b0000000000_0_1_0100#16 = .ok (.fill .foreground 0) := ⟨rfl, rfl⟩
theorem test_decode_circle : decodeWord 0b0000000000_0_1_0101#16 = .ok (.circle .foreground 0) ∧
    decodeWord 0b0000000000_0_0_0101#16 = .ok (.circle .background 0) := ⟨rfl, rfl⟩
theorem test_decode_char8 : decodeWord 0b0000000000_0_1_0110#16 = .ok (.char8 .foreground 0) ∧
    decodeWord 0b0000000000_0_0_0110#16 = .ok (.char8 .background 0) := ⟨rfl, rfl⟩
theorem test_decode_char3 : decodeWord 0b0000000000_0_1_0111#16 = .ok (.char3 .foreground 0) ∧
    decodeWord 0b0000000000_0_0_0111#16 = .ok (.char3 .background 0) := ⟨rfl, rfl⟩
theorem test_decode_string : decodeWord 0b0000000000_1_1_1000#16 = .ok (.string .foreground .f3x6) ∧
    decodeWord 0b0000000000_0_1_1000#16 = .ok (.string .foreground .f8x8) ∧
    decodeWord 0b0000000000_1_0_1000#16 = .ok (.string .background .f3x6) := ⟨rfl, rfl, rfl⟩
theorem test_decode_setcur : decodeWord 0b0000000000_0_1_1001#16 = .ok (.setcur 1) := rfl
theorem test_decode_reserved : decodeWord 0x000A#16 = .error .reservedOpcode ∧
    decodeWord 0x000F#16 = .error .reservedOpcode ∧ decodeWord 0x0040#16 = .error .reservedBits ∧
    decodeWord 0x8002#16 = .error .reservedBits := ⟨rfl, rfl, rfl, rfl⟩
theorem test_decode_table_word : decodeTableWord 16 0x0012 = some (.plot .foreground 0) ∧
    decodeTableWord 16 0x000A = none := by decide

/-! ### Assembly (programs P1 and P3) -/

theorem test_assemble_plot : assemble (.plot .foreground 5 10) =
    [.w16 0x04 0x0005, .w16 0x06 0x000A, .w16 0x00 0x0012, .wait] := by decide
theorem test_assemble_rect : assemble (.rect .foreground 10 10 20 5) =
    [.w16 0x04 0x000A, .w16 0x06 0x000A, .w16 0x08 0x0014, .w16 0x0A 0x0005, .w16 0x00 0x0013, .wait] := by
  decide
theorem test_assemble_puts : assemble (.puts .f8x8 .foreground [0x41, 0x41]) =
    [.w16 0x10 0x4141, .w16 0x04 0x0002, .w16 0x00 0x0018, .wait] := by decide
/-- V-PP6: ARG0 of x = -1. -/
theorem test_assemble_negative : assemble (.plot .foreground (-1) 5) =
    [.w16 0x04 0xFFFF, .w16 0x06 0x0005, .w16 0x00 0x0012, .wait] := by decide

/-! ### One step -/

/-- The state after reset, with operands. -/
def withArgs (a0 a1 a2 a3 : Word) : State :=
  { State.reset with arg0 := a0, arg1 := a1, arg2 := a2, arg3 := a3 }

/-- The state the placed word `w` leads to in one step. -/
def runWord (w : Nat) (s : State) : State :=
  match step (s.withFetchWord 16 w) with
  | .next t => t
  | .fault _ => s
  | .refused _ => s

/-- V-AD1 -/
theorem test_locate : locate 70 45 = ⟨.right, 5, 6⟩ ∧ bitIndex 45 = 5 ∧ locate 63 7 = ⟨.left, 0, 63⟩ ∧
    bitIndex 7 = 7 ∧ onScreen 127 63 = true ∧ onScreen 128 0 = false ∧ onScreen (-1) 5 = false ∧
    onScreen 0 64 = false := by decide

/-- V-PP1 -/
theorem test_update : update 0x00 5 .foreground = 0x20 ∧ update 0xFF 0 .background = 0xFE ∧
    update 0x24 2 .foreground = 0x24 ∧ update 0x24 2 .background = 0x20 ∧
    update 0x80 7 .background = 0x00 := by decide

/-- V-DC1 -/
theorem test_nop : (runWord 0x0030 State.reset).statusWord = 0x0000 ∧
    (runWord 0x0030 State.reset).cmd = 0x0030 := by decide

/-- V-DC3, step 4 -/
theorem test_init : (runWord 0x0001 { State.reset with fault := true, result := .hwTimeout, curx := 9, cury := 7 }).statusWord = 0 ∧
    (runWord 0x0001 { State.reset with fault := true, result := .hwTimeout, curx := 9, cury := 7 }).curx = 0 := by decide

/-- V-PP2: the start state, D[L][1][6] = 0x99 and OUT_LATCH[L] = 0x55. -/
def beforePlot : State :=
  { withArgs 5 13 0 0 with
    disp := { dram := [⟨70, 0x99⟩], left := { page := 0, col := 0, latch := 0x55 }, right := Chip.reset } }

/-- V-PP2 -/
theorem test_plot : (runWord 0x0012 beforePlot).trace.reverse =
      [(.sel .left 1 5, .ok), (.rd .left, .ok), (.rd .left, .ok), (.sel .left 1 5, .ok), (.wr .left 0x20, .ok)] ∧
    (runWord 0x0012 beforePlot).disp =
      { dram := [⟨69, 0x20⟩, ⟨70, 0x99⟩], left := { page := 1, col := 6, latch := 0x99 },
        right := Chip.reset } := by decide

/-- V-PP6 -/
theorem test_plot_out_of_range : (runWord 0x0012 (withArgs 0xFFFF 5 0 0)).statusWord = 0x0002 ∧
    (runWord 0x0012 (withArgs 0xFFFF 5 0 0)).trace = [] := by decide

/-- V-RC3: a line across the two chips. -/
theorem test_rect : (runWord 0x0013 (withArgs 62 3 66 3)).disp.dram =
      [⟨62, 0x08⟩, ⟨63, 0x08⟩, ⟨512, 0x08⟩, ⟨513, 0x08⟩, ⟨514, 0x08⟩] ∧
    (runWord 0x0013 (withArgs 62 3 66 3)).trace.length = 60 := by decide +kernel

/-- V-RC2: a clipped rectangle. -/
theorem test_rect_clipped : (runWord 0x0013 (withArgs 120 60 130 70)).disp.dram =
      [⟨1016, 0xF0⟩, ⟨1017, 0x10⟩, ⟨1018, 0x10⟩, ⟨1019, 0x10⟩, ⟨1020, 0x10⟩, ⟨1021, 0x10⟩, ⟨1022, 0x10⟩,
        ⟨1023, 0x10⟩] ∧
    (runWord 0x0013 (withArgs 120 60 130 70)).trace.length = 60 := by decide +kernel

/-- V-FL2 with FG: the WR of the third byte times out. -/
theorem test_fill_timeout :
    (runWord 0x0014 { State.reset with answers := [.ok, .ok, .ok, .ok, .ok, .timeout] }).statusWord = 0x0014 ∧
    (runWord 0x0014 { State.reset with answers := [.ok, .ok, .ok, .ok, .ok, .timeout] }).trace.length = 6 := by
  decide +kernel

/-- V-CI3 -/
theorem test_circle : (runWord 0x0015 (withArgs 20 20 2 0)).disp.dram =
      [⟨146, 0x38⟩, ⟨147, 0x44⟩, ⟨148, 0x44⟩, ⟨149, 0x44⟩, ⟨150, 0x38⟩] ∧
    (runWord 0x0015 (withArgs 20 20 2 0)).trace.length = 80 := by decide +kernel

/-- V-CI5: a clipped circle. -/
theorem test_circle_clipped : (runWord 0x0015 (withArgs 0 0 2 0)).disp.dram =
      [⟨0, 0x04⟩, ⟨1, 0x04⟩, ⟨2, 0x03⟩] ∧
    (runWord 0x0015 (withArgs 0 0 2 0)).trace.length = 30 := by decide +kernel

/-- V-TX4: the last two columns left of the chips' border and the first one right of it. -/
theorem test_char8 : ((runWord 0x0016 { withArgs 0x41 0 0 0 with curx := 60, cury := 8 }).trace.reverse.drop 4).take 6 =
    [(.sel .left 1 62, .ok), (.wr .left (Config.font8 0x41 2), .ok),
     (.sel .left 1 63, .ok), (.wr .left (Config.font8 0x41 3), .ok),
     (.sel .right 1 0, .ok), (.wr .right (Config.font8 0x41 4), .ok)] := rfl

/-- V-TX5: clipped at the right edge. -/
theorem test_char8_clipped :
    (runWord 0x0016 { withArgs 0x41 0 0 0 with curx := 124 }).trace.length = 8 := by decide

/-- V-TX7: a mask bit that is 1 is plotted, in row CURY + j of column CURX + i. -/
theorem test_char3_dot (h : (Config.font3 0x01 2).getLsbD (3 : Fin 6) = true) :
    blitDot 0x01 2 3 { State.reset with curx := 10, cury := 5 } =
      plotClipped 12 8 { State.reset with curx := 10, cury := 5 } := if_pos h

/-- V-TX8: a mask bit that is 0 is left alone. -/
theorem test_char3_gap (h : (Config.font3 0x01 1).getLsbD (0 : Fin 6) = false) :
    blitDot 0x01 1 0 State.reset = .running State.reset := if_neg (by rw [h]; decide)

/-- V-TX10, V-TX11 -/
theorem test_string_lengths : (runWord 0x0038 State.reset).statusWord = 0x0000 ∧
    (runWord 0x0038 State.reset).trace = [] ∧
    (runWord 0x0038 (withArgs 65 0 0 0)).statusWord = 0x0006 ∧
    (runWord 0x0038 (withArgs 65 0 0 0)).trace = [] := by decide

/-- V-TX1 drawn by a STRING: the first glyph's first two columns. -/
theorem test_string : (runWord 0x0018 { withArgs 1 0 0 0 with charbuf := Vector.replicate 64 0x41 }).trace.reverse.take 4 =
    [(.sel .left 0 0, .ok), (.wr .left (Config.font8 0x41 0), .ok),
     (.sel .left 0 1, .ok), (.wr .left (Config.font8 0x41 1), .ok)] := rfl

/-- V-TX12 -/
theorem test_setcur : (runWord 0x0009 (withArgs 0xFFFF 0xFFFF 0 0)).curx = 0xFFFF ∧
    (runWord 0x0009 (withArgs 0xFFFF 0xFFFF 0 0)).cury = 0xFFFF ∧
    (runWord 0x0009 (withArgs 0xFFFF 0xFFFF 0 0)).trace = [] := by decide

/-! ### Errors, busy writes, reads, reset -/

/-- V-PP8: the throwaway RD times out. -/
theorem test_plot_timeout : (runWord 0x0012 { withArgs 5 13 0 0 with answers := [.ok, .timeout] }).statusWord = 0x0014 ∧
    (runWord 0x0012 { withArgs 5 13 0 0 with answers := [.ok, .timeout] }).trace.length = 2 ∧
    (runWord 0x0012 { withArgs 5 13 0 0 with answers := [.ok, .timeout] }).disp.dram = [] := by decide

/-- V-DC3, steps 2 and 3 -/
theorem test_fault_gating : (runWord 0x0012 { State.reset with fault := true }).statusWord = 0x0018 ∧
    (runWord 0x000A { State.reset with fault := true }).statusWord = 0x0016 := by decide

/-- V-DC2, with PLOT: a write while BUSY = 1 is dropped. -/
theorem test_busy_write : (runWord 0x0012 { withArgs 5 13 0 0 with host := [.pause, .w16 0x04 0x1234] }).arg0 = 5 ∧
    (runWord 0x0012 { withArgs 5 13 0 0 with host := [.pause, .w16 0x04 0x1234] }).statusWord = 0x0020 := by decide

/-- R37: STATUS read while the command runs. -/
theorem test_busy_read : (runWord 0x0012 { withArgs 5 13 0 0 with host := [.r16 0x02] }).reads = [0x0001] := by
  decide

/-- R146: a reset inside a PLOT, after its first transaction, cuts the throwaway RD short. -/
theorem test_reset_inside : (runWord 0x0012 { withArgs 5 13 0 0 with host := [.pause, .reset true, .r16 0x02] }).trace.length = 2 ∧
    (runWord 0x0012 { withArgs 5 13 0 0 with host := [.pause, .reset true, .r16 0x02] }).arg0 = 0 ∧
    (runWord 0x0012 { withArgs 5 13 0 0 with host := [.pause, .reset true, .r16 0x02] }).host = [.r16 0x02] := by
  decide

/-- R37: CURX read before and after the advance of a glyph that is clipped whole. -/
theorem test_busy_cursor :
    (runWord 0x0016 { withArgs 0x41 0 0 0 with curx := 200, host := [.r16 0x0C, .pause, .r16 0x0C] }).reads =
      [sat16 (200 + (8 + Config.gap8)), 200] := rfl

/-- R125, R20: a host write that arrives after INIT has cleared BUSYWR sets it again; one before does not. -/
theorem test_init_busy_write :
    (runWord 0x0001 { State.reset with host := [.pause, .w16 0x04 7] }).statusWord = 0x0020 ∧
    (runWord 0x0001 { State.reset with host := [.w16 0x04 7] }).statusWord = 0x0000 := by decide

/-- V-TX13 -/
theorem test_charbuf : hostRead 0x10 (hostWrite 0x10 0x4241 State.reset) = 0x4241 ∧
    (hostWrite 0x10 0x4241 State.reset).charAt 0 = 0x41 ∧
    (hostWrite 0x10 0x4241 State.reset).charAt 1 = 0x42 := by decide

/-- V-DC4 -/
theorem test_reserved_space : hostRead 0x50 (withArgs 1 2 3 4) = 0 ∧ hostRead 0x7E (withArgs 1 2 3 4) = 0 ∧
    hostRead 0x03 { State.reset with busyWr := true } = 0x0020 ∧
    hostWrite 0x60 0xFFFF (withArgs 1 2 3 4) = withArgs 1 2 3 4 := by decide

/-- V-DC5 -/
theorem test_reset : hostRead 0x00 State.reset = 0 ∧ hostRead 0x02 State.reset = 0 ∧
    hostRead 0x0C State.reset = 0 ∧ hostRead 0x0E State.reset = 0 := by decide

/-! ### Witnesses: concrete states and operands that meet a statement's hypotheses together -/

/-- A state to run a command in: the Host reads, writes and waits while it runs, and the Bus has an OK
scripted; one display byte is set. -/
def busyHost (a0 a1 a2 a3 : Word) : State :=
  { withArgs a0 a1 a2 a3 with
    host := [.r16 0x02, .w16 0x04 0x1234, .pause, .r16 0x00, .wait], answers := [.ok, .ok]
    disp := { dram := [⟨1023, 0x99⟩], left := Chip.reset, right := { page := 7, col := 63, latch := 0x55 } } }

/-- The state of a fault to acknowledge. -/
def faulted : State := { busyHost 1 2 3 4 with fault := true, result := .hwTimeout, curx := 5, cury := 6 }

theorem witness_EncodeOfDecodeIsTheWord : decodeWord 0x0039#16 = .ok (.setcur 3) := rfl

/-- Both clauses at their borders: OPC 9 and 10, RSVD bit 6. -/
theorem witness_DecoderIsTotalAndExact :
    (0x0039#16 &&& 0xFFC0#16 = 0 ∧ (0x0039#16 &&& 0xF#16).toNat ≤ 9) ∧
    ¬(0x000A#16 &&& 0xFFC0#16 = 0 ∧ (0x000A#16 &&& 0xF#16).toNat ≤ 9) ∧
    ¬(0x0040#16 &&& 0xFFC0#16 = 0 ∧ (0x0040#16 &&& 0xF#16).toNat ≤ 9) ∧
    ({ State.reset with host := [.w16 0x00 0x000A, .r16 0x02] } : State).host = .w16 0x00 0x000A#16 :: [.r16 0x02] ∧
    State.reset.busy = false ∧ [HostEvent.r16 0x02].all HostEvent.notReset = true := by decide

theorem witness_CommandLinesAssemble : (Line.init 65535).wf = true ∧ (Line.char8 .background 255).wf = true ∧
    (Line.char3 .foreground 0).wf = true ∧ (Line.plot .background (-32768) 32767).wf = true ∧
    (Line.rect .background (-32768) 32767 (-32768) 32767).wf = true ∧
    (Line.circle .background (-32768) 32767 65535).wf = true ∧ (Line.string .f3x6 .background 65535).wf = true ∧
    (Line.setcur 65535 0).wf = true := by decide

theorem witness_PseudoInstructionsAssemble : (Line.w16 127 65535).wf = true ∧ (Line.r16 127).wf = true ∧
    (Line.hline .background (-32768) 32767 (-32768)).wf = true ∧
    (Line.vline .foreground 32767 (-32768) 32767).wf = true ∧ (Line.goto 65535 0).wf = true := by decide

/-- Odd, even and full lengths. -/
theorem witness_PutsFillsCharbuf : (Line.puts .f8x8 .foreground [255]).wf = true ∧
    (Line.puts .f8x8 .foreground [1, 2]).wf = true ∧
    (Line.puts .f3x6 .background (List.replicate 64 255)).wf = true ∧ State.reset.busy = false := by decide

/-- Both offsets, BUSY = 0 and 1. -/
theorem witness_StepRunsTheDecodedCommand :
    ({ State.reset with host := [.w16 0x00 0x0012] } : State).host = .w16 0x00 0x0012 :: [] ∧
    ((0x00#7).toNat = 0 ∨ (0x00#7).toNat = 1) ∧ ((0x01#7).toNat = 0 ∨ (0x01#7).toNat = 1) ∧
    State.reset.busy = false ∧ ({ State.reset with busy := true } : State).busy = true ∧
    decodeWord 0x0012 = .ok (.plot .foreground 0) ∧ decodeWord 0x000A = .error .reservedOpcode :=
  ⟨rfl, by decide, by decide, rfl, rfl, rfl, rfl⟩

theorem witness_PlacedWordRunsNext :
    decodeTableWord 16 (0x0038#16).toNat = some (.string .foreground .f3x6) := by decide

/-- One offset for each clause, the odd one of each pair among them, and the ends of CHARBUF and of the
reserved space. -/
theorem witness_HostReadMap :
    ({ State.reset with host := [.r16 0x4F] } : State).host = .r16 0x4F :: [] ∧
    (0x01#7).toNat / 2 = 0 ∧ (0x02#7).toNat / 2 = 1 ∧ (0x05#7).toNat / 2 = 2 ∧ (0x06#7).toNat / 2 = 3 ∧
    (0x09#7).toNat / 2 = 4 ∧ (0x0A#7).toNat / 2 = 5 ∧ (0x0D#7).toNat / 2 = 6 ∧ (0x0F#7).toNat / 2 = 7 ∧
    (0x10#7).toNat / 2 = 8 + 0 ∧ (0x4F#7).toNat / 2 = 8 + 31 ∧ 2 * 31 + 1 < 64 ∧
    0x50 ≤ (0x50#7).toNat ∧ 0x50 ≤ (0x7F#7).toNat := by decide

theorem witness_HostWriteMap :
    ({ State.reset with host := [.w16 0x4F 7] } : State).host = .w16 0x4F 7 :: [] ∧
    State.reset.busy = false ∧ ({ State.reset with busy := true } : State).busy = true ∧
    (0x01#7).toNat / 2 = 0 ∧ (0x04#7).toNat / 2 = 2 ∧ (0x07#7).toNat / 2 = 3 ∧ (0x08#7).toNat / 2 = 4 ∧
    (0x0B#7).toNat / 2 = 5 ∧ (0x10#7).toNat / 2 = 8 + 0 ∧ (0x4F#7).toNat / 2 = 8 + 31 ∧
    (0x03#7).toNat / 2 = 1 ∧ (0x0C#7).toNat / 2 = 6 ∧ (0x0F#7).toNat / 2 = 7 ∧ 0x50 ≤ (0x50#7).toNat ∧
    0x50 ≤ (0x7F#7).toNat := by decide

/-- The first and the last word of CHARBUF. -/
theorem witness_CharbufReadsBack : State.reset.busy = false ∧ 0 ≤ 31 ∧ (0x10#7).toNat = 0x10 + 2 * 0 ∧
    31 ≤ 31 ∧ (0x4E#7).toNat = 0x10 + 2 * 31 := by decide

theorem witness_ResetKeepsTheDisplay :
    ({ busyHost 1 2 3 4 with host := [.reset true, .wait] } : State).host = .reset true :: [.wait] := rfl

/-- A reset that cuts PLOT's third transaction; one on the advance of a STRING's first glyph, all clipped; one
on INIT's completion, its last action; and one that comes after it. -/
theorem witness_ResetAbandonsTheCommand :
    ({ busyHost 5 13 0 0 with host := [.pause, .pause, .reset true] } : State).host =
      List.replicate 2 .pause ++ .reset true :: [] ∧
    ({ withArgs 2 0 0 0 with cury := 64, host := [.reset true, .wait] } : State).host =
      List.replicate 0 .pause ++ .reset true :: [.wait] ∧
    beforeAdvance (.string .foreground .f8x8) { withArgs 2 0 0 0 with cury := 64, host := [.reset true, .wait] }
      0 [] ∧
    hasAction (.init 0) State.reset 1 [] (runWord 0x0001 State.reset) ∧
    ¬hasAction (.init 0) State.reset 2 [] (runWord 0x0001 State.reset) := by
  refine ⟨rfl, rfl, ⟨_, _, 0, _, rfl, by decide, ⟨rfl, rfl⟩, rfl, rfl⟩, .inr (.inr (.inl (by decide))), ?_⟩
  rintro (h | h | h | ⟨_, _, _, _, _, _, h, _⟩)
  · exact absurd h (by decide)
  · exact absurd h.2 (by decide)
  · exact absurd h.2 (by decide)
  · cases h

/-- The corners of the screen; the last bit of a byte. -/
theorem witness_LocateRoundTrip : onScreen 0 0 = true ∧ onScreen 63 0 = true ∧ onScreen 64 63 = true ∧
    onScreen 127 63 = true ∧ 7 < 8 := by decide

theorem witness_TransactionEffects : (busyHost 0 0 0 0).disp.dram.wf = true := by decide

theorem witness_TransactionTouchesOnlyItsSide : Side.left ≠ sideOf (.wr .right 0x99) ∧
    Side.right ≠ sideOf (.sel .left 7 63) ∧ (⟨.left, 7, 63⟩ : Address).side = .left := by decide

theorem witness_TimedOutTransactionEffects : (busyHost 0 0 0 0).disp.dram.wf = true := by decide

theorem witness_TrueReadReturnsTheCurrentByte : (busyHost 0 0 0 0).undisturbed := ⟨rfl, rfl⟩

/-- A run with a TIMEOUT and with host accesses. -/
theorem witness_TransactionsFollowTheSequencer :
    ({ busyHost 5 13 0 0 with answers := [.ok, .timeout] } : State).noReset = true := rfl

/-- RIGHT has no transaction, and no transaction is a WR, in a PLOT on the left that times out. -/
theorem witness_DisplayChangesOnlyByTransactions :
    (∀ e ∈ [(Transaction.sel .left 1 5, Answer.ok), (.rd .left, .timeout)], sideOf e.1 ≠ .right) ∧
    (∀ e ∈ [(Transaction.sel .left 1 5, Answer.ok), (.rd .left, .timeout)], ∀ sd v, e.1 ≠ .wr sd v) ∧
    ∀ e ∈ [(Transaction.sel .left 1 5, Answer.ok), (.rd .left, .timeout)],
      e.1 ≠ .rd .right ∧ (sideOf e.1 = .right → e.2 = .ok) := by
  refine ⟨?_, ?_, ?_⟩ <;> simp [sideOf]

/-- Each clause at its border: the first reserved opcode, RSVD bit 6, and a STRING of 65. -/
theorem witness_BadCommandChangesNothingElse :
    ({ faulted with host := [.w16 0x00 0x000A, .r16 0x02] } : State).host = .w16 0x00 0x000A :: [.r16 0x02] ∧
    faulted.busy = false ∧ [HostEvent.r16 0x02].all HostEvent.notReset = true ∧
    (0x000A#16 &&& 0xFFC0#16 ≠ 0 ∨ 0xA ≤ (0x000A#16 &&& 0xF#16).toNat) ∧
    (0x0040#16 &&& 0xFFC0#16 ≠ 0 ∨ 0xA ≤ (0x0040#16 &&& 0xF#16).toNat) ∧
    (busyHost 65 0 0 0).noReset = true ∧ (busyHost 65 0 0 0).fault = false ∧
    64 < (busyHost 65 0 0 0).arg0.toNat := by decide

theorem witness_FaultRefusesEveryCommandButInit : (∀ u, Instr.setcur 0 ≠ .init u) ∧ faulted.fault = true ∧
    faulted.noReset = true := ⟨fun _ h => (by cases h), rfl, rfl⟩

theorem witness_HostAccessesDoNotDisturbACommand : (busyHost 1 2 3 4).noReset = true := rfl

/-- A PLOT with reads of CMD, STATUS, the last CHARBUF word, CURX, CURY and a reserved offset, and a
dropped write between them. -/
def mixedReads : State :=
  { withArgs 5 13 0 0 with
    cmd := 0x0012
    host := [.r16 0x00, .r16 0x02, .r16 0x4E, .pause, .w16 0x04 9, .r16 0x0C, .r16 0x0F, .r16 0x50] }

/-- R37: what those reads return, in order. -/
theorem test_mixed_reads : mixedReads.noReset = true ∧
    (runWord 0x0012 mixedReads).reads.reverse = [0x0012, 0x0001, 0, 0, 0, 0] := by decide

/-- An offset of each kind that is stable: the first, the last before the cursor, the first and the last
after it. -/
theorem witness_ReadsWhileBusyAreStable : mixedReads.noReset = true ∧
    (0x01#7).toNat / 2 ≠ 1 ∧ (0x0B#7).toNat / 2 ≠ 6 ∧ (0x10#7).toNat / 2 ≠ 7 ∧ (0x7F#7).toNat / 2 ≠ 7 := by decide

/-- Each register of the first clause, at an even or an odd offset; the second clause for the longest STRING,
just below the screen. -/
theorem witness_LiveReadsWhileBusy : mixedReads.noReset = true ∧
    (0x03#7).toNat / 2 = 1 ∧ (0x0C#7).toNat / 2 = 6 ∧ (0x0F#7).toNat / 2 = 7 ∧
    ({ withArgs 64 0 0 0 with cury := 64, host := (List.replicate 65 [.r16 0x0C, .pause]).flatten } : State).host =
      (List.replicate (64 + 1) [.r16 0x0C, .pause]).flatten ∧
    (withArgs 64 0 0 0).fault = false ∧ (withArgs 64 0 0 0).arg0.toNat = 64 ∧ 64 ≤ 64 ∧
    64 ≤ ({ withArgs 64 0 0 0 with cury := 64 } : State).cury.toNat := by decide +kernel

/-- A write that arrives first, in SETCUR and in a rejected word; and one after INIT's clearing. -/
theorem witness_WritesWhileBusySetBusyWr : (∀ u, Instr.setcur 0 ≠ .init u) ∧
    ({ withArgs 1 2 0 0 with host := [.w16 0x7F 9, .wait] } : State).noReset = true ∧
    ({ withArgs 1 2 0 0 with host := [.w16 0x7F 9, .wait] } : State).host = .w16 0x7F 9 :: [.wait] ∧
    ({ faulted with host := [.pause, .w16 0x00 1, .r16 0x02] } : State).noReset = true ∧
    ({ faulted with host := [.pause, .w16 0x00 1, .r16 0x02] } : State).host =
      .pause :: .w16 0x00 1 :: [.r16 0x02] := ⟨fun _ h => (by cases h), rfl, rfl, rfl, rfl⟩

/-- BUSY = 0 and 1; and a command line's end. -/
theorem witness_WaitReadsStatusWhenIdle :
    ({ State.reset with host := [.wait, .pause] } : State).host = .wait :: [.pause] ∧
    ({ State.reset with host := [.wait, .pause] } : State).busy = false ∧
    ({ State.reset with host := [.wait], busy := true } : State).host = .wait :: [] ∧
    ({ State.reset with host := [.wait], busy := true } : State).busy = true ∧
    ({ State.reset with host := [.w16 0x00 0x0012, .wait, .reset true] } : State).host =
      .w16 0x00 0x0012 :: .wait :: [.reset true] := ⟨rfl, rfl, rfl, rfl, rfl⟩

/-- All the clauses' premises, for FILL. -/
theorem witness_CommandFrame : (∀ u, Instr.fill .foreground 0 ≠ .init u) ∧
    (∀ u, Instr.fill .foreground 0 ≠ .setcur u) ∧ (busyHost 0 0 0 0).noReset = true ∧
    (∀ c u, Instr.fill .foreground 0 ≠ .char8 c u) ∧ (∀ c u, Instr.fill .foreground 0 ≠ .char3 c u) ∧
    (∀ c f, Instr.fill .foreground 0 ≠ .string c f) := by
  refine ⟨?_, ?_, rfl, ?_, ?_, ?_⟩ <;> simp

/-- A CHAR8 over the border of the chips may write a byte of each side, and not the byte to its left. -/
theorem witness_DisplayFrame :
    mayWrite (.char8 .foreground 0) { withArgs 0x41 0 0 0 with curx := 60, cury := 8 } ⟨.left, 1, 60⟩ ∧
    mayWrite (.char8 .foreground 0) { withArgs 0x41 0 0 0 with curx := 60, cury := 8 } ⟨.right, 1, 3⟩ ∧
    ¬mayWrite (.char8 .foreground 0) { withArgs 0x41 0 0 0 with curx := 60, cury := 8 } ⟨.left, 1, 59⟩ := by
  unfold mayWrite glyphMayWrite isByteOf
  decide

theorem witness_CursorNeverMovesBack : (∀ u, Instr.string .foreground .f8x8 ≠ .init u) ∧
    (∀ u, Instr.string .foreground .f8x8 ≠ .setcur u) ∧
    ({ busyHost 3 0 0 0 with answers := [.ok, .timeout] } : State).noReset = true := by
  refine ⟨?_, ?_, rfl⟩ <;> simp

/-- The invariant with FAULT = 1. -/
theorem witness_SteppingKeepsTheInvariant : faulted.Inv ∧ ∃ t, step faulted = .next t := by
  refine ⟨?_, _, rfl⟩
  unfold State.Inv
  decide

/-- A word with its ignored bits set; FAULT 0 and 1. -/
theorem witness_NopOnlyCompletes : 0x0030#16 &&& 0xFFCF#16 = 0x0000#16 ∧ (busyHost 1 2 3 4).noReset = true ∧
    (busyHost 1 2 3 4).fault = false ∧ faulted.noReset = true ∧ faulted.fault = true := by decide

theorem witness_InitAcknowledgesTheFault : 0x0031#16 &&& 0xFFCF#16 = 0x0001#16 ∧ faulted.noReset = true ∧
    ({ faulted with host := [.r16 0x02] } : State).noWrite = true := by decide

theorem witness_SetcurStoresTheCursor : 0x0039#16 &&& 0xFFCF#16 = 0x0009#16 ∧
    (busyHost 0xFFFF 0xFFFF 0 0).noReset = true ∧ (busyHost 0xFFFF 0xFFFF 0 0).fault = false := by decide

/-- The last pixel of the screen. -/
theorem witness_PlotSetsOnePixel : (busyHost 127 63 0 0).undisturbed ∧ (busyHost 127 63 0 0).fault = false ∧
    (busyHost 127 63 0 0).disp.dram.wf = true ∧
    onScreen (busyHost 127 63 0 0).arg0.toInt (busyHost 127 63 0 0).arg1.toInt = true ∧
    onScreen 127 62 = true ∧ ((127 : Int), (62 : Int)) ≠ (127, 63) :=
  ⟨⟨rfl, rfl⟩, rfl, rfl, rfl, rfl, by decide⟩

/-- Just off each side of the screen; and a command that is no PLOT. -/
theorem witness_OnlyPlotIsOutOfRange : (busyHost 128 63 0 0).noReset = true ∧
    (busyHost 128 63 0 0).fault = false ∧
    onScreen (busyHost 128 63 0 0).arg0.toInt (busyHost 128 63 0 0).arg1.toInt = false ∧
    onScreen (busyHost 0xFFFF 0 0 0).arg0.toInt (busyHost 0xFFFF 0 0 0).arg1.toInt = false ∧
    onScreen (busyHost 0 64 0 0).arg0.toInt (busyHost 0 64 0 0).arg1.toInt = false ∧
    (∀ c u, Instr.nop 0 ≠ .plot c u) ∧ (∃ t, exec (.nop 0) State.reset = .next t) ∧
    ∃ t, exec (.plot .foreground 0) (withArgs 128 0 0 0) = .next t ∧ t.result = .outOfRange := by
  refine ⟨rfl, rfl, rfl, rfl, rfl, by simp, ⟨_, rfl⟩, _, rfl, by decide⟩

theorem witness_PlotIsIdempotent : (busyHost 127 63 0 0).undisturbed ∧ (busyHost 127 63 0 0).fault = false ∧
    (busyHost 127 63 0 0).disp.dram.wf = true ∧
    onScreen (busyHost 127 63 0 0).arg0.toInt (busyHost 127 63 0 0).arg1.toInt = true :=
  ⟨⟨rfl, rfl⟩, rfl, rfl, rfl⟩

/-- Two pixels of one byte. -/
theorem witness_PlotsOfDifferentPixelsCommute : (busyHost 0 0 0 0).undisturbed ∧
    (busyHost 0 0 0 0).fault = false ∧ (busyHost 0 0 0 0).disp.dram.wf = true ∧
    ((5#16, 13#16) : Word × Word) ≠ (5#16, 14#16) := ⟨⟨rfl, rfl⟩, rfl, rfl, by decide⟩

/-- The first and the last of PLOT's transactions. -/
theorem witness_PlotTimesOutPrecisely : (busyHost 5 13 0 0).noReset = true ∧
    (busyHost 5 13 0 0).fault = false ∧ (busyHost 5 13 0 0).disp.dram.wf = true ∧
    onScreen (busyHost 5 13 0 0).arg0.toInt (busyHost 5 13 0 0).arg1.toInt = true ∧ 0 < 5 ∧ 4 < 5 ∧
    ({ busyHost 5 13 0 0 with answers := [.timeout] } : State).answers = List.replicate 0 .ok ++ .timeout :: [] ∧
    ({ busyHost 5 13 0 0 with answers := [.ok, .ok, .ok, .ok, .timeout, .ok] } : State).answers =
      List.replicate 4 .ok ++ .timeout :: [.ok] :=
  ⟨rfl, rfl, rfl, rfl, by decide, by decide, rfl, rfl⟩

/-- A rectangle with its corners reversed that reaches off the screen; a pixel on it, and one not. -/
theorem witness_RectDrawsTheOutline : (busyHost 130 10 120 5).undisturbed ∧
    (busyHost 130 10 120 5).fault = false ∧ (busyHost 130 10 120 5).disp.dram.wf = true ∧
    onScreen 127 5 = true ∧ onOutline 130 10 120 5 127 5 ∧ ¬onOutline 130 10 120 5 127 6 := by
  refine ⟨⟨rfl, rfl⟩, rfl, rfl, rfl, ?_, ?_⟩ <;> (unfold onOutline; decide)

theorem witness_FillWritesEveryByte : (busyHost 0 0 0 0).undisturbed ∧ (busyHost 0 0 0 0).fault = false ∧
    (busyHost 0 0 0 0).disp.dram.wf = true := ⟨⟨rfl, rfl⟩, rfl, rfl⟩

/-- The first transaction, and the WR of the third byte (V-FL2). -/
theorem witness_FillTimesOutPrecisely : (busyHost 0 0 0 0).noReset = true ∧ (busyHost 0 0 0 0).fault = false ∧
    (busyHost 0 0 0 0).disp.dram.wf = true ∧ 0 < 2048 ∧ 5 < 2048 ∧
    ({ busyHost 0 0 0 0 with answers := [.timeout] } : State).answers = List.replicate 0 .ok ++ .timeout :: [] ∧
    ({ busyHost 0 0 0 0 with answers := [.ok, .ok, .ok, .ok, .ok, .timeout] } : State).answers =
      List.replicate 5 .ok ++ .timeout :: [] :=
  ⟨rfl, rfl, rfl, by decide, by decide, rfl, rfl⟩

/-- V-CI3: a point that the second iteration plots; and the centre, which none does. -/
theorem witness_CircleDrawsTheMidpointPoints : (busyHost 20 20 2 0).undisturbed ∧
    (busyHost 20 20 2 0).fault = false ∧ (busyHost 20 20 2 0).disp.dram.wf = true ∧
    onScreen 22 21 = true ∧ onCircle 20 20 2 22 21 ∧ ¬onCircle 20 20 1 20 20 := by
  refine ⟨⟨rfl, rfl⟩, rfl, rfl, rfl, ⟨1, by decide, by unfold onEight; decide⟩, ?_⟩
  rintro ⟨n, h, h'⟩
  match n, h, h' with
  | 0, _, h' => revert h'; unfold onEight; decide
  | n + 1, h, _ => exact absurd (h 1 (by omega)) (by decide)

theorem witness_CirclePointsAreSymmetric : ((20 : Int) + 1, (20 : Int) + 2) ∈ circlePoints 20 20 2 := by decide

/-- A glyph that reaches over the right edge. -/
theorem witness_Char8WritesItsColumns : ({ busyHost 0x41 0 0 0 with curx := 124 } : State).undisturbed ∧
    ({ busyHost 0x41 0 0 0 with curx := 124 } : State).fault = false ∧
    ({ busyHost 0x41 0 0 0 with curx := 124 } : State).disp.dram.wf = true ∧
    onScreen ((124 : Int) + (3 : Fin 8).val) 0 = true ∧ onScreen ((124 : Int) + (4 : Fin 8).val) 0 = false :=
  ⟨⟨rfl, rfl⟩, rfl, rfl, by decide, by decide⟩

theorem witness_Char3PlotsItsMask : ({ busyHost 1 0 0 0 with curx := 125, cury := 60 } : State).undisturbed ∧
    ({ busyHost 1 0 0 0 with curx := 125, cury := 60 } : State).fault = false ∧
    ({ busyHost 1 0 0 0 with curx := 125, cury := 60 } : State).disp.dram.wf = true ∧
    onScreen 127 63 = true := ⟨⟨rfl, rfl⟩, rfl, rfl, rfl⟩

/-- The longest string, and none. -/
theorem witness_StringIsItsGlyphsInOrder : (busyHost 64 0 0 0).undisturbed ∧ (busyHost 64 0 0 0).fault = false ∧
    (busyHost 64 0 0 0).arg0.toNat ≤ 64 ∧ (busyHost 64 0 0 0).arg0.toNat = 63 + 1 ∧
    (busyHost 0 0 0 0).arg0 = 0 := ⟨⟨rfl, rfl⟩, rfl, by decide, by decide, rfl⟩

/-- V-TX14's run (19 transactions complete, then a WR times out), and a STRING whose first glyph times out. -/
theorem witness_StringCountsWholeGlyphs :
    ({ withArgs 3 0 0 0 with answers := List.replicate 19 .ok ++ [.timeout] } : State).noReset = true ∧
    ({ withArgs 3 0 0 0 with answers := [.ok, .timeout] } : State).noReset = true ∧
    (runWord 0x0018 { withArgs 3 0 0 0 with answers := [.ok, .timeout] }).result = .hwTimeout := by decide

/-- A glyph whose first transaction times out (`glyphCommand .f8x8 .foreground` at the screen's corner). -/
theorem witness_TimedOutGlyphKeepsTheCursor :
    ({ withArgs 0x41 0 0 0 with answers := [.timeout] } : State).noReset = true ∧
    (runWord 0x0016 { withArgs 0x41 0 0 0 with answers := [.timeout] }).result = .hwTimeout := by decide

end Sys2Proof.Tests
end

/-! SUPPORT. Each engine action once the Host has been served, a command with FAULT = 1 and with FAULT = 0,
and a flow that still runs with `P` or has ended with `Q` (`Flow.At`) taken further. -/

section
namespace Sys2Proof.Machine

theorem internalAction_of_go {f : State → State} {s s1 : State} (e : serve s.host s = .go s1) :
    internalAction f s = .running (f s1) := by
  unfold internalAction
  rw [e]

theorem lastAction_of_go {f : State → State} {s s1 : State} (e : serve s.host s = .go s1) :
    lastAction f s = f s1 := by
  unfold lastAction
  rw [internalAction_of_go e]
  rfl

theorem runCommand_of_fault {i : Instr} {body : State → Flow} {s : State} (hf : s.fault = true) :
    runCommand i body s = lastAction (abort .refused) (startWork i s) := by
  unfold runCommand runAlways
  beta_reduce
  rw [if_pos (show (startWork i s).fault = true from hf)]
  rfl

theorem runCommand_of_not_fault {i : Instr} {body : State → Flow} {s : State} (hf : s.fault = false) :
    runCommand i body s = (body (startWork i s)).close := by
  unfold runCommand runAlways
  beta_reduce
  rw [if_neg (by rw [startWork_fault, hf]; decide)]

/-- FAULT = 1 refuses every command but INIT, before it does anything of its own (45_control.md rule R127). -/
theorem exec_of_fault {i : Instr} (hi : ∀ u, i ≠ .init u) {s : State} (hf : s.fault = true) :
    exec i s = .next (lastAction (abort .refused) (startWork i s)) := by
  cases i with
  | init u => exact absurd rfl (hi u)
  | nop u => rw [exec_nop, runCommand_of_fault hf]
  | plot c u => rw [exec_plot, runCommand_of_fault hf]
  | rect c u => rw [exec_rect, runCommand_of_fault hf]
  | fill c u => rw [exec_fill, runCommand_of_fault hf]
  | circle c u => rw [exec_circle, runCommand_of_fault hf]
  | char8 c u => rw [exec_char8, runCommand_of_fault hf]
  | char3 c u => rw [exec_char3, runCommand_of_fault hf]
  | string c f => rw [exec_string, runCommand_of_fault hf]
  | setcur u => rw [exec_setcur, runCommand_of_fault hf]

theorem Flow.At.andThen {P P' Q : State → Prop} {r : Flow} {f : State → Flow} (h : r.At P Q)
    (hf : ∀ {s}, P s → (f s).At P' Q) : (r.andThen f).At P' Q := by
  cases h with
  | running h => exact hf h
  | ended h => exact .ended h

theorem Flow.At.mono {P P' Q : State → Prop} {r : Flow} (h : r.At P Q) (hp : ∀ {s}, P s → P' s) :
    r.At P' Q := by
  cases h with
  | running h => exact .running (hp h)
  | ended h => exact .ended h

end Sys2Proof.Machine
end

/-! SUPPORT. The invariant between commands: what keeps it, from one engine action to a whole step. -/

section
namespace Sys2Proof.Machine

/-- Serving the Host reaches neither the display nor FAULT. -/
theorem serve_go_disp_fault {s s1 : State} (e : serve s.host s = .go s1) :
    s1.disp = s.disp ∧ s1.fault = s.fault := by
  rw [(serve_go e).1]
  exact ⟨rfl, rfl⟩

theorem serve_reset_disp {s s1 : State} {c : Bool} (e : serve s.host s = .reset c s1) :
    s1.disp = s.disp := by
  rw [(serve_reset e).1]

/-- The invariant reads the display memory, BUSY, SEQ, RESULT and FAULT only. -/
theorem State.Inv.congr {s t : State} (h : s.Inv) (hd : t.disp = s.disp) (hb : t.busy = s.busy)
    (hq : t.seq = s.seq) (hr : t.result = s.result) (hf : t.fault = s.fault) : t.Inv := by
  unfold State.Inv
  rw [hd, hb, hq, hr, hf]
  exact h

/-- A reset leaves FAULT = 0 and RESULT = OK (10_state.md rule R34). -/
theorem engineReset_inv {s : State} (h : s.disp.dram.wf = true) : (engineReset s).Inv :=
  ⟨h, rfl, rfl, by simp, by simp⟩

/-- A completion OK needs FAULT = 0. -/
theorem finish_inv {s : State} (h : s.disp.dram.wf = true) (hf : s.fault = false) :
    (finish .ok s).Inv :=
  ⟨h, rfl, rfl, by simp, by simp [hf]⟩

/-- An abort with FAULT = 0 keeps the invariant whatever its code: HW_TIMEOUT sets FAULT itself. -/
theorem abort_inv {s : State} (h : s.disp.dram.wf = true) (hf : s.fault = false) (code : Result) :
    (abort code s).Inv := by
  unfold abort
  split
  · next hc => exact ⟨h, rfl, rfl, fun _ => rfl, fun _ => .inl hc⟩
  · next hc => exact ⟨h, rfl, rfl, fun hr => absurd hr hc, by simp [hf]⟩

/-- REFUSED and BAD_COMMAND may come with FAULT = 1 (60_exceptions.md rule R139). -/
theorem abort_inv_of_code {s : State} (h : s.disp.dram.wf = true) {code : Result}
    (hc : code = .badCommand ∨ code = .refused) : (abort code s).Inv := by
  unfold abort
  rw [if_neg (by rcases hc with rfl | rfl <;> decide)]
  exact ⟨h, rfl, rfl, by rcases hc with rfl | rfl <;> simp, fun _ => .inr hc⟩

/-- The last action of a command gives the invariant if its effect does; a reset in its place does too. -/
theorem lastAction_inv {f : State → State} {s : State} (h : s.disp.dram.wf = true)
    (hf : ∀ s1 : State, s1.disp.dram.wf = true → (f s1).Inv) : (lastAction f s).Inv := by
  rcases lastAction_cases f s with ⟨s1, e, hl⟩ | ⟨c, s1, e, hl⟩ <;> rw [hl]
  · exact hf s1 (by rw [(serve_go_disp_fault e).1]; exact h)
  · exact engineReset_inv (by rw [serve_reset_disp e]; exact h)

/-- What holds while a command draws: canonical memory, and FAULT = 0 (else it would have been refused). -/
def Drawing (s : State) : Prop := s.disp.dram.wf = true ∧ s.fault = false

theorem run_drawing : Run Drawing State.Inv where
  served {s s1} h e := by
    obtain ⟨hd, hf⟩ := serve_go_disp_fault e
    exact ⟨by rw [hd]; exact h.1, hf.trans h.2⟩
  cut {s s1 c} t h e := by
    have hw : s1.disp.dram.wf = true := by rw [serve_reset_disp e]; exact h.1
    refine ⟨engineReset_inv hw, ?_⟩
    cases c
    · exact engineReset_inv hw
    · exact engineReset_inv (Display.timeOut_wf hw t _)
  completed t q h := ⟨Display.perform_wf h.1 t, h.2⟩
  timedOut {s} t h := abort_inv (s := failed t { s with answers := s.answers.tail })
    (Display.timeOut_wf h.1 t _) h.2 .hwTimeout
  finish h := finish_inv h.1 h.2
  setTodo _ h := h
  advance _ h := h

/-- INIT clears FAULT before it completes, so it may start with FAULT = 1. -/
theorem initBody_inv {s : State} (h : s.disp.dram.wf = true) : (initBody s).At Drawing State.Inv := by
  refine Run.andThen (P := Drawing) ?_ fun {s} hs =>
    .ended (run_drawing.lastAction (fun {s} hs => finish_inv (s := homeCursor s) hs.1 hs.2) hs)
  rcases internalAction_cases acknowledge s with ⟨s1, e, hi⟩ | ⟨c, s1, e, hi⟩ <;> rw [hi]
  · exact .running ⟨by rw [acknowledge_disp, (serve_go_disp_fault e).1]; exact h, rfl⟩
  · exact .ended (engineReset_inv (by rw [serve_reset_disp e]; exact h))

/-- Every command that starts with canonical memory ends in the invariant. -/
theorem exec_inv (i : Instr) {s : State} (h : s.disp.dram.wf = true) :
    ∃ t, exec i s = .next t ∧ t.Inv := by
  by_cases hi : ∃ u, i = .init u
  · obtain ⟨u, rfl⟩ := hi
    exact ⟨_, exec_init u s, run_drawing.close (initBody_inv h)⟩
  · by_cases hf : s.fault = true
    · exact ⟨_, exec_of_fault (fun u e => hi ⟨u, e⟩) hf,
        lastAction_inv h fun _ h1 => abort_inv_of_code h1 (.inr rfl)⟩
    · have hd : Drawing (startWork i s) := ⟨h, by simpa using hf⟩
      exact run_drawing.exec (fun h => abort_inv h.1 h.2 _) (fun h => abort_inv h.1 h.2 _)
        (fun h => ⟨h.1, rfl⟩) (fun {s} h => finish_inv (s := homeCursor s) h.1 h.2)
        (fun {s} h => finish_inv (s := setCursor s) h.1 h.2) i
        (fun _ _ h => abort_inv h.1 h.2 _) s hd

theorem rejectCommand_inv {s : State} (h : s.disp.dram.wf = true) : (rejectCommand s).Inv :=
  lastAction_inv h fun _ h1 => abort_inv_of_code h1 (.inl rfl)

/-- A host event that starts no command keeps the invariant. -/
theorem hostAct_inv {e : HostEvent} {s : State} (h : s.Inv) (hc : commandOf e s = none) :
    (hostAct e s).Inv := by
  cases e with
  | w16 off v =>
    obtain ⟨hd, hq, hr, hf⟩ := hostWrite_keeps off v s
    exact h.congr hd (hostWrite_busy hc) hq hr hf
  | r16 off => exact h.congr rfl rfl rfl rfl rfl
  | wait =>
    show State.Inv (if s.busy then _ else _)
    split
    · exact h.congr rfl rfl rfl rfl rfl
    · exact h.congr rfl rfl rfl rfl rfl
  | pause => exact h
  | reset c => exact engineReset_inv h.1

/-- What starts a command is a write to CMD (45_control.md rule R121). -/
theorem commandOf_eq_some {e : HostEvent} {s : State} {w : Word} (h : commandOf e s = some w) :
    ∃ off : BitVec 7, e = .w16 off w ∧ off.toNat / 2 = 0 := by
  cases e with
  | w16 off v =>
    simp only [commandOf, wordOffset_eq, Option.ite_none_right_eq_some, Bool.and_eq_true, beq_iff_eq,
      Option.some.injEq] at h
    obtain ⟨⟨_, ho⟩, rfl⟩ := h
    exact ⟨off, rfl, by omega⟩
  | r16 | wait | pause | reset => cases h

/-- A step on a write to CMD while BUSY = 0, whether or not the word decodes. -/
theorem step_command_inv {s t : State} {off : BitVec 7} {w : Word} {rest : List HostEvent} (h : s.Inv)
    (hh : s.host = .w16 off w :: rest) (ho : off.toNat / 2 = 0) (hs : step s = .next t) : t.Inv := by
  obtain ⟨hmem, hbusy, -⟩ := h
  rw [step_command hh ho hbusy] at hs
  cases hw : decodeWord w with
  | ok i =>
    rw [hw] at hs
    obtain ⟨t', he, ht⟩ := exec_inv i (s := { s with cmd := w, busy := true, host := rest }) hmem
    cases he.symm.trans hs
    exact ht
  | error r =>
    rw [hw] at hs
    cases hs
    exact rejectCommand_inv hmem

/-- Settles O38: a step is a host event that starts no command (`hostAct_inv`) or a command
(`step_command_inv`), which ends in the invariant because each of its actions keeps `Drawing`. -/
theorem steppingKeepsTheInvariant : Obligations.SteppingKeepsTheInvariant := by
  intro s t h hs
  cases hh : s.host with
  | nil =>
    have : t = s := by unfold step at hs; rw [hh] at hs; cases hs; rfl
    exact this ▸ h
  | cons e rest =>
    cases hc : commandOf e s with
    | none =>
      rw [step_event hh hc] at hs
      cases hs
      exact hostAct_inv (h.congr rfl rfl rfl rfl rfl) hc
    | some w =>
      obtain ⟨off, rfl, ho⟩ := commandOf_eq_some hc
      exact step_command_inv h hh ho hs

/-- Settles O37: display memory after reset holds no entry, and the engine is idle with RESULT = OK. -/
theorem resetMeetsTheInvariant : Obligations.ResetMeetsTheInvariant :=
  ⟨rfl, rfl, rfl, nofun, nofun⟩

end Sys2Proof.Machine
end

/-! SUPPORT. STATUS bit by bit (10_state.md rule R16), and the registers that change while a command runs, as
the Host reads them. -/

section
namespace Sys2Proof.Machine

theorem statusWord_getLsbD (s : State) (k : Nat) : s.statusWord.getLsbD k =
    if k = 0 then s.busy else if k < 4 then s.result.code.getLsbD (k - 1) else if k = 4 then s.fault
    else if k = 5 then s.busyWr else false := by
  show (0#10 ++ BitVec.ofBool s.busyWr ++ BitVec.ofBool s.fault ++ s.result.code ++
    BitVec.ofBool s.busy).getLsbD k = _
  simp only [BitVec.getLsbD_append, BitVec.getLsbD_ofBool, BitVec.getLsbD_zero]
  match k with
  | 0 | 1 | 2 | 3 | 4 | 5 => simp
  | k + 6 => simp

theorem statusWord_result (s : State) : s.statusWord.extractLsb' 1 3 = s.result.code := by
  ext k hk
  rw [BitVec.getElem_extractLsb', statusWord_getLsbD, if_neg (by omega), if_pos (by omega),
    Nat.add_sub_cancel_left, BitVec.getLsbD_eq_getElem]

/-- Settles O14: bit by bit (`statusWord_getLsbD`), and RESULT by its codes. -/
theorem statusLayout : Obligations.StatusLayout := by
  intro s
  simp only [statusWord_getLsbD, statusWord_result]
  refine ⟨rfl, rfl, rfl, fun k hk => ?_, ?_⟩
  · rw [if_neg (by omega), if_neg (by omega), if_neg (by omega), if_neg (by omega)]
  · cases s.result <;> rfl

/-- Settles O17: each register of `State.reset` holds its value by definition. -/
theorem resetValues : Obligations.ResetValues := ⟨rfl, rfl, rfl, rfl, rfl, rfl, rfl, rfl, rfl⟩

theorem hostRead_status {off : BitVec 7} (h : off.toNat / 2 = 1) (s : State) :
    hostRead off s = s.statusWord := by
  unfold hostRead
  simp [wordOffset_eq, h]

theorem hostRead_curx {off : BitVec 7} (h : off.toNat / 2 = 6) (s : State) : hostRead off s = s.curx := by
  unfold hostRead
  simp [wordOffset_eq, h]

theorem hostRead_cury {off : BitVec 7} (h : off.toNat / 2 = 7) (s : State) : hostRead off s = s.cury := by
  unfold hostRead
  simp [wordOffset_eq, h]

end Sys2Proof.Machine
end

/-! SUPPORT. The rasterizer's induction over its tasks, packaged once for a property that speaks of the tasks
still to come. -/

section
namespace Sys2Proof.Machine

/-- `P`, with `us` in the working state as what is still to do. -/
def Held (us : List Task) (P : State → Prop) (s : State) : Prop := s.work.todo = us ∧ P s

/-- The rasterizer's induction, packaged once: if each task takes `P` of itself and what follows to `P` of
what follows, the loop takes `P ts` to `P []`. -/
theorem runTasks_at {P : List Task → State → Prop} {Q : State → Prop}
    (ht : ∀ {t ts s}, Held ts (P (t :: ts)) s → (runTask t s).At (Held ts (P ts)) Q)
    (hu : ∀ {ts us s}, P ts s → P ts (setTodo us s)) (ts : List Task) {s : State} (h : Held ts (P ts) s) :
    (runTasks ts.length s).At (P []) Q := by
  induction ts generalizing s with
  | nil => exact .running h.2
  | cons t ts ih =>
    show (runTasks (ts.length + 1) s).At (P []) Q
    unfold runTasks
    rw [h.1]
    exact (ht ⟨rfl, hu h.2⟩).andThen ih

theorem raster_at {P : List Task → State → Prop} {Q : State → Prop}
    (ht : ∀ {t ts s}, Held ts (P (t :: ts)) s → (runTask t s).At (Held ts (P ts)) Q)
    (hu : ∀ {ts us s}, P ts s → P ts (setTodo us s)) {ts : List Task} {s : State} (h : P ts s) :
    (raster ts s).At (P []) Q :=
  runTasks_at ht hu ts ⟨rfl, hu h⟩

end Sys2Proof.Machine
end

/-! SUPPORT. What the Host sees while a command runs (10_state.md rule R37): the accesses served, what the reads
return, and BUSYWR. The cursor is bounded by the glyphs still to come, so the property kept (`Running`) speaks
of the tasks left; `Run` has none, and its advance may come at any time. -/

section
namespace Sys2Proof.Machine

/-- The registers no command writes (10_state.md rule R37). -/
def StableRead (s0 : State) (off : BitVec 7) (v : Word) : Prop :=
  off.toNat / 2 ≠ 1 → off.toNat / 2 ≠ 6 → off.toNat / 2 ≠ 7 → v = hostRead off s0

/-- What a read of STATUS, CURX or CURY returns while the command `i` that started in `s0` runs. -/
def LiveRead (i : Instr) (s0 : State) (off : BitVec 7) (v : Word) : Prop :=
  (off.toNat / 2 = 1 → v.getLsbD 0 = true ∧ v.extractLsb' 1 3 = s0.result.code) ∧
  (off.toNat / 2 = 7 → v = s0.cury) ∧
  (off.toNat / 2 = 6 → ∃ n ≤ (glyphsOf i s0).2, v = curxAfter (glyphsOf i s0).1 n s0.curx)

/-- The accesses served since `i` started in `s0`: what its reads returned, and that BUSYWR is set by its
writes alone (INIT apart, which clears it). -/
def ServedSince (i : Instr) (s0 s : State) : Prop :=
  ∃ served new, s0.host = served ++ s.host ∧ s.reads = new.reverse ++ s0.reads ∧
    List.Forall₂ (fun off v => StableRead s0 off v ∧ LiveRead i s0 off v)
      (served.filterMap HostEvent.readOffset) new ∧
    ((∀ u, i ≠ .init u) → s.busyWr = (s0.busyWr || !served.all HostEvent.notWrite))

/-- A write that arrived first has been served. -/
def FirstWriteServed (s0 s : State) : Prop :=
  ∀ off v rest, s0.host = .w16 off v :: rest → s.host <:+ rest

/-- What has been served once the command has ended. -/
def Done (i : Instr) (s0 s : State) : Prop := ServedSince i s0 s ∧ FirstWriteServed s0 s

/-- The glyphs counted so far and those of the tasks `ts` are at most the command's. -/
def CursorAt (i : Instr) (s0 : State) (ts : List Task) (s : State) : Prop :=
  (∀ g, .advance g ∈ ts → g = (glyphsOf i s0).1) ∧
  ∃ n, n + ts.count (.advance (glyphsOf i s0).1) ≤ (glyphsOf i s0).2 ∧
    s.curx = curxAfter (glyphsOf i s0).1 n s0.curx

/-- What no action of a running command changes. -/
def AsStarted (s0 s : State) : Prop :=
  sameOperands s0 s ∧ s.busy = true ∧ s.result = s0.result ∧ s.cury = s0.cury

/-- The command `i` that started in `s0` runs, with the tasks `ts` to come, and no reset is scripted. -/
def Running (i : Instr) (s0 : State) (ts : List Task) (s : State) : Prop :=
  s.noReset = true ∧ AsStarted s0 s ∧ CursorAt i s0 ts s ∧ ServedSince i s0 s

variable {i : Instr} {s0 s s1 : State} {ts us : List Task} {t : Task}

theorem CursorAt.tail (h : CursorAt i s0 (t :: ts) s) : CursorAt i s0 ts s := by
  obtain ⟨hf, n, hn, hx⟩ := h
  refine ⟨fun g hg => hf g (List.mem_cons_of_mem _ hg), n, ?_, hx⟩
  exact le_trans (Nat.add_le_add_left (List.sublist_cons_self t ts |>.count_le _) n) hn

theorem CursorAt.advance {f : Font} (h : CursorAt i s0 (.advance f :: ts) s) :
    CursorAt i s0 ts (advance f s) := by
  obtain ⟨hf, n, hn, hx⟩ := h
  obtain rfl : f = (glyphsOf i s0).1 := hf f List.mem_cons_self
  refine ⟨fun g hg => hf g (List.mem_cons_of_mem _ hg), n + 1, ?_, ?_⟩
  · rw [List.count_cons_self] at hn
    omega
  · rw [advance_curx, hx]
    rfl

/-- While the command runs every read returns what R37 says, whatever BUSYWR is. -/
theorem hostRead_running (ha : AsStarted s0 s) (hc : CursorAt i s0 ts s) (off : BitVec 7) (b : Bool) :
    StableRead s0 off (hostRead off { s with busyWr := b }) ∧
      LiveRead i s0 off (hostRead off { s with busyWr := b }) := by
  obtain ⟨ho, hb, hr, hy⟩ := ha
  obtain ⟨-, n, hn, hx⟩ := hc
  refine ⟨fun h1 h2 h3 => hostRead_sameOperands h1 h2 h3 ho, fun h => ?_, fun h => ?_, fun h => ?_⟩
  · rw [hostRead_status h, statusWord_getLsbD, statusWord_result]
    exact ⟨hb, congrArg Result.code hr⟩
  · rw [hostRead_cury h]
    exact hy
  · rw [hostRead_curx h]
    exact ⟨n, by omega, hx⟩

/-- Serving the Host adds to what has been served. -/
theorem ServedSince.serve (h : ServedSince i s0 s) (e : serve s.host s = .go s1)
    (hv : ∀ off b, StableRead s0 off (hostRead off { s with busyWr := b }) ∧
      LiveRead i s0 off (hostRead off { s with busyWr := b })) : ServedSince i s0 s1 := by
  obtain ⟨served, new, hh, hr, hf, hw⟩ := h
  obtain ⟨served', new', hh', -, -, hw', hr', hf'⟩ := serve_served e
  refine ⟨served ++ served', new ++ new', ?_, ?_, ?_, fun hi => ?_⟩
  · rw [hh, hh', List.append_assoc]
  · rw [hr', hr, List.reverse_append, List.append_assoc]
  · rw [List.filterMap_append]
    exact List.rel_append hf (hf'.imp fun off v ⟨b, hb⟩ => hb ▸ hv off b)
  · rw [hw', hw hi, List.all_append, Bool.not_and, Bool.or_assoc]

theorem ServedSince.host_suffix (h : ServedSince i s0 s) : s.host <:+ s0.host := by
  obtain ⟨served, _, hh, _⟩ := h
  exact ⟨served, hh.symm⟩

/-- Before any action the Host is served, and a write that arrived first with it. -/
theorem Running.served (h : Running i s0 ts s) :
    ∃ s1, serve s.host s = .go s1 ∧ Running i s0 ts s1 ∧ FirstWriteServed s0 s1 ∧ s1.work = s.work := by
  obtain ⟨hn, ha, hc, hs⟩ := h
  obtain ⟨s1, e⟩ := serve_of_noReset s hn
  obtain ⟨hk, hsuf, -⟩ := serve_go e
  refine ⟨s1, e, ⟨noReset_serve e hn, ?_, ?_, hs.serve e (hostRead_running ha hc)⟩, ?_, by rw [hk]⟩
  · rw [hk]; exact ha
  · rw [hk]; exact hc
  · intro off v rest h0
    rcases List.suffix_cons_iff.1 (h0 ▸ hs.host_suffix : s.host <:+ _ :: rest) with hh | hh
    · rw [hh] at e
      exact (serve_go (h := rest) (s := dropWrite s) e).2.1
    · exact hsuf.trans hh

theorem Running.issue {x : Transaction} {q : SeqState} (h : Held us (Running i s0 ts) s) :
    (issue x q s).At (Held us (Running i s0 ts)) (Done i s0) := by
  obtain ⟨hu, h⟩ := h
  obtain ⟨s1, e, ⟨hn, ha, hc, hs⟩, hf, hw⟩ := h.served
  rcases issue_cases x q s with ⟨_, e', -, hi⟩ | ⟨_, e', -, hi⟩ | ⟨_, _, e', -⟩ <;>
    cases e.symm.trans e' <;> rw [hi]
  · exact .running ⟨by rw [completed_work_todo, hw]; exact hu, hn, ha, hc, hs⟩
  · exact .ended ⟨hs, hf⟩

theorem Running.lastAction {f : State → State}
    (hf : ∀ s1, Done i s0 s1 → Done i s0 (f s1)) (h : Running i s0 ts s) :
    Done i s0 (lastAction f s) := by
  obtain ⟨s1, e, ⟨_, _, _, hs⟩, hw, _⟩ := h.served
  rw [lastAction_of_go e]
  exact hf s1 ⟨hs, hw⟩

theorem Running.raise (h : Running i s0 ts s) {c : Result} (hc : c ≠ .hwTimeout) :
    (raise c s).At (Running i s0 []) (Done i s0) :=
  .ended (h.lastAction fun s1 h1 => by unfold abort; rw [if_neg hc]; exact h1)

theorem Running.close {r : Flow} (h : r.At (Running i s0 []) (Done i s0)) : Done i s0 r.close := by
  cases h with
  | running h => exact h.lastAction fun _ h1 => h1
  | ended h => exact h

theorem Running.writeByte {a : Address} {v : Byte} (h : Held us (Running i s0 ts) s) :
    (writeByte a v s).At (Held us (Running i s0 ts)) (Done i s0) :=
  Run.andThen (Running.issue h) Running.issue

theorem Running.plotCore {x y : Int} (h : Held us (Running i s0 ts) s) :
    (plotCore x y s).At (Held us (Running i s0 ts)) (Done i s0) :=
  Run.andThen (Run.andThen (Running.issue h) fun h => Run.andThen (Running.issue h) Running.issue)
    Running.writeByte

theorem Running.plotClipped {x y : Int} (h : Held us (Running i s0 ts) s) :
    (plotClipped x y s).At (Held us (Running i s0 ts)) (Done i s0) := by
  unfold Machine.plotClipped
  split
  · exact Running.plotCore h
  · exact .running h

/-- Only an advance moves the cursor. -/
theorem Running.runTask (h : Held us (Running i s0 (t :: ts)) s) :
    (runTask t s).At (Held us (Running i s0 ts)) (Done i s0) := by
  obtain ⟨hu, hn, ha, hc, hs⟩ := h
  have h' : Held us (Running i s0 ts) s := ⟨hu, hn, ha, hc.tail, hs⟩
  cases t with
  | point x y => exact Running.plotClipped h'
  | store a v => exact Running.writeByte h'
  | column ch j =>
    show (blitColumn ch j s).At _ _
    unfold blitColumn storeClipped
    split
    · exact Running.writeByte h'
    · exact .running h'
  | dot ch j k =>
    show (blitDot ch j k s).At _ _
    unfold blitDot
    split
    · exact Running.plotClipped h'
    · exact .running h'
  | advance f =>
    have hr : Running i s0 (.advance f :: ts) s := ⟨hn, ha, hc, hs⟩
    obtain ⟨s1, e, ⟨hn1, ha1, hc1, hs1⟩, -, hw⟩ := hr.served
    show (internalAction (Machine.advance f) s).At _ _
    rw [internalAction_of_go e]
    exact .running ⟨(congrArg Work.todo hw).trans hu, hn1, ha1, hc1.advance, hs1⟩

theorem Running.raster (h : Running i s0 ts s) : (raster ts s).At (Running i s0 []) (Done i s0) :=
  raster_at (P := Running i s0) (fun h => Running.runTask h) (fun h => h) h

/-! ### Whole commands -/

/-- A command starts with the tasks of its rule, whose glyphs are at most its own and of its font. -/
theorem running_startWork (hn : s.noReset = true)
    (hf : ∀ g, .advance g ∈ ts → g = (glyphsOf i s).1)
    (hc : ts.count (.advance (glyphsOf i s).1) ≤ (glyphsOf i s).2) :
    Running i s ts (startWork i s) := by
  have hc0 : CursorAt i s ts (startWork i s) := ⟨hf, 0, by rwa [Nat.zero_add], rfl⟩
  exact ⟨hn, ⟨sameOperands_refl s, rfl, rfl, rfl⟩, hc0, [], [], rfl, rfl, .nil, fun _ => (Bool.or_false _).symm⟩

/-- Tasks without an advance fit any command. -/
theorem running_startWork_of_drawing (hn : s.noReset = true) (hf : ∀ g, .advance g ∉ ts) :
    Running i s ts (startWork i s) :=
  running_startWork hn (fun g hg => absurd hg (hf g)) (by rw [List.count_eq_zero_of_not_mem (hf _)]; omega)

theorem advance_mem_glyphTasks {f g : Font} {ch : Byte} (h : .advance g ∈ glyphTasks f ch) : g = f := by
  cases f <;> simpa [glyphTasks] using h

theorem count_advance_glyphTasks (f : Font) (ch : Byte) : (glyphTasks f ch).count (.advance f) = 1 := by
  cases f <;> rfl

theorem count_advance_glyphs (f : Font) (cs : List Byte) :
    (cs.flatMap (glyphTasks f)).count (.advance f) = cs.length := by
  rw [List.count_flatMap]
  simp [Function.comp_def, count_advance_glyphTasks]

/-- The glyphs of a text command, at most as many as its `glyphsOf`. -/
theorem running_startWork_glyphs {f : Font} {cs : List Byte} (hn : s.noReset = true)
    (hf : f = (glyphsOf i s).1) (hc : cs.length ≤ (glyphsOf i s).2) :
    Running i s (cs.flatMap (glyphTasks f)) (startWork i s) := by
  refine running_startWork hn (fun g hg => ?_) ?_
  · obtain ⟨ch, -, hg⟩ := List.mem_flatMap.1 hg
    exact (advance_mem_glyphTasks hg).trans hf
  · rw [← hf, count_advance_glyphs]
    exact hc

theorem running_startWork_glyph {f : Font} {ch : Byte} (hn : s.noReset = true)
    (hg : glyphsOf i s = (f, 1)) : Running i s (glyphTasks f ch) (startWork i s) := by
  have h := running_startWork_glyphs (i := i) (cs := [ch]) hn (f := f) (by rw [hg]) (by rw [hg]; rfl)
  rwa [List.flatMap_singleton] at h

theorem advance_not_mem_pointTasks (ps : List (Int × Int)) (g : Font) : .advance g ∉ pointTasks ps := by
  simp [pointTasks]

theorem runCommand_done {body : State → Flow}
    (h : Running i s ts (startWork i s))
    (hb : (body (startWork i s)).At (Running i s []) (Done i s)) : Done i s (runCommand i body s) := by
  unfold runCommand runAlways
  refine Running.close ?_
  beta_reduce
  split
  · exact h.raise (by decide)
  · exact hb

theorem runCommand_raster_done {body : State → Flow}
    (h : Running i s ts (startWork i s)) (hb : body (startWork i s) = raster ts (startWork i s)) :
    Done i s (runCommand i body s) :=
  runCommand_done h (by rw [hb]; exact h.raster)

/-- INIT: nothing is claimed of BUSYWR, which its clearing of STATUS writes. -/
theorem initBody_done {u : BitVec 2} (h : Running (.init u) s0 [] s) :
    (initBody s).At (Running (.init u) s0 []) (Done (.init u) s0) := by
  obtain ⟨s1, e, ⟨hn, ha, hc, served, new, hh, hr, hf, -⟩, -⟩ := h.served
  have h1 : Running (.init u) s0 [] (acknowledge s1) :=
    ⟨hn, ha, hc, served, new, hh, hr, hf, fun hi => absurd rfl (hi u)⟩
  unfold initBody
  rw [internalAction_of_go e]
  exact .ended (h1.lastAction fun _ h2 => h2)

/-- In a run without a reset every command accounts for the accesses it served. -/
theorem exec_done (i : Instr) {s : State} (hn : s.noReset = true) : ∃ t, exec i s = .next t ∧ Done i s t := by
  have hd : ∀ {i ts}, (∀ g, .advance g ∉ ts) → Running i s ts (startWork i s) :=
    running_startWork_of_drawing hn
  have h0 : ∀ {i}, Running i s [] (startWork i s) := hd fun _ => List.not_mem_nil
  cases i with
  | nop u => exact ⟨_, exec_nop u s, runCommand_done h0 (.running h0)⟩
  | init u => exact ⟨_, exec_init u s, Running.close (initBody_done h0)⟩
  | plot c u =>
    refine ⟨_, exec_plot c u s, runCommand_done h0 ?_⟩
    unfold plotBody
    split
    · exact (Running.plotCore ⟨rfl, h0⟩).mono fun h => h.2
    · exact h0.raise (by decide)
  | rect c u => exact ⟨_, exec_rect c u s, runCommand_raster_done (hd (advance_not_mem_pointTasks _)) rfl⟩
  | fill c u => exact ⟨_, exec_fill c u s, runCommand_raster_done (hd (by simp)) rfl⟩
  | circle c u => exact ⟨_, exec_circle c u s, runCommand_raster_done (hd (advance_not_mem_pointTasks _)) rfl⟩
  | char8 c u => exact ⟨_, exec_char8 c u s, runCommand_raster_done (running_startWork_glyph hn rfl) rfl⟩
  | char3 c u => exact ⟨_, exec_char3 c u s, runCommand_raster_done (running_startWork_glyph hn rfl) rfl⟩
  | string c f =>
    have hg : Running (.string c f) s ((stringChars (startWork (.string c f) s)).flatMap
        (glyphTasks (startWork (.string c f) s).work.font)) (startWork (.string c f) s) := by
      rw [show (startWork (.string c f) s).work.font = f from Font.ofBit_bit f]
      exact running_startWork_glyphs hn rfl (List.length_take_le _ _)
    refine ⟨_, exec_string c f s, runCommand_done hg ?_⟩
    unfold stringBody
    split
    · exact hg.raise (by decide)
    · exact hg.raster
  | setcur u =>
    exact ⟨_, exec_setcur u s, runCommand_done h0 (.ended (h0.lastAction fun _ h1 => h1))⟩

/-- Settles O30: every access served while a command runs is in `Done`, each read with what it returned. -/
theorem readsWhileBusyAreStable : Obligations.ReadsWhileBusyAreStable := by
  intro i s hn
  obtain ⟨t, he, ⟨served, new, hh, hr, hf, -⟩, -⟩ := exec_done i hn
  exact ⟨t, served, new, he, hh, hr, hf.imp fun _ _ h => h.1⟩

end Sys2Proof.Machine
end

/-! SUPPORT. A STRING below the screen, whose glyphs draw nothing, with CURX read before each action
(44_text.md rules R107, R112, R114). -/

section
namespace Sys2Proof.Machine

/-- `n` reads of CURX, each with a pause after it that lets one action pass. -/
def curxPolls (n : Nat) : List HostEvent := (List.replicate n [.r16 0x0C, .pause]).flatten

theorem serve_curxPolls {n : Nat} {s : State} (h : s.host = curxPolls (n + 1)) :
    serve s.host s = .go { s with host := curxPolls n, reads := s.curx :: s.reads } := by
  rw [h, ← hostRead_curx (off := 0x0C) rfl s]
  rfl

/-- The parts of a glyph below the screen but its advance draw nothing (44_text.md rule R114). -/
theorem runTask_below_screen {f : Font} {ch : Byte} {t : Task} (ht : t ∈ glyphTasks f ch)
    (ha : t ≠ .advance f) {s : State} (hy : 64 ≤ s.cury.toNat) : runTask t s = .running s := by
  have hoff : ∀ x (k : Nat), onScreen x (s.cury.toNat + k) = false := fun x k => by
    rw [Bool.eq_false_iff, Ne, onScreen_iff]
    omega
  cases f with
  | f8x8 =>
    obtain ⟨j, -, rfl⟩ := List.mem_map.1 ((List.mem_append.1 ht).resolve_right (by simpa using ha))
    show blitColumn ch j s = _
    unfold blitColumn storeClipped
    rw [if_neg (by simpa using hoff _ 0)]
  | f3x6 =>
    obtain ⟨j, -, hk⟩ := List.mem_flatMap.1 ((List.mem_append.1 ht).resolve_right (by simpa using ha))
    obtain ⟨k, -, rfl⟩ := List.mem_map.1 hk
    show blitDot ch j k s = _
    unfold blitDot plotClipped
    rw [hoff, if_neg Bool.false_ne_true, ite_self]

/-- Glyphs below the screen with one poll of CURX for each action to come: the polls so far have returned the
cursor after each glyph counted. -/
def Polled (f : Font) (s0 : State) (n : Nat) (ts : List Task) (s : State) : Prop :=
  (∀ t ∈ ts, ∃ ch, t ∈ glyphTasks f ch) ∧ 64 ≤ s.cury.toNat ∧
  s.host = curxPolls (ts.count (.advance f) + 1) ∧
  ∃ m, m + ts.count (.advance f) = n ∧ s.curx = curxAfter f m s0.curx ∧
    s.reads = ((List.range m).map fun m => curxAfter f m s0.curx).reverse ++ s0.reads

theorem reads_succ (f : Font) (x : Word) (m : Nat) (rs : List Word) :
    ((List.range (m + 1)).map fun m => curxAfter f m x).reverse ++ rs =
      curxAfter f m x :: (((List.range m).map fun m => curxAfter f m x).reverse ++ rs) := by
  simp [List.range_succ]

theorem Polled.runTask {f : Font} {s0 s : State} {n : Nat} {t : Task} {ts us : List Task}
    (h : Held us (Polled f s0 n (t :: ts)) s) :
    (runTask t s).At (Held us (Polled f s0 n ts)) fun _ => False := by
  obtain ⟨hu, hg, hy, hh, m, hm, hx, hr⟩ := h
  have hg' : ∀ t ∈ ts, ∃ ch, t ∈ glyphTasks f ch := fun t ht => hg t (List.mem_cons_of_mem _ ht)
  by_cases ha : t = .advance f
  · subst ha
    rw [List.count_cons_self] at hh hm
    show (internalAction (Machine.advance f) s).At _ _
    rw [internalAction_of_go (serve_curxPolls hh)]
    refine .running ⟨hu, hg', hy, rfl, m + 1, by omega, ?_, ?_⟩
    · rw [advance_curx, hx]
      rfl
    · rw [reads_succ, ← hr, ← hx]
      rfl
  · rw [List.count_cons_of_ne ha] at hh hm
    obtain ⟨ch, hch⟩ := hg t List.mem_cons_self
    rw [runTask_below_screen hch ha hy]
    exact .running ⟨hu, hg', hy, hh, m, hm, hx, hr⟩

/-- The completion answers the last poll. -/
theorem Polled.finish {f : Font} {s0 s : State} {n : Nat} (h : Polled f s0 n [] s) :
    (lastAction (finish .ok) s).reads =
      ((List.range (n + 1)).map fun m => curxAfter f m s0.curx).reverse ++ s0.reads := by
  obtain ⟨-, -, hh, m, rfl, hx, hr⟩ := h
  rw [lastAction_of_go (serve_curxPolls hh), List.count_nil, Nat.add_zero, reads_succ, ← hr, ← hx]
  rfl

theorem polled_startWork {i : Instr} {f : Font} {s : State} {cs : List Byte} (hy : 64 ≤ s.cury.toNat)
    (hh : s.host = curxPolls (cs.length + 1)) :
    Polled f s cs.length (cs.flatMap (glyphTasks f)) (startWork i s) := by
  have hc := count_advance_glyphs f cs
  refine ⟨fun t ht => ?_, hy, by rw [hc]; exact hh, 0, by rw [hc, Nat.zero_add], rfl, rfl⟩
  obtain ⟨ch, -, hch⟩ := List.mem_flatMap.1 ht
  exact ⟨ch, hch⟩

/-- A STRING below the screen, polled once before each action. -/
theorem exec_string_polled (c : Color) (f : Font) {s : State} {n : Nat} (hf : s.fault = false)
    (hl : s.arg0.toNat = n) (hn : n ≤ 64) (hy : 64 ≤ s.cury.toNat) (hh : s.host = curxPolls (n + 1)) :
    ∃ t, exec (.string c f) s = .next t ∧
      t.reads = ((List.range (n + 1)).map fun m => curxAfter f m s.curx).reverse ++ s.reads := by
  have hfont : (startWork (.string c f) s).work.font = f := Font.ofBit_bit f
  have hlen : stringLen (startWork (.string c f) s) = n := hl
  have hcs : (stringChars (startWork (.string c f) s)).length = n := by
    unfold stringChars
    rw [hlen, List.length_take, Vector.length_toList, Nat.min_eq_left hn]
  refine ⟨_, exec_string c f s, ?_⟩
  rw [runCommand_of_not_fault hf]
  unfold stringBody
  rw [if_neg (by rw [hlen]; exact not_lt.2 hn), hfont]
  have hr := raster_at Polled.runTask id (polled_startWork (i := .string c f) (f := f) hy (hcs.symm ▸ hh))
  rw [hcs] at hr
  generalize raster _ _ = r at hr ⊢
  cases hr with
  | running h => exact h.finish
  | ended h => exact h.elim

/-- Settles O31: the reads by `Done` (the cursor bounded through `CursorAt`), the polled STRING by `Polled`. -/
theorem liveReadsWhileBusy : Obligations.LiveReadsWhileBusy := by
  refine ⟨fun i s hn => ?_, fun c f s n hf hl hn hy hh => exec_string_polled c f hf hl hn hy hh⟩
  obtain ⟨t, he, ⟨served, new, hh, hr, hf, -⟩, -⟩ := exec_done i hn
  exact ⟨t, served, new, he, hh, hr, hf.imp fun _ _ h => h.2⟩

end Sys2Proof.Machine
end

/-! SUPPORT. BUSYWR and the host write that arrives first (10_state.md rule R20). -/

section
namespace Sys2Proof.Machine

theorem serve_first_write {off : BitVec 7} {v : Word} {rest : List HostEvent} {s s1 : State}
    (h : s.host = .w16 off v :: rest) (e : serve s.host s = .go s1) : s1.busyWr = true := by
  rw [h] at e
  obtain ⟨-, -, hset, -⟩ := serve_go (h := rest) (s := dropWrite s) e
  exact hset rfl

theorem lastAction_first_write {f : State → State} (hf : ∀ s, (f s).busyWr = s.busyWr) {off : BitVec 7}
    {v : Word} {rest : List HostEvent} {s : State} (hn : s.noReset = true)
    (h : s.host = .w16 off v :: rest) : (lastAction f s).busyWr = true := by
  obtain ⟨s1, e⟩ := serve_of_noReset s hn
  rw [lastAction_of_go e, hf]
  exact serve_first_write h e

/-- If the write that arrived first has been served, it is among the accesses served, and BUSYWR is set. -/
theorem FirstWriteServed.busyWr {s0 t : State} {served : List HostEvent} (hf : FirstWriteServed s0 t)
    (h : s0.host = served ++ t.host) (hw : t.busyWr = (s0.busyWr || !served.all HostEvent.notWrite))
    {off : BitVec 7} {v : Word} {rest : List HostEvent}
    (h0 : s0.host = .w16 off v :: rest) : t.busyWr = true := by
  cases served with
  | nil =>
    have hl := (hf off v rest h0).length_le
    rw [List.nil_append, h0] at h
    rw [← h, List.length_cons] at hl
    omega
  | cons e served =>
    obtain ⟨rfl, -⟩ : .w16 off v = e ∧ _ := List.cons.inj (h0.symm.trans h)
    rw [hw]
    simp [HostEvent.notWrite]

/-- A rejected word's one action serves the Host. -/
theorem rejectCommand_busyWr {s : State} (hn : s.noReset = true) :
    ∃ served, s.host = served ++ (rejectCommand s).host ∧
      (rejectCommand s).busyWr = (s.busyWr || !served.all HostEvent.notWrite) := by
  obtain ⟨s1, e⟩ := serve_of_noReset { s with busy := true } hn
  obtain ⟨served, -, hh, -, -, hw, -⟩ := serve_served e
  rw [show rejectCommand s = abort .badCommand s1 from lastAction_of_go e]
  exact ⟨served, hh, hw⟩

/-- A write that arrives after INIT's clearing of BUSYWR sets it again. -/
theorem exec_init_busyWr (u : BitVec 2) {off : BitVec 7} {v : Word} {rest : List HostEvent} {s : State}
    (hn : s.noReset = true) (hh : s.host = .pause :: .w16 off v :: rest) :
    ∃ t, exec (.init u) s = .next t ∧ t.busyWr = true := by
  have e : serve (startWork (.init u) s).host (startWork (.init u) s) =
      .go { startWork (.init u) s with host := .w16 off v :: rest } := by
    rw [startWork_host, hh]
    rfl
  have hn' : (acknowledge { startWork (.init u) s with host := .w16 off v :: rest }).noReset = true :=
    notReset_of_suffix (hh ▸ List.suffix_cons _ _) hn
  refine ⟨_, exec_init u s, ?_⟩
  unfold runAlways initBody
  rw [internalAction_of_go e]
  exact lastAction_first_write (f := fun s => finish .ok (homeCursor s)) (fun _ => rfl) hn' rfl

/-- Settles O32: BUSYWR follows the writes served (`Done`), and a write that arrives first is served before the
command's first action, whichever that is. -/
theorem writesWhileBusySetBusyWr : Obligations.WritesWhileBusySetBusyWr := by
  refine ⟨fun i s hi hn => ?_, fun s hn => ?_, fun u s off v rest hn hh => exec_init_busyWr u hn hh⟩
  · obtain ⟨t, he, ⟨served, new, hh, -, -, hw⟩, hfirst⟩ := exec_done i hn
    exact ⟨t, served, he, hh, hw hi, fun _ _ _ h0 => hfirst.busyWr hh (hw hi) h0⟩
  · obtain ⟨served, hh, hw⟩ := rejectCommand_busyWr hn
    exact ⟨served, hh, hw, fun _ _ _ h0 =>
      lastAction_first_write (f := abort .badCommand) (s := { s with busy := true }) (fun _ => rfl) hn h0⟩

end Sys2Proof.Machine
end

/-! SUPPORT. The host register file (20_memory.md rules R40 to R42): what a read of each register returns, and
what a write of each stores. -/

section
namespace Sys2Proof.Machine

variable {off : BitVec 7} {s : State} {v : Word}

/-- The low bit of an offset is ignored (20_memory.md rule R40). -/
theorem hostRead_even (off : BitVec 7) (s : State) :
    hostRead (BitVec.ofNat 7 (2 * (off.toNat / 2))) s = hostRead off s := by
  have ho : wordOffset (BitVec.ofNat 7 (2 * (off.toNat / 2))) = wordOffset off := by
    rw [wordOffset_eq, wordOffset_eq, BitVec.toNat_ofNat]
    omega
  unfold hostRead
  rw [ho]

theorem hostRead_cmd (h : off.toNat / 2 = 0) : hostRead off s = s.cmd := by
  unfold hostRead
  simp [wordOffset_eq, h]

theorem hostRead_arg0 (h : off.toNat / 2 = 2) : hostRead off s = s.arg0 := by
  unfold hostRead
  simp [wordOffset_eq, h]

theorem hostRead_arg1 (h : off.toNat / 2 = 3) : hostRead off s = s.arg1 := by
  unfold hostRead
  simp [wordOffset_eq, h]

theorem hostRead_arg2 (h : off.toNat / 2 = 4) : hostRead off s = s.arg2 := by
  unfold hostRead
  simp [wordOffset_eq, h]

theorem hostRead_arg3 (h : off.toNat / 2 = 5) : hostRead off s = s.arg3 := by
  unfold hostRead
  simp [wordOffset_eq, h]

theorem hostRead_charWord {j : Nat} (hj : j < 32) (h : off.toNat / 2 = 8 + j) :
    hostRead off s = s.charWord j := by
  unfold hostRead
  have e : (2 * (8 + j) - 16) / 2 = j := by omega
  simp (disch := omega) only [wordOffset_eq, h, e, if_neg, if_pos]

theorem hostRead_reserved (h : 0x50 ≤ off.toNat) : hostRead off s = 0 := by
  unfold hostRead
  simp (disch := omega) only [wordOffset_eq, if_neg]

/-- Settles O13: each register by its own lemma; the step only records the read. -/
theorem hostReadMap : Obligations.HostReadMap := by
  intro s off rest hh
  exact ⟨step_event hh rfl, (hostRead_even off s).symm, hostRead_cmd, fun h => hostRead_status h s,
    hostRead_arg0, hostRead_arg1, hostRead_arg2, hostRead_arg3, fun h => hostRead_curx h s,
    fun h => hostRead_cury h s, fun _ hj h => hostRead_charWord (by omega) h, hostRead_reserved⟩

theorem hostWrite_of_busy (hb : s.busy = true) : hostWrite off v s = dropWrite s := by
  unfold hostWrite
  exact if_pos hb

theorem hostWrite_arg0 (hb : s.busy = false) (h : off.toNat / 2 = 2) :
    hostWrite off v s = { s with arg0 := v } := by
  unfold hostWrite
  simp [wordOffset_eq, hb, h]

theorem hostWrite_arg1 (hb : s.busy = false) (h : off.toNat / 2 = 3) :
    hostWrite off v s = { s with arg1 := v } := by
  unfold hostWrite
  simp [wordOffset_eq, hb, h]

theorem hostWrite_arg2 (hb : s.busy = false) (h : off.toNat / 2 = 4) :
    hostWrite off v s = { s with arg2 := v } := by
  unfold hostWrite
  simp [wordOffset_eq, hb, h]

theorem hostWrite_arg3 (hb : s.busy = false) (h : off.toNat / 2 = 5) :
    hostWrite off v s = { s with arg3 := v } := by
  unfold hostWrite
  simp [wordOffset_eq, hb, h]

/-- STATUS, CURX, CURY and the reserved offsets ignore a write. -/
theorem hostWrite_readOnly (hb : s.busy = false)
    (h : off.toNat / 2 = 1 ∨ off.toNat / 2 = 6 ∨ off.toNat / 2 = 7 ∨ 0x50 ≤ off.toNat) :
    hostWrite off v s = s := by
  unfold hostWrite
  simp (disch := omega) only [wordOffset_eq, hb, Bool.false_eq_true, if_neg, if_false]

/-- A step on a write while BUSY = 1. -/
theorem step_write_of_busy {rest : List HostEvent} (hh : s.host = .w16 off v :: rest)
    (hb : s.busy = true) : step s = .next { s with host := rest, busyWr := true } := by
  rw [step_event hh (by simp [commandOf, hb])]
  exact congrArg Host.Outcome.next (hostWrite_of_busy (s := { s with host := rest }) hb)

/-- Settles O15: a write to CMD by `step_command`, every other by `step_write` and the register's own lemma. -/
theorem hostWriteMap : Obligations.HostWriteMap := by
  intro s off v rest hh
  refine ⟨step_write_of_busy hh, fun hb => ?_⟩
  have hb' : ({ s with host := rest } : State).busy = false := hb
  have hw {t : State} (h0 : off.toNat / 2 ≠ 0) (ht : hostWrite off v { s with host := rest } = t) :
      step s = .next t := ht ▸ step_write hh h0
  refine ⟨fun h => step_command hh h hb, fun h => hw (by omega) (hostWrite_arg0 hb' h),
    fun h => hw (by omega) (hostWrite_arg1 hb' h), fun h => hw (by omega) (hostWrite_arg2 hb' h),
    fun h => hw (by omega) (hostWrite_arg3 hb' h), fun j hj h => ?_,
    fun h => hw (by omega) (hostWrite_readOnly hb' h)⟩
  have hc := charAt_set_word v { s with host := rest } hj
  refine ⟨_, hw (by omega) (hostWrite_charbuf v hb' hj h), rfl, ?_, ?_, fun k h0 h1 => ?_⟩
  · rw [hc, if_pos rfl]
  · rw [hc, if_neg (by omega), if_pos rfl]
  · rw [hc, if_neg h0, if_neg h1]
    rfl

theorem charWord_toNat (s : State) (j : Nat) :
    (s.charWord j).toNat = (s.charAt (2 * j)).toNat + 256 * (s.charAt (2 * j + 1)).toNat := by
  unfold State.charWord
  rw [BitVec.toNat_append, ← Nat.shiftLeft_add_eq_or_of_lt (s.charAt (2 * j)).isLt, Nat.shiftLeft_eq]
  omega

theorem bytes_append (v : Word) : v.extractLsb' 8 8 ++ v.extractLsb' 0 8 = v :=
  (BitVec.extractLsb'_append_extractLsb'_eq_extractLsb' (start₂ := 8) (start₁ := 0) (len₁ := 8) (len₂ := 8)
    rfl).trans BitVec.extractLsb'_eq_self

/-- Settles O16: a read and a write name the same two characters, and the two bytes of a word make it up. -/
theorem charbufReadsBack : Obligations.CharbufReadsBack := by
  intro s off v j hj ho
  have hj' : j < 32 := by omega
  have h : off.toNat / 2 = 8 + j := by omega
  refine ⟨by rw [hostRead_charWord hj' h, charWord_toNat], fun hb => ?_⟩
  rw [hostRead_charWord hj' h, hostWrite_charbuf v hb hj' h]
  have hlow : ({ s with charbuf := setCharWord s.charbuf j v } : State).charAt (2 * j) = v.extractLsb' 0 8 := by
    rw [charAt_set_word v s hj', if_pos rfl]
  have hhigh : ({ s with charbuf := setCharWord s.charbuf j v } : State).charAt (2 * j + 1) =
      v.extractLsb' 8 8 := by
    rw [charAt_set_word v s hj', if_neg (by omega), if_pos rfl]
  refine ⟨hlow, hhigh, ?_⟩
  unfold State.charWord
  rw [hlow, hhigh, bytes_append]

end Sys2Proof.Machine
end

/-! SUPPORT. What a transaction does to the display (20_memory.md rules R47 to R52), its own side apart from the
other, and what a list of them does. -/

section
namespace Sys2Proof.Machine

variable {d : Display} {t : Transaction} {s sd : Side} {n : Nat}

theorem perform_chip_other (h : sd ≠ sideOf t) : (d.perform t).chip sd = d.chip sd := by
  cases t with
  | sel s p c => exact Display.setChip_chip_other _ _ h
  | rd s => exact Display.setChip_chip_other _ _ h
  | wr s v => exact (Display.setChip_chip_other _ _ h).trans (Display.putByte_chip ..)

theorem timeOut_chip_other (h : sd ≠ sideOf t) : (d.timeOut t n).chip sd = d.chip sd := by
  cases t with
  | sel s p c => exact Display.setChip_chip_other _ _ h
  | rd s => exact Display.setChip_chip_other _ _ h
  | wr s v =>
    refine (Display.setChip_chip_other _ _ h).trans ?_
    split
    · exact Display.putByte_chip ..
    · rfl

/-- Only a WR writes display memory. -/
theorem perform_dram (h : ∀ s v, t ≠ .wr s v) : (d.perform t).dram = d.dram := by
  cases t with
  | sel s p c => exact Display.setChip_dram ..
  | rd s => exact Display.setChip_dram ..
  | wr s v => exact absurd rfl (h s v)

theorem timeOut_dram (h : ∀ s v, t ≠ .wr s v) : (d.timeOut t n).dram = d.dram := by
  cases t with
  | sel s p c => exact Display.setChip_dram ..
  | rd s => exact Display.setChip_dram ..
  | wr s v => exact absurd rfl (h s v)

theorem perform_wr_byteAt (d : Display) (s : Side) (v : Byte) (a : Address) :
    (d.perform (.wr s v)).byteAt a = (d.putByte (d.pointer s) v).byteAt a := Display.byteAt_setChip ..

theorem timeOut_wr_byteAt (d : Display) (s : Side) (v : Byte) (n : Nat) (a : Address) :
    (d.timeOut (.wr s v) n).byteAt a =
      if Config.freeLanded n then (d.putByte (d.pointer s) v).byteAt a else d.byteAt a := by
  refine (Display.byteAt_setChip ..).trans ?_
  split <;> rfl

/-- A transaction writes at most the byte its side's cursor points at. -/
theorem perform_byteAt_other {a : Address} (h : a ≠ d.pointer (sideOf t)) :
    (d.perform t).byteAt a = d.byteAt a := by
  cases t with
  | sel s p c => exact Display.byteAt_setChip ..
  | rd s => exact Display.byteAt_setChip ..
  | wr s v => exact (perform_wr_byteAt ..).trans (Display.byteAt_putByte_other d v h)

theorem timeOut_byteAt_other {a : Address} (h : a ≠ d.pointer (sideOf t)) :
    (d.timeOut t n).byteAt a = d.byteAt a := by
  cases t with
  | sel s p c => exact Display.byteAt_setChip ..
  | rd s => exact Display.byteAt_setChip ..
  | wr s v =>
    rw [timeOut_wr_byteAt]
    split
    · exact Display.byteAt_putByte_other d v h
    · rfl

theorem ne_pointer_of_side {a : Address} (h : a.side ≠ s) : a ≠ d.pointer s := by
  rintro rfl
  exact h rfl

/-! #### Its own side's controller after a transaction that completes -/

theorem perform_sel_chip (d : Display) (s : Side) (p : BitVec 3) (c : BitVec 6) :
    (d.perform (.sel s p c)).chip s = { d.chip s with page := p, col := c } := Display.setChip_chip_same ..

theorem perform_rd_chip (d : Display) (s : Side) : (d.perform (.rd s)).chip s =
    { d.chip s with latch := d.byteAt (d.pointer s), col := (d.chip s).col + 1 } := Display.setChip_chip_same ..

theorem perform_wr_chip (d : Display) (s : Side) (v : Byte) :
    (d.perform (.wr s v)).chip s = { d.chip s with col := (d.chip s).col + 1 } := Display.setChip_chip_same ..

/-- Only an RD loads an output latch (20_memory.md rule R48). -/
theorem perform_latch (h : t ≠ .rd sd) : ((d.perform t).chip sd).latch = (d.chip sd).latch := by
  by_cases hs : sd = sideOf t
  · subst hs
    cases t with
    | sel s p c => exact (congrArg Chip.latch (perform_sel_chip d s p c) :)
    | rd s => exact absurd rfl h
    | wr s v => exact (congrArg Chip.latch (perform_wr_chip d s v) :)
  · rw [perform_chip_other hs]

theorem col_succ_toNat (c : BitVec 6) : (c + 1).toNat = (c.toNat + 1) % 64 := BitVec.toNat_add c 1

/-- Settles O21: each transaction replaces its side's controller, and WR stores one byte besides. -/
theorem transactionEffects : Obligations.TransactionEffects := by
  intro d s hw
  refine ⟨fun p c => ?_, ?_, fun v => ?_⟩
  · dsimp only
    rw [perform_sel_chip]
    exact ⟨rfl, rfl, rfl, perform_dram nofun⟩
  · dsimp only
    rw [perform_rd_chip]
    exact ⟨rfl, rfl, rfl, col_succ_toNat _, perform_dram nofun⟩
  · dsimp only
    rw [perform_wr_chip]
    refine ⟨?_, fun a ha => perform_byteAt_other (t := .wr s v) ha, rfl, rfl, col_succ_toNat _⟩
    rw [perform_wr_byteAt, Display.byteAt_putByte hw]
    exact if_pos rfl

/-- Settles O22: the controller by `setChip`, and the byte written, if any, is at the pointer of the
transaction's own side. -/
theorem transactionTouchesOnlyItsSide : Obligations.TransactionTouchesOnlyItsSide := by
  intro d t n s hs
  refine ⟨perform_chip_other hs, timeOut_chip_other hs, fun a ha => ?_⟩
  have hp : a ≠ d.pointer (sideOf t) := ne_pointer_of_side (ha ▸ hs)
  exact ⟨perform_byteAt_other hp, timeOut_byteAt_other hp⟩

/-- Settles O23: SEL and RD never reach the memory, and WR has landed or not (`Config.freeLanded`). -/
theorem timedOutTransactionEffects : Obligations.TimedOutTransactionEffects := by
  intro d n s hw
  refine ⟨fun p c => ⟨timeOut_dram nofun, fun s' hs => timeOut_chip_other hs⟩,
    ⟨timeOut_dram nofun, fun s' hs => timeOut_chip_other hs⟩,
    fun v => ⟨?_, fun a ha => timeOut_byteAt_other (t := .wr s v) ha, fun s' hs => timeOut_chip_other hs⟩⟩
  simp only [timeOut_wr_byteAt]
  split
  · exact .inr (by rw [Display.byteAt_putByte hw]; exact if_pos rfl)
  · exact .inl rfl

/-! ### A list of transactions -/

theorem Display.after_append (n : Nat) (as bs : List (Transaction × Answer)) (d : Display) :
    d.after n (as ++ bs) = (d.after n as).after n bs := by
  induction as generalizing d with
  | nil => rfl
  | cons e as ih =>
    obtain ⟨t, _ | _⟩ := e
    · exact ih (d.perform t)
    · exact ih (d.timeOut t n)

/-- What each of the transactions keeps, their list keeps. -/
theorem Display.after_keeps {α : Type} (f : Display → α) (n : Nat) {as : List (Transaction × Answer)}
    (hok : ∀ t, (t, .ok) ∈ as → ∀ d, f (d.perform t) = f d)
    (hto : ∀ t, (t, .timeout) ∈ as → ∀ d, f (d.timeOut t n) = f d) (d : Display) :
    f (d.after n as) = f d := by
  induction as generalizing d with
  | nil => rfl
  | cons e as ih =>
    have ih := ih (fun t h => hok t (List.mem_cons_of_mem _ h)) fun t h => hto t (List.mem_cons_of_mem _ h)
    obtain ⟨t, _ | _⟩ := e
    · exact (ih (d.perform t)).trans (hok t List.mem_cons_self d)
    · exact (ih (d.timeOut t n)).trans (hto t List.mem_cons_self d)

section After

variable {as : List (Transaction × Answer)}

/-- A side without a transaction keeps its controller and its bytes (20_memory.md rule R52). -/
theorem after_side (n : Nat) (h : ∀ e ∈ as, sideOf e.1 ≠ sd) (d : Display) :
    (d.after n as).chip sd = d.chip sd ∧ ∀ a : Address, a.side = sd → (d.after n as).byteAt a = d.byteAt a := by
  have hp {t x a} (ha : a.side = sd) (hm : (t, x) ∈ as) (d : Display) : a ≠ d.pointer (sideOf t) :=
    ne_pointer_of_side (ha ▸ (h _ hm).symm)
  exact ⟨Display.after_keeps (·.chip sd) n (fun _ hm _ => perform_chip_other (h _ hm).symm)
      (fun _ hm _ => timeOut_chip_other (h _ hm).symm) d,
    fun a ha => Display.after_keeps (·.byteAt a) n (fun _ hm d => perform_byteAt_other (hp ha hm d))
      (fun _ hm d => timeOut_byteAt_other (hp ha hm d)) d⟩

theorem after_dram (n : Nat) (h : ∀ e ∈ as, ∀ s v, e.1 ≠ .wr s v) (d : Display) :
    (d.after n as).dram = d.dram :=
  Display.after_keeps (·.dram) n (fun _ hm _ => perform_dram (h _ hm)) (fun _ hm _ => timeOut_dram (h _ hm)) d

theorem after_latch (n : Nat) (h : ∀ e ∈ as, e.1 ≠ .rd sd ∧ (sideOf e.1 = sd → e.2 = .ok)) (d : Display) :
    ((d.after n as).chip sd).latch = (d.chip sd).latch :=
  Display.after_keeps (fun d => (d.chip sd).latch) n (fun _ hm _ => perform_latch (h _ hm).1)
    (fun _ hm _ => congrArg Chip.latch (timeOut_chip_other fun hs => nomatch (h _ hm).2 hs.symm)) d

end After

end Sys2Proof.Machine
end

/-! SUPPORT. In every run of a command the display is what its transactions leave (20_memory.md rule R53), and
host accesses change nothing of the run (rule R41). -/

section
namespace Sys2Proof.Machine

/-- The display of `s` is what the transactions issued since `s0` leave, the free values numbered as in `s0`. -/
def ShowsItsTrace (s0 s : State) : Prop :=
  ∃ new, issued s0 s new ∧ s.disp = s0.disp.after s0.draws new

/-- While a command runs no free value has been drawn: the first TIMEOUT is the last transaction. -/
def DrawnSince (s0 s : State) : Prop := ShowsItsTrace s0 s ∧ s.draws = s0.draws

variable {s0 s s1 : State}

theorem ShowsItsTrace.congr (h : ShowsItsTrace s0 s) (ht : s1.trace = s.trace) (hd : s1.disp = s.disp) :
    ShowsItsTrace s0 s1 := by
  obtain ⟨new, hi, hs⟩ := h
  exact ⟨new, ht.trans hi, hd.trans hs⟩

/-- One more transaction. -/
theorem ShowsItsTrace.snoc (h : ShowsItsTrace s0 s) {e : Transaction × Answer} (ht : s1.trace = e :: s.trace)
    (hd : s1.disp = s.disp.after s0.draws [e]) : ShowsItsTrace s0 s1 := by
  obtain ⟨new, hi, hs⟩ := h
  have hi' : issued s s1 [e] := ht
  exact ⟨new ++ [e], issued_trans hi hi', by rw [hd, hs, Display.after_append]⟩

theorem abort_disp (c : Result) (s : State) : (abort c s).disp = s.disp := by
  unfold abort
  split <;> rfl

theorem ShowsItsTrace.abort (h : ShowsItsTrace s0 s) (c : Result) : ShowsItsTrace s0 (abort c s) :=
  h.congr (abort_trace c s) (abort_disp c s)

theorem DrawnSince.failed (h : DrawnSince s0 s) (t : Transaction) : ShowsItsTrace s0 (failed t s) :=
  h.1.snoc (e := (t, .timeout)) rfl (by rw [failed_disp, h.2]; rfl)

theorem run_drawnSince (s0 : State) : Run (DrawnSince s0) (ShowsItsTrace s0) where
  served h e := by
    rw [(serve_go e).1]
    exact h
  cut {s s1 c} t h e := by
    have h1 : DrawnSince s0 s1 := by
      rw [(serve_reset e).1]
      exact h
    refine ⟨h1.1, ?_⟩
    cases c
    · exact h1.1
    · exact h1.failed t
  completed t q h := ⟨h.1.snoc (e := (t, .ok)) rfl rfl, h.2⟩
  timedOut {s} t h := (DrawnSince.failed (s := { s with answers := s.answers.tail }) h t).abort _
  finish h := h.1
  setTodo _ h := h
  advance _ h := h

theorem exec_showsItsTrace (i : Instr) (s : State) : ∃ t, exec i s = .next t ∧ ShowsItsTrace s t :=
  (run_drawnSince s).exec (fun h => h.1.abort _) (fun h => h.1.abort _) (fun h => h) (fun h => h.1)
    (fun h => h.1) i (fun _ _ h => h.1.abort _) s ⟨⟨[], rfl, rfl⟩, rfl⟩

/-- Settles O26: the display is the fold of the transactions issued (`exec_showsItsTrace`), so what each of
them keeps is kept. -/
theorem displayChangesOnlyByTransactions : Obligations.DisplayChangesOnlyByTransactions := by
  intro i s
  obtain ⟨t, he, new, hi, hd⟩ := exec_showsItsTrace i s
  refine ⟨t, new, he, hi, hd, fun sd h => ?_, fun h => ?_, fun sd h => ?_⟩ <;> rw [hd]
  · exact after_side _ h _
  · exact after_dram _ h _
  · exact after_latch _ h _

/-- Equal but for what only the Host's accesses touch. -/
theorem eq_of_hush_eq (h : hush s = hush s1) :
    s = { s1 with host := s.host, reads := s.reads, busyWr := s.busyWr } :=
  congrArg (fun u : State => { u with host := s.host, reads := s.reads, busyWr := s.busyWr }) h

/-- Settles O29: the run is compared with the one without host accesses (`exec_hush`). -/
theorem hostAccessesDoNotDisturbACommand : Obligations.HostAccessesDoNotDisturbACommand := by
  intro i s hn
  obtain ⟨t, t', he, he', h⟩ := exec_hush i (s := s) (s' := { s with host := [] }) ⟨rfl, hn, rfl⟩
  exact ⟨t, t', he, he', eq_of_hush_eq h⟩

end Sys2Proof.Machine
end

/-! SUPPORT. The command word by its four fields (30_encoding.md rules R63 to R65): the encoder fills them, a
word is made up of them, and the decoder accepts a word exactly for the command that has them. -/

section
namespace Sys2Proof.Machine

/-- The word `w` has the fields of the command `i`: RSVD, FONT, COLOR, OPC (30_encoding.md rule R63). -/
def FieldsOf (i : Instr) (w : Word) : Prop :=
  w.extractLsb' 6 10 = 0 ∧ w.extractLsb' 5 1 = fontBit i ∧ w.extractLsb' 4 1 = colorBit i ∧
    w.extractLsb' 0 4 = opcodeOf i

variable {w : Word} {i : Instr}

theorem fieldsOf_encode (i : Instr) : FieldsOf i (encode i) := by
  unfold FieldsOf encode
  generalize fontBit i = f, colorBit i = c, opcodeOf i = o
  revert f c o
  decide

/-- A word is made up of its fields. -/
theorem fields_append (w : Word) :
    w.extractLsb' 6 10 ++ w.extractLsb' 5 1 ++ w.extractLsb' 4 1 ++ w.extractLsb' 0 4 = w := by
  have join : ∀ {m n k : Nat}, w.extractLsb' (m + n) k ++ w.extractLsb' m n = w.extractLsb' m (k + n) :=
    BitVec.extractLsb'_append_extractLsb'_eq_extractLsb' rfl
  calc
    _ = w.extractLsb' 5 11 ++ w.extractLsb' 4 1 ++ w.extractLsb' 0 4 := by rw [@join 5 1 10]
    _ = w.extractLsb' 4 12 ++ w.extractLsb' 0 4 := by rw [@join 4 1 11]
    _ = w.extractLsb' 0 16 := @join 0 4 12
    _ = w := BitVec.extractLsb'_eq_self

theorem FieldsOf.encode_eq (h : FieldsOf i w) : encode i = w := by
  obtain ⟨hr, hf, hc, ho⟩ := h
  rw [← fields_append w, hr, hf, hc, ho]
  rfl

@[simp] theorem Color.bit_ofBit (b : BitVec 1) : (Color.ofBit b).bit = b := by
  revert b; decide

@[simp] theorem Font.bit_ofBit (b : BitVec 1) : (Font.ofBit b).bit = b := by
  revert b; decide

/-- The two bits that NOP, INIT and SETCUR ignore are FONT and COLOR (30_encoding.md rule R69). -/
theorem unused_eq_font_color (w : Word) : w.extractLsb' 4 2 = w.extractLsb' 5 1 ++ w.extractLsb' 4 1 :=
  (BitVec.extractLsb'_append_extractLsb'_eq_extractLsb' (start₁ := 4) (len₁ := 1) (len₂ := 1) rfl).symm

theorem font_of_unused (w : Word) : (w.extractLsb' 4 2).extractLsb' 1 1 = w.extractLsb' 5 1 := by
  rw [unused_eq_font_color]
  exact BitVec.extractLsb'_append_eq_left

theorem color_of_unused (w : Word) : (w.extractLsb' 4 2).extractLsb' 0 1 = w.extractLsb' 4 1 := by
  rw [unused_eq_font_color]
  exact BitVec.extractLsb'_append_eq_right

theorem font_append_color (u : BitVec 2) : u.extractLsb' 1 1 ++ u.extractLsb' 0 1 = u := by
  revert u; decide

/-- The decoder accepts a word exactly for the command that has its fields (30_encoding.md rule R71). -/
theorem decodeWord_eq_ok_iff : decodeWord w = .ok i ↔ FieldsOf i w := by
  unfold decodeWord FieldsOf
  dsimp only
  constructor
  · intro h
    split_ifs at h with hr
    refine ⟨not_not.1 hr, ?_⟩
    split at h
    case h_11 => cases h
    all_goals
      next ho =>
      cases h
      exact ⟨by simp [fontBit, font_of_unused], by simp [colorBit, color_of_unused], BitVec.eq_of_toNat_eq ho⟩
  · rintro ⟨hr, hf, hc, ho⟩
    rw [unused_eq_font_color, hr, hf, hc, ho, if_neg (by simp)]
    cases i with
    | nop u | init u | setcur u => simp [opcodeOf, fontBit, colorBit, font_append_color]
    | plot c u | rect c u | fill c u | circle c u | char8 c u | char3 c u =>
      simp [opcodeOf, fontBit, colorBit, Color.ofBit_bit]
    | string c f => simp [opcodeOf, fontBit, colorBit, Color.ofBit_bit, Font.ofBit_bit]

/-- Settles O2: the encoding has the command's fields, so the decoder accepts it for that command. -/
theorem decodeOfEncodeIsTheCommand : Obligations.DecodeOfEncodeIsTheCommand :=
  fun i => decodeWord_eq_ok_iff.2 (fieldsOf_encode i)

/-- Settles O3: the word and the encoding have the same fields, of which each is made up. -/
theorem encodeOfDecodeIsTheWord : Obligations.EncodeOfDecodeIsTheWord :=
  fun _ _ h => (decodeWord_eq_ok_iff.1 h).encode_eq

/-- Settles O1: each word evaluated. -/
theorem writtenWordsDecode : Obligations.WrittenWordsDecode := by
  unfold Obligations.WrittenWordsDecode
  decide

end Sys2Proof.Machine
end

/-! SUPPORT. Which words the decoder accepts (30_encoding.md rule R71), and how a rejected one ends. -/

section
namespace Sys2Proof.Machine

variable {w : Word} {i : Instr}

/-- The mask of RSVD keeps bits 15:6 in their place. -/
theorem and_rsvd_mask (w : Word) : w &&& 0xFFC0#16 = w.extractLsb' 6 10 ++ 0#6 := by
  have hw : w = w.extractLsb' 6 10 ++ w.extractLsb' 0 6 :=
    ((BitVec.extractLsb'_append_extractLsb'_eq_extractLsb' (start₁ := 0) (len₁ := 6) (len₂ := 10) rfl).trans
      BitVec.extractLsb'_eq_self).symm
  calc
    _ = (w.extractLsb' 6 10 ++ w.extractLsb' 0 6) &&& (BitVec.allOnes 10 ++ 0#6) := congrArg (· &&& _) hw
    _ = w.extractLsb' 6 10 ++ 0#6 := by rw [BitVec.and_append, BitVec.and_allOnes, BitVec.and_zero]

/-- The mask of OPC keeps bits 3:0. -/
theorem and_opc_mask (w : Word) : w &&& 0xF#16 = 0#12 ++ w.extractLsb' 0 4 := by
  have hw : w = w.extractLsb' 4 12 ++ w.extractLsb' 0 4 :=
    ((BitVec.extractLsb'_append_extractLsb'_eq_extractLsb' (start₁ := 0) (len₁ := 4) (len₂ := 12) rfl).trans
      BitVec.extractLsb'_eq_self).symm
  calc
    _ = (w.extractLsb' 4 12 ++ w.extractLsb' 0 4) &&& (0#12 ++ BitVec.allOnes 4) := congrArg (· &&& _) hw
    _ = 0#12 ++ w.extractLsb' 0 4 := by rw [BitVec.and_append, BitVec.and_allOnes, BitVec.and_zero]

theorem rsvd_eq_zero_iff (w : Word) : w &&& 0xFFC0#16 = 0 ↔ w.extractLsb' 6 10 = 0 := by
  rw [and_rsvd_mask]
  refine ⟨fun h => ?_, fun h => by rw [h]; rfl⟩
  exact BitVec.extractLsb'_append_eq_left.symm.trans (congrArg (BitVec.extractLsb' 6 10) h)

theorem opc_toNat (w : Word) : (w &&& 0xF#16).toNat = (w.extractLsb' 0 4).toNat := by
  rw [and_opc_mask, BitVec.toNat_append]
  simp

theorem opcodeOf_le (i : Instr) : (opcodeOf i).toNat ≤ 9 := by
  cases i <;> simp [opcodeOf]

/-- The decoder accepts exactly the words of the opcode map (30_encoding.md rule R71). -/
theorem exists_decodeWord_eq_ok_iff :
    (∃ i, decodeWord w = .ok i) ↔ w.extractLsb' 6 10 = 0 ∧ (w.extractLsb' 0 4).toNat ≤ 9 := by
  constructor
  · rintro ⟨i, h⟩
    obtain ⟨hr, -, -, ho⟩ := decodeWord_eq_ok_iff.1 h
    exact ⟨hr, ho ▸ opcodeOf_le i⟩
  · rintro ⟨hr, ho⟩
    unfold decodeWord
    dsimp only
    rw [if_neg (not_not.2 hr)]
    generalize (w.extractLsb' 0 4).toNat = n at ho
    interval_cases n <;> exact ⟨_, rfl⟩

theorem foreground_iff {c : Color} {n : Nat} (h : w.extractLsb' n 1 = c.bit) :
    c = .foreground ↔ w.getLsbD n = true := by
  have hb : w.getLsbD n = c.bit.getLsbD 0 := by rw [← h, BitVec.getLsbD_extractLsb']; simp
  cases c <;> simp [hb, Color.bit]

theorem f3x6_iff {f : Font} {n : Nat} (h : w.extractLsb' n 1 = f.bit) :
    f = .f3x6 ↔ w.getLsbD n = true := by
  have hb : w.getLsbD n = f.bit.getLsbD 0 := by rw [← h, BitVec.getLsbD_extractLsb']; simp
  cases f <;> simp [hb, Font.bit]

/-- Without a reset a rejected word completes BAD_COMMAND (45_control.md rule R126). -/
theorem rejectCommand_result {s : State} (hn : s.noReset = true) : (rejectCommand s).result = .badCommand := by
  obtain ⟨s1, e⟩ := serve_of_noReset { s with busy := true } hn
  unfold rejectCommand
  rw [lastAction_of_go e]
  rfl

/-- Settles O4: acceptance by RSVD and OPC (`exists_decodeWord_eq_ok_iff`), the command by its fields. -/
theorem decoderIsTotalAndExact : Obligations.DecoderIsTotalAndExact := by
  unfold Obligations.DecoderIsTotalAndExact
  simp only [rsvd_eq_zero_iff, opc_toNat]
  refine ⟨fun w hr ho => ?_, fun w hw => ?_⟩
  · obtain ⟨i, hi⟩ := exists_decodeWord_eq_ok_iff.2 ⟨hr, ho⟩
    obtain ⟨-, hfont, hcolor, hopc⟩ := decodeWord_eq_ok_iff.1 hi
    refine ⟨i, hi, by rw [hopc], fun c u h => foreground_iff ?_, fun c f h => ?_⟩
    · rcases h with rfl | rfl | rfl | rfl | rfl | rfl <;> exact hcolor
    · subst h
      exact ⟨foreground_iff hcolor, f3x6_iff hfont⟩
  · cases h : decodeWord w with
    | ok i => exact absurd (exists_decodeWord_eq_ok_iff.1 ⟨i, h⟩) hw
    | error e =>
      refine ⟨⟨e, rfl⟩, fun s rest hh hb hn => ⟨rejectCommand (startedAs w rest s), ?_, rejectCommand_result hn⟩⟩
      rw [step_command hh rfl hb, h]
      rfl

end Sys2Proof.Machine
end

/-! SUPPORT. The host program's lines (30_encoding.md rules R66, R72, R73): what an operand word holds, and what
the CHARBUF writes of PUTS leave. -/

section
namespace Sys2Proof.Machine

theorem natWord_toNat {v : Nat} (h : wordOk v = true) : (natWord v).toNat = v := by
  have hv : v < 65536 := of_decide_eq_true h
  exact Nat.mod_eq_of_lt hv

theorem coordWord_toInt {v : Int} (h : coordOk v = true) : (coordWord v).toInt = v := by
  have hv : -32768 ≤ v ∧ v ≤ 32767 := by simpa [coordOk] using h
  exact BitVec.toInt_ofInt_eq_self (by decide) (by omega) (by omega)

theorem wordOk_of_codeOk {v : Nat} (h : codeOk v = true) : wordOk v = true := by
  have hv : v < 256 := of_decide_eq_true h
  exact decide_eq_true (by omega)

/-- Settles O6: each line's word is the command's encoding, and each operand word holds its operand. -/
theorem commandLinesAssemble : Obligations.CommandLinesAssemble := by
  have hdec := decodeOfEncodeIsTheCommand
  refine ⟨⟨_, rfl, hdec _⟩, fun mode h => ?_, fun c => ⟨_, rfl, hdec _⟩, fun c ch h => ?_, fun c ch h => ?_,
    fun c x y h => ?_, fun c xs ys xe ye h => ?_, fun c xc yc r h => ?_, fun f c n h => ?_, fun x y h => ?_⟩
  all_goals simp only [Line.wf, Bool.and_eq_true] at h
  · exact ⟨_, _, rfl, natWord_toNat h, hdec _⟩
  · exact ⟨_, _, rfl, natWord_toNat (wordOk_of_codeOk h), hdec _⟩
  · exact ⟨_, _, rfl, natWord_toNat (wordOk_of_codeOk h), hdec _⟩
  · obtain ⟨hx, hy⟩ := h
    exact ⟨_, _, _, rfl, coordWord_toInt hx, coordWord_toInt hy, hdec _⟩
  · obtain ⟨⟨⟨hxs, hys⟩, hxe⟩, hye⟩ := h
    exact ⟨_, _, _, _, _, rfl, coordWord_toInt hxs, coordWord_toInt hys, coordWord_toInt hxe,
      coordWord_toInt hye, hdec _⟩
  · obtain ⟨⟨hx, hy⟩, hr⟩ := h
    exact ⟨_, _, _, _, rfl, coordWord_toInt hx, coordWord_toInt hy, natWord_toNat hr, hdec _⟩
  · exact ⟨_, _, rfl, natWord_toNat h, hdec _⟩
  · obtain ⟨hx, hy⟩ := h
    exact ⟨_, _, _, rfl, natWord_toNat hx, natWord_toNat hy, hdec _⟩

theorem offset_toNat {off : Nat} (h : offsetOk off = true) : (BitVec.ofNat 7 off).toNat = off := by
  have hv : off < 128 := of_decide_eq_true h
  exact Nat.mod_eq_of_lt hv

/-- Settles O7: as `commandLinesAssemble`; the flat rectangle's repeated coordinate is one word, written twice. -/
theorem pseudoInstructionsAssemble : Obligations.PseudoInstructionsAssemble := by
  have hdec := decodeOfEncodeIsTheCommand
  refine ⟨fun off v h => ?_, fun off h => ⟨_, rfl, offset_toNat h⟩, rfl, ⟨_, rfl, hdec _⟩, fun c x0 x1 y h => ?_,
    fun c x y0 y1 h => ?_, fun x y h => ?_⟩
  all_goals simp only [Line.wf, Bool.and_eq_true] at h
  · obtain ⟨ho, hv⟩ := h
    exact ⟨_, _, rfl, offset_toNat ho, natWord_toNat hv⟩
  · obtain ⟨⟨h0, h1⟩, hy⟩ := h
    exact ⟨_, _, _, _, rfl, coordWord_toInt h0, coordWord_toInt hy, coordWord_toInt h1, hdec _⟩
  · obtain ⟨⟨hx, h0⟩, h1⟩ := h
    exact ⟨_, _, _, _, rfl, coordWord_toInt hx, coordWord_toInt h0, coordWord_toInt h1, hdec _⟩
  · obtain ⟨hx, hy⟩ := h
    exact ⟨_, _, _, rfl, natWord_toNat hx, natWord_toNat hy, hdec _⟩

section CharWrites

/-- A write of CHARBUF word `j` (20_memory.md rule R42). -/
def charWrite (j : Nat) (v : Word) : HostEvent := .w16 (BitVec.ofNat 7 (0x10 + 2 * j)) v

/-- The state after the accesses `es` have been made one after the other between commands. -/
def afterAccesses (es : List HostEvent) (s : State) : State := es.foldl (fun s e => hostAct e s) s

variable {j k : Nat} {s : State}

theorem hostAct_charWrite (v : Word) (hb : s.busy = false) (hj : j < 32) :
    hostAct (charWrite j v) s = { s with charbuf := setCharWord s.charbuf j v } := by
  refine hostWrite_charbuf v hb hj ?_
  rw [BitVec.toNat_ofNat, Nat.mod_eq_of_lt (by omega)]
  omega

theorem hostAct_charWrite_busy (v : Word) (hb : s.busy = false) (hj : j < 32) :
    (hostAct (charWrite j v) s).busy = false := by
  rw [hostAct_charWrite v hb hj]
  exact hb

theorem charAt_charWrite_low (v : Word) (hb : s.busy = false) (hj : j < 32) :
    (hostAct (charWrite j v) s).charAt (2 * j) = v.extractLsb' 0 8 := by
  rw [hostAct_charWrite v hb hj, charAt_set_word v s hj, if_pos rfl]

theorem charAt_charWrite_high (v : Word) (hb : s.busy = false) (hj : j < 32) :
    (hostAct (charWrite j v) s).charAt (2 * j + 1) = v.extractLsb' 8 8 := by
  rw [hostAct_charWrite v hb hj, charAt_set_word v s hj, if_neg (by omega), if_pos rfl]

theorem charAt_charWrite_before (v : Word) (hb : s.busy = false) (hj : j < 32) (hk : k < 2 * j) :
    (hostAct (charWrite j v) s).charAt k = s.charAt k := by
  rw [hostAct_charWrite v hb hj, charAt_set_word v s hj, if_neg (by omega), if_neg (by omega)]

/-- The CHARBUF writes of PUTS leave the characters from number `2 * j` on, and keep those before it. -/
theorem charAt_putsWords {text : List Nat} (hb : s.busy = false) (hl : 2 * j + text.length ≤ 64)
    (hc : ∀ a ∈ text, a < 256) :
    (∀ k < 2 * j, (afterAccesses (putsWords j text) s).charAt k = s.charAt k) ∧
    ∀ k (h : k < text.length), ((afterAccesses (putsWords j text) s).charAt (2 * j + k)).toNat = text[k] := by
  induction j, text using putsWords.induct generalizing s with
  | case1 j => exact ⟨fun _ _ => rfl, nofun⟩
  | case2 j a =>
    have hj : j < 32 := by simp at hl; omega
    have ha : a < 256 := hc a List.mem_cons_self
    refine ⟨fun k hk => charAt_charWrite_before _ hb hj hk, fun k hk => ?_⟩
    obtain rfl : k = 0 := Nat.lt_one_iff.1 hk
    calc
      _ = ((BitVec.ofNat 16 a).extractLsb' 0 8).toNat := congrArg _ (charAt_charWrite_low _ hb hj)
      _ = a := by rw [BitVec.extractLsb'_toNat, BitVec.toNat_ofNat, Nat.shiftRight_zero]; omega
  | case3 j a b rest ih =>
    have hj : j < 32 := by simp at hl; omega
    obtain ⟨ha, hb', hr⟩ : a < 256 ∧ b < 256 ∧ ∀ d ∈ rest, d < 256 := by simpa using hc
    obtain ⟨hbefore, hfrom⟩ := ih (hostAct_charWrite_busy (BitVec.ofNat 8 b ++ BitVec.ofNat 8 a) hb hj)
      (by simp at hl; omega) hr
    refine ⟨fun k hk => (hbefore k (by omega)).trans (charAt_charWrite_before _ hb hj hk), fun k hk => ?_⟩
    match k with
    | 0 =>
      calc
        _ = (BitVec.ofNat 8 a).toNat := congrArg _ ((hbefore (2 * j) (by omega)).trans
          ((charAt_charWrite_low _ hb hj).trans BitVec.extractLsb'_append_eq_right))
        _ = a := Nat.mod_eq_of_lt ha
    | 1 =>
      calc
        _ = (BitVec.ofNat 8 b).toNat := congrArg _ ((hbefore (2 * j + 1) (by omega)).trans
          ((charAt_charWrite_high _ hb hj).trans BitVec.extractLsb'_append_eq_left))
        _ = b := Nat.mod_eq_of_lt hb'
    | k + 2 =>
      rw [show 2 * j + (k + 2) = 2 * (j + 1) + k by omega]
      exact hfrom k (by simpa using hk)

end CharWrites

/-- Settles O8: the writes of PUTS start at character 0 (`charAt_putsWords`), and its last line is STRING's. -/
theorem putsFillsCharbuf : Obligations.PutsFillsCharbuf := by
  intro f c text s h hb
  simp only [Line.wf, Bool.and_eq_true, List.all_eq_true, decide_eq_true_eq] at h
  obtain ⟨hc, hl⟩ := h
  have hw : wordOk text.length = true := decide_eq_true (by omega)
  obtain ⟨-, hk⟩ := charAt_putsWords (j := 0) hb (by omega) fun a ha => of_decide_eq_true (hc a ha)
  refine ⟨putsWords 0 text, _, _, rfl, natWord_toNat hw, decodeOfEncodeIsTheCommand _, fun k h => ?_⟩
  rw [← hk k h, Nat.mul_zero, Nat.zero_add]
  rfl

end Sys2Proof.Machine
end

/-! SUPPORT. WAIT (30_encoding.md rule R72): a step on it, and that no command serves it. -/

section
namespace Sys2Proof.Machine

variable {s s1 s0 : State}

/-- Between commands WAIT reads STATUS. -/
theorem step_wait_of_idle {rest : List HostEvent} (hh : s.host = .wait :: rest) (hb : s.busy = false) :
    step s = .next { s with host := rest, reads := s.statusWord :: s.reads } := by
  have hr : hostRead 0x02 { s with host := rest } = s.statusWord := hostRead_status (off := 0x02) rfl _
  rw [step_event hh rfl, ← hr]
  unfold hostAct
  rw [if_neg (by simp [hb])]
  rfl

/-- A WAIT that finds BUSY = 1 stays next (log 21). -/
theorem step_wait_of_busy {rest : List HostEvent} (hh : s.host = .wait :: rest) (hb : s.busy = true) :
    step s = .next s := by
  rw [step_event hh rfl]
  unfold hostAct
  rw [if_pos hb, ← hh]

/-- The accesses before a reset hold no WAIT, which `serve` would have stopped at. -/
theorem serve_reset_served {h : List HostEvent} {c : Bool} (e : serve h s = .reset c s1) :
    ∃ served, h = served ++ s1.host ∧ HostEvent.wait ∉ served := by
  induction h generalizing s with
  | nil => cases e
  | cons ev rest ih =>
    cases ev with
    | w16 off v =>
      obtain ⟨served, rfl, hw⟩ := ih e
      exact ⟨.w16 off v :: served, rfl, by simpa using hw⟩
    | r16 off =>
      obtain ⟨served, rfl, hw⟩ := ih e
      exact ⟨.r16 off :: served, rfl, by simpa using hw⟩
    | wait => cases e
    | pause => cases e
    | reset k => cases e; exact ⟨[.reset c], rfl, by simp⟩

/-- The accesses served since `s0` hold no WAIT. -/
def NoWaitServed (s0 s : State) : Prop := ∃ served, s0.host = served ++ s.host ∧ HostEvent.wait ∉ served

theorem NoWaitServed.append {h : List HostEvent} (hs : NoWaitServed s0 s)
    (he : ∃ served, s.host = served ++ h ∧ HostEvent.wait ∉ served) (h1 : s1.host = h) :
    NoWaitServed s0 s1 := by
  obtain ⟨as, ha, hwa⟩ := hs
  obtain ⟨bs, hb, hwb⟩ := he
  exact ⟨as ++ bs, by rw [ha, hb, h1, List.append_assoc], by simp [hwa, hwb]⟩

theorem run_noWaitServed (s0 : State) : Run (NoWaitServed s0) fun s => NoWaitServed s0 s ∧ s.busy = false where
  served h e := by
    obtain ⟨served, -, hh, hw, -⟩ := serve_served e
    exact h.append ⟨served, hh, hw⟩ rfl
  cut t h e := by
    refine ⟨⟨h.append (serve_reset_served e) rfl, rfl⟩, h.append (serve_reset_served e) ?_, rfl⟩
    split <;> rfl
  completed _ _ h := h
  timedOut _ h := ⟨h, rfl⟩
  finish h := ⟨h, rfl⟩
  setTodo _ h := h
  advance _ h := h

theorem exec_noWaitServed (i : Instr) (s : State) :
    ∃ t, exec i s = .next t ∧ NoWaitServed s t ∧ t.busy = false :=
  (run_noWaitServed s).exec (fun h => ⟨h, rfl⟩) (fun h => ⟨h, rfl⟩) (fun h => h) (fun h => ⟨h, rfl⟩)
    (fun h => ⟨h, rfl⟩) i (fun _ _ h => ⟨h, rfl⟩) s ⟨[], rfl, List.not_mem_nil⟩

theorem rejectCommand_noWaitServed (s : State) : NoWaitServed s (rejectCommand s) ∧ (rejectCommand s).busy = false :=
  (run_noWaitServed s).lastAction (f := abort .badCommand) (fun h => ⟨h, rfl⟩) ⟨[], rfl, List.not_mem_nil⟩

/-- A command word, whatever it decodes to, runs to its end with the WAIT after it still to come. -/
theorem step_command_wait {w : Word} {rest : List HostEvent} (hh : s.host = .w16 0x00 w :: .wait :: rest)
    (hb : s.busy = false) : ∃ t, step s = .next t ∧ t.host = .wait :: rest ∧ t.busy = false := by
  have hnext : ∀ {s1 t : State}, s1.host = .wait :: rest → NoWaitServed s1 t → t.host = .wait :: rest := by
    rintro s1 t h1 ⟨served, hs, hw⟩
    cases served with
    | nil => exact hs.symm.trans h1
    | cons e es =>
      rw [h1] at hs
      cases hs
      exact absurd List.mem_cons_self hw
  rw [step_command hh rfl hb]
  cases decodeWord w with
  | ok i =>
    obtain ⟨t, he, hs, ht⟩ := exec_noWaitServed i (startedAs w (.wait :: rest) s)
    exact ⟨t, he, hnext rfl hs, ht⟩
  | error e =>
    obtain ⟨hs, ht⟩ := rejectCommand_noWaitServed (startedAs w (.wait :: rest) s)
    exact ⟨_, rfl, hnext rfl hs, ht⟩

/-- Settles O33: WAIT by its two steps; no run serves it (`run_noWaitServed`), so it comes after the command. -/
theorem waitReadsStatusWhenIdle : Obligations.WaitReadsStatusWhenIdle := by
  refine ⟨fun s rest hh => ⟨step_wait_of_idle hh, step_wait_of_busy hh⟩, fun i s => ?_, fun s w rest hh hb => ?_⟩
  · obtain ⟨t, he, ⟨served, hs, hw⟩, -⟩ := exec_noWaitServed i s
    exact ⟨t, served, he, hs, hw⟩
  · obtain ⟨t, he, ht, hbt⟩ := step_command_wait hh hb
    exact ⟨t, he, by rw [statusWord_getLsbD, if_pos rfl, hbt], step_wait_of_idle ht hbt⟩

end Sys2Proof.Machine
end

/-! SUPPORT. The bits a command ignores (30_encoding.md rule R69) reach only `work.color` and `work.font`. A
command that reads neither ends the same with either changed, since its end leaves the working state free. -/

section
namespace Sys2Proof.Machine

/-- The state with its working state changed by `g`. -/
def onWork (g : Work → Work) (s : State) : State := { s with work := g s.work }

/-- The COLOR and FONT bits of the command `i`. -/
def withTagsOf (i : Instr) (k : Work) : Work :=
  { k with color := Color.ofBit (colorBit i), font := Font.ofBit (fontBit i) }

/-- The FONT bit of the font `f`. -/
def withFont (f : Font) (k : Work) : Work := { k with font := f }

/-- The same end of serving, with the working state changed by `g`. -/
def Served.onWork (g : Work → Work) : Served → Served
  | .go s => .go (Machine.onWork g s)
  | .reset cut s => .reset cut (Machine.onWork g s)

variable {g : Work → Work} {s : State}

theorem onWork_host (g : Work → Work) (s : State) : (onWork g s).host = s.host := rfl

theorem onWork_fault (g : Work → Work) (s : State) : (onWork g s).fault = s.fault := rfl

/-- Serving the Host neither reads nor writes the working state. -/
theorem serve_onWork (g : Work → Work) (h : List HostEvent) (s : State) :
    serve h (onWork g s) = (serve h s).onWork g := by
  induction h generalizing s with
  | nil => rfl
  | cons e rest ih =>
    cases e with
    | w16 off v => exact ih (dropWrite s)
    | r16 off => exact ih (recordRead off s)
    | wait | pause | reset cut => rfl

/-! #### NOP, INIT and SETCUR: the last action alone -/

theorem abort_onWork (g : Work → Work) (code : Result) (s : State) : abort code (onWork g s) = abort code s := by
  unfold abort
  split <;> rfl

theorem lastAction_onWork {f : State → State} (hf : ∀ s, f (onWork g s) = f s) (s : State) :
    lastAction f (onWork g s) = lastAction f s := by
  unfold lastAction internalAction
  rw [onWork_host, serve_onWork]
  cases serve s.host s with
  | go s1 => exact hf s1
  | reset cut s1 => rfl

theorem initBody_onWork (g : Work → Work) (s : State) : initBody (onWork g s) = initBody s := by
  unfold initBody internalAction
  rw [onWork_host, serve_onWork]
  cases serve s.host s with
  | go s1 => exact congrArg Flow.ended (lastAction_onWork (fun _ => rfl) (acknowledge s1))
  | reset cut s1 => rfl

/-- A command started with other ignored bits runs the same if its rule ends the same. -/
theorem runCommand_onWork {i i' : Instr} {body : State → Flow}
    (hs : startWork i' s = onWork g (startWork i s))
    (hb : (body (onWork g (startWork i s))).close = (body (startWork i s)).close) :
    runCommand i' body s = runCommand i body s := by
  unfold runCommand runAlways
  beta_reduce
  rw [hs, onWork_fault]
  by_cases hf : (startWork i s).fault = true
  · rw [if_pos hf, if_pos hf]
    exact lastAction_onWork (abort_onWork g .refused) _
  · rw [if_neg hf, if_neg hf, hb]

/-! #### The drawing commands: two runs side by side -/

theorem completed_withFont (f : Font) (t : Transaction) (q : SeqState) (s : State) :
    completed t q (onWork (withFont f) s) = onWork (withFont f) (completed t q s) := by
  unfold completed onWork
  dsimp only
  split <;> rfl

/-- Two runs that differ in the FONT bit go through the same, and end the same. -/
theorem fontSim (f : Font) : Sim (fun s s' => s' = onWork (withFont f) s) Eq where
  served {s s'} h := by
    subst h
    rw [onWork_host, serve_onWork]
    cases serve s.host s with
    | go a => exact .inl ⟨a, _, rfl, rfl, rfl⟩
    | reset c a => exact .inr ⟨c, a, _, rfl, rfl, rfl, fun _ => rfl⟩
  reads h := by subst h; exact ⟨rfl, rfl, rfl, rfl, rfl, rfl⟩
  completed t q h := by subst h; exact completed_withFont f t q _
  timedOut t h := by subst h; rfl
  finish h := by subst h; rfl
  abort code h := by subst h; exact (abort_onWork _ code _).symm
  setTodo ts h := by subst h; rfl
  advance k h := by subst h; rfl

theorem raster_withFont (f : Font) (ts : List Task) (s : State) :
    (raster ts (onWork (withFont f) s)).close = (raster ts s).close :=
  ((fontSim f).close ((fontSim f).raster ts rfl)).symm

theorem plotBody_withFont (f : Font) (s : State) :
    (plotBody (onWork (withFont f) s)).close = (plotBody s).close := by
  refine ((fontSim f).close ?_).symm
  unfold plotBody
  show Flow.Sim _ _ _ (if onScreen (coord0 s) (coord1 s) then _ else _)
  split
  · exact (fontSim f).plotCore _ _ rfl
  · exact (fontSim f).raise _ rfl

/-- Settles O5: the words by O2; two runs start in states that differ in the ignored bits alone (`onWork`), and end
the same. -/
theorem ignoredBitsChangeNothing : Obligations.IgnoredBitsChangeNothing := by
  intro s c u u' w w'
  have hnext {t t' : State} : t = t' → (.next t : Host.Outcome State Fault Refusal) = .next t' := congrArg _
  refine ⟨fun i _ => decodeOfEncodeIsTheCommand i, hnext ?_, hnext ?_, hnext ?_, hnext ?_, hnext ?_, hnext ?_,
    hnext ?_, hnext ?_, hnext ?_⟩
  · exact runCommand_onWork (g := withTagsOf (.nop w)) rfl (lastAction_onWork (fun _ => rfl) _)
  · exact congrArg Flow.close (initBody_onWork (withTagsOf (.init w)) (startWork (.init w') s))
  · exact runCommand_onWork (g := withTagsOf (.setcur w)) rfl (lastAction_onWork (fun _ => rfl) _)
  · exact runCommand_onWork rfl (plotBody_withFont (Font.ofBit u) _)
  all_goals exact runCommand_onWork rfl (raster_withFont (Font.ofBit u) _ _)

end Sys2Proof.Machine
end

/-! SUPPORT. The coordinate translator (40_addressing.md rule R78): `Address.x` and `Address.y` translate back what
`locate` and the bit index give. -/

section
namespace Sys2Proof.Machine

variable {x y : Int} {k : Nat}

theorem sideCode_eq_ite (sd : Side) : (sd.code : Int) = if sd = .left then 0 else 1 := by cases sd <;> rfl

theorem locate_sideCode (x y : Int) : (locate x y).side.code = if x < 64 then 0 else 1 := by
  simp only [locate]
  split <;> rfl

theorem locate_x (h : onScreen x y = true) : (locate x y).x = x := by
  have h := (onScreen_iff x y).1 h
  simp only [Address.x, locate_column, locate_sideCode]
  split_ifs <;> omega

theorem locate_y (h : onScreen x y = true) : (locate x y).y (bitIndex y) = y := by
  have hy := (onScreen_iff x y).1 h
  simp only [Address.y, locate_page x y h, bitIndex]
  omega

theorem onScreen_address (a : Address) (hk : k < 8) : onScreen a.x (a.y k) = true := by
  have hc := a.column.isLt
  have hp := a.page.isLt
  rw [onScreen_iff, Address.x, Address.y]
  have hs : a.side.code ≤ 1 := by cases a.side <;> decide
  omega

theorem bitIndex_address (a : Address) (hk : k < 8) : bitIndex (a.y k) = k := by
  simp only [bitIndex, Address.y]
  omega

theorem locate_address (a : Address) (hk : k < 8) : locate a.x (a.y k) = a := by
  have hc := a.column.isLt
  have hs : a.side.code ≤ 1 := by cases a.side <;> decide
  have hx : a.x = (a.column.toNat + 64 * a.side.code : Nat) := rfl
  have hy : a.y k = (a.page.toNat * 8 + k : Nat) := rfl
  apply Address.cell_inj
  simp only [Address.cell, locate_sideCode, locate_page _ _ (onScreen_address a hk), locate_column]
  split <;> omega

/-- Settles O20: `Address.x` and `Address.y` translate back, and no other point has that byte and bit
(`locate_inj`). -/
theorem locateRoundTrip : Obligations.LocateRoundTrip := by
  refine ⟨fun x y h => ⟨?_, ?_, bitIndex_lt y⟩, fun a k hk =>
    ⟨a.x, a.y k, onScreen_address a hk, locate_address a hk, bitIndex_address a hk, ?_, ?_, fun u v ho ha hb => ?_⟩⟩
  · rw [← sideCode_eq_ite]
    exact (locate_x h).symm
  · exact (locate_y h).symm
  · rw [← sideCode_eq_ite]
    rfl
  · rw [mul_comm]
    rfl
  · exact locate_inj ho (onScreen_address a hk) (ha.trans (locate_address a hk).symm)
      (hb.trans (bitIndex_address a hk).symm)

end Sys2Proof.Machine
end

/-! SUPPORT. The true read while host accesses arrive (40_addressing.md rule R83). -/

section
namespace Sys2Proof.Machine

/-- Settles O24: the read in the state without host accesses (`readTrue_calm`); host accesses change nothing of it
(`hushSim`). -/
theorem trueReadReturnsTheCurrentByte : Obligations.TrueReadReturnsTheCurrentByte := by
  intro a s ⟨hk, hn⟩
  obtain ⟨t', e', -, -, hw, -, -, hm, -, hc, -, -, ht⟩ := readTrue_calm a (s := hush s) ⟨rfl, hk⟩
  have hs := hushSim.readTrue a (hushEq_hush hn)
  rw [e'] at hs
  cases e : readTrue a s with
  | running t =>
    rw [e] at hs
    cases hs with | running h
    have htt := eq_of_hush_eq h.1
    rw [htt]
    exact ⟨_, rfl, congrArg Work.byte hw, hm, by rw [hc]; exact BitVec.toNat_add a.column 2, ht⟩
  | ended t =>
    rw [e] at hs
    cases hs

end Sys2Proof.Machine
end

/-! SUPPORT. What `exec` runs, in the four forms of a command's rule, the same whatever the Bus answers. -/

section
namespace Sys2Proof.Machine

/-- The state with no answer scripted: the Bus answers OK to all (log 4). -/
def State.allOk (s : State) : State := { s with answers := [] }

/-- The completion of a command: it issues nothing, leaves the answers alone, and its result is no HW_TIMEOUT. -/
structure Completion (f : State → State) : Prop where
  allOk : ∀ s, f s.allOk = (f s).allOk
  trace : ∀ s, (f s).trace = s.trace
  answers : ∀ s, (f s).answers = s.answers
  result : ∀ s, (f s).result ≠ .hwTimeout

/-- The rule of a command, once its operands are read. -/
inductive Rule : (State → Flow) → Prop where
  | last {f : State → State} (hf : Completion f) : Rule fun s => .ended (lastAction f s)
  | init : Rule initBody
  | plot (x y : Int) : Rule (plotCore x y)
  | raster (ts : List Task) : Rule (raster ts)

theorem completion_finish {c : Result} (hc : c ≠ .hwTimeout) : Completion (finish c) :=
  ⟨fun _ => rfl, fun _ => rfl, fun _ => rfl, fun _ => hc⟩

theorem completion_home : Completion fun s => finish .ok (homeCursor s) :=
  ⟨fun _ => rfl, fun _ => rfl, fun _ => rfl, fun _ => (by decide : Result.ok ≠ .hwTimeout)⟩

theorem completion_setCursor : Completion fun s => finish .ok (setCursor s) :=
  ⟨fun _ => rfl, fun _ => rfl, fun _ => rfl, fun _ => (by decide : Result.ok ≠ .hwTimeout)⟩

theorem completion_abort {c : Result} (hc : c ≠ .hwTimeout) : Completion (abort c) := by
  have e : abort c = finish c := by
    funext s
    exact congrArg (finish c) (if_neg hc)
  exact e ▸ completion_finish hc

/-- With the scripted answers and with none, the command `i` does what `body` does. -/
def ExecAs (i : Instr) (s : State) (body : State → Flow) : Prop :=
  exec i s = .next (body (startWork i s)).close ∧ exec i s.allOk = .next (body (startWork i s).allOk).close

theorem execAs_of_runCommand {i : Instr} {s : State} {rule body : State → Flow} (hf : s.fault = false)
    (he : ∀ s, exec i s = .next (runCommand i rule s))
    (h : (rule (startWork i s)).close = (body (startWork i s)).close)
    (h' : (rule (startWork i s).allOk).close = (body (startWork i s).allOk).close) : ExecAs i s body :=
  ⟨by rw [he, runCommand_of_not_fault hf, h], by rw [he, runCommand_of_not_fault (s := s.allOk) hf, ← h']; rfl⟩

/-- Every command is one of the four forms, which one does not depend on the answers. -/
theorem exec_rule (i : Instr) (s : State) : ∃ body, Rule body ∧ ExecAs i s body := by
  by_cases hi : ∃ u, i = .init u
  · obtain ⟨u, rfl⟩ := hi
    exact ⟨initBody, .init, rfl, rfl⟩
  cases hf : s.fault with
  | true =>
    have hi : ∀ u, i ≠ .init u := fun u h => hi ⟨u, h⟩
    exact ⟨_, .last (completion_abort (c := .refused) (by decide)), exec_of_fault hi hf,
      exec_of_fault (s := s.allOk) hi hf⟩
  | false =>
    cases i with
    | init u => exact absurd ⟨u, rfl⟩ hi
    | nop u =>
      exact ⟨_, .last (completion_finish (c := .ok) (by decide)), execAs_of_runCommand hf (exec_nop u) rfl rfl⟩
    | plot c u =>
      by_cases ho : onScreen (coord0 (startWork (.plot c u) s)) (coord1 (startWork (.plot c u) s)) = true
      · exact ⟨_, .plot _ _, execAs_of_runCommand hf (exec_plot c u) (congrArg Flow.close (if_pos ho))
          (congrArg Flow.close (if_pos ho))⟩
      · exact ⟨_, .last (completion_abort (c := .outOfRange) (by decide)), execAs_of_runCommand hf (exec_plot c u)
          (congrArg Flow.close (if_neg ho)) (congrArg Flow.close (if_neg ho))⟩
    | rect c u => exact ⟨_, .raster _, execAs_of_runCommand hf (exec_rect c u) rfl rfl⟩
    | fill c u => exact ⟨_, .raster _, execAs_of_runCommand hf (exec_fill c u) rfl rfl⟩
    | circle c u => exact ⟨_, .raster _, execAs_of_runCommand hf (exec_circle c u) rfl rfl⟩
    | char8 c u => exact ⟨_, .raster _, execAs_of_runCommand hf (exec_char8 c u) rfl rfl⟩
    | char3 c u => exact ⟨_, .raster _, execAs_of_runCommand hf (exec_char3 c u) rfl rfl⟩
    | string c f =>
      by_cases hl : Config.charbufSize < stringLen (startWork (.string c f) s)
      · exact ⟨_, .last (completion_abort (c := .badCommand) (by decide)), execAs_of_runCommand hf (exec_string c f)
          (congrArg Flow.close (if_pos hl)) (congrArg Flow.close (if_pos hl))⟩
      · exact ⟨_, .raster _, execAs_of_runCommand hf (exec_string c f) (congrArg Flow.close (if_neg hl))
          (congrArg Flow.close (if_neg hl))⟩
    | setcur u => exact ⟨_, .last completion_setCursor, execAs_of_runCommand hf (exec_setcur u) rfl rfl⟩

end Sys2Proof.Machine
end

/-! SUPPORT. A command's run beside the same run with every answer OK (40_addressing.md rule R84, 60_exceptions.md
rules R133, R134): they go together until a transaction times out, which ends the first. -/

section
namespace Sys2Proof.Machine

/-- `s` has issued `new` since `s0`, and each transaction has taken the Bus's next answer. -/
def Answered (s0 s : State) (new : List (Transaction × Answer)) : Prop :=
  issued s0 s new ∧ new.map Prod.snd = (List.range new.length).map (fun n => s0.answers.getD n .ok) ∧
  s.answers = s0.answers.drop new.length

/-- Every transaction since `s0` has completed. -/
def AllCompleted (s0 s : State) : Prop := ∃ new, Answered s0 s new ∧ ∀ e ∈ new, e.2 = .ok

/-- The command goes on, with no reset to come. -/
def Going (s0 s : State) : Prop := s.noReset = true ∧ AllCompleted s0 s

/-- A TIMEOUT has ended the command in `s`; `s'` has issued the same up to it, where it was answered OK. -/
def StoppedBehind (s0 s s' : State) : Prop :=
  s.result = .hwTimeout ∧ s.fault = true ∧ ∃ before x rest,
    Answered s0 s (before ++ [(x, .timeout)]) ∧ issued s0 s' (before ++ [(x, .ok)] ++ rest)

/-- What `s` has issued stays, and `s'` may have issued more. -/
def IssuesMore (s s' : State) : Prop := ∃ new, issued s s' new

/-- Where two flows from `s0` stand, the second with every answer OK. -/
inductive Flow.Beside (s0 : State) : Flow → Flow → Prop where
  | running {s : State} (h : Going s0 s) : Flow.Beside s0 (.running s) (.running s.allOk)
  | ended {s : State} (hr : s.result ≠ .hwTimeout) (h : AllCompleted s0 s) :
      Flow.Beside s0 (.ended s) (.ended s.allOk)
  | stopped {s : State} {r : Flow} (h : StoppedBehind s0 s r.state) : Flow.Beside s0 (.ended s) r

variable {s0 s s1 s' : State} {r r' : Flow} {new : List (Transaction × Answer)}

theorem Flow.Rel.state {R : State → State → Prop} (h : r.Rel R s) : R s r.state := by
  cases h <;> assumption

theorem issuesMore_of_trace (h : s1.trace = s.trace) : IssuesMore s s1 := ⟨[], h⟩

theorem issuesMore_abort (c : Result) (s : State) : IssuesMore s (abort c s) := issuesMore_of_trace (abort_trace c s)

theorem issuesMore_failed (t : Transaction) (s : State) : IssuesMore s (failed t s) := ⟨[(t, .timeout)], rfl⟩

theorem IssuesMore.trans {a b c : State} : IssuesMore a b → IssuesMore b c → IssuesMore a c
  | ⟨_, h⟩, ⟨_, h'⟩ => ⟨_, issued_trans h h'⟩

/-- Nothing takes back what has been issued. -/
theorem issuesMoreRel : EngineRel IssuesMore where
  refl _ := ⟨[], rfl⟩
  trans := IssuesMore.trans
  served e := issuesMore_of_trace (by rw [(serve_go e).1])
  completed t _ _ := ⟨[(t, .ok)], rfl⟩
  timedOut t s := ⟨[(t, .timeout)], rfl⟩
  cut {t s c s'} e := by
    have h : IssuesMore s s' := issuesMore_of_trace (by rw [(serve_reset e).1])
    cases c
    · exact h
    · exact h.trans (issuesMore_failed t s')
  reset e := issuesMore_of_trace (congrArg State.trace (serve_reset e).1 :)
  work _ _ := ⟨[], rfl⟩
  advance _ _ := ⟨[], rfl⟩
  finish _ := ⟨[], rfl⟩
  abort c s _ := issuesMore_abort c s

theorem StoppedBehind.more (h : StoppedBehind s0 s s1) (hm : IssuesMore s1 s') : StoppedBehind s0 s s' := by
  obtain ⟨hr, hf, before, x, rest, ha, hi⟩ := h
  obtain ⟨new, hn⟩ := hm
  exact ⟨hr, hf, before, x, rest ++ new, ha, by rw [← List.append_assoc]; exact issued_trans hi hn⟩

/-- One more transaction, which takes the next answer. -/
theorem Answered.snoc (h : Answered s0 s new) (t : Transaction) (htr : s1.trace = (t, s.answers.headD .ok) :: s.trace)
    (hans : s1.answers = s.answers.tail) : Answered s0 s1 (new ++ [(t, s.answers.headD .ok)]) := by
  obtain ⟨hi, hm, ha⟩ := h
  refine ⟨issued_trans hi (htr : issued s s1 [_]), ?_, ?_⟩
  · rw [List.map_append, hm, List.length_append, List.length_singleton, List.range_succ, List.map_append, ha]
    simp [List.headD_eq_head?_getD, List.getD_eq_getElem?_getD]
  · rw [hans, ha, List.tail_drop, List.length_append, List.length_singleton]

theorem AllCompleted.congr (h : AllCompleted s0 s) (ht : s1.trace = s.trace) (ha : s1.answers = s.answers) :
    AllCompleted s0 s1 := by
  obtain ⟨new, ⟨hi, hm, hd⟩, hok⟩ := h
  exact ⟨new, ⟨ht.trans hi, hm, ha.trans hd⟩, hok⟩

/-- Serving the Host does not look at the answers. -/
theorem serve_allOk {h : List HostEvent} (e : serve h s = .go s1) : serve h s.allOk = .go s1.allOk := by
  induction h generalizing s with
  | nil => cases e; rfl
  | cons ev rest ih =>
    cases ev with
    | w16 off v => exact ih (s := dropWrite s) e
    | r16 off => exact ih (s := recordRead off s) e
    | wait | pause => cases e; rfl
    | reset c => cases e

/-- Before each action both runs serve the Host alike. -/
theorem Going.served (h : Going s0 s) :
    ∃ s1, serve s.host s = .go s1 ∧ serve s.allOk.host s.allOk = .go s1.allOk ∧ Going s0 s1 := by
  obtain ⟨hn, h⟩ := h
  obtain ⟨s1, e⟩ := serve_of_noReset s hn
  exact ⟨s1, e, serve_allOk e, noReset_serve e hn, h.congr (by rw [(serve_go e).1]) (by rw [(serve_go e).1])⟩

theorem issue_of_ok {t : Transaction} {q : SeqState} (e : serve s.host s = .go s1)
    (hx : s1.answers.headD .ok = .ok) : issue t q s = .running (completed t q s1) := by
  unfold issue
  rw [e]
  exact if_pos hx

theorem issue_of_timeout {t : Transaction} {q : SeqState} (e : serve s.host s = .go s1)
    (hx : s1.answers.headD .ok = .timeout) : issue t q s = .ended (timedOut t s1) := by
  unfold issue
  rw [e]
  exact if_neg (by rw [hx]; decide)

/-- The next answer decides whether the two runs part. -/
theorem Going.issue (h : Going s0 s) (t : Transaction) (q : SeqState) :
    (issue t q s).Beside s0 (issue t q s.allOk) := by
  obtain ⟨s1, e, e', hn, new, ha, hok⟩ := h.served
  rw [issue_of_ok e' rfl]
  cases hx : s1.answers.headD .ok with
  | ok =>
    have ha1 : Answered s0 (completed t q s1) (new ++ [(t, .ok)]) := hx ▸ ha.snoc t (by rw [hx]; rfl) rfl
    rw [issue_of_ok e hx]
    exact .running (s := completed t q s1) ⟨hn, _, ha1, by simpa [or_imp, forall_and] using hok⟩
  | timeout =>
    have ha1 : Answered s0 (timedOut t s1) (new ++ [(t, .timeout)]) := hx ▸ ha.snoc t (by rw [hx]; rfl) rfl
    have hi : issued s0 (completed t q s1) (new ++ [(t, .ok)]) := issued_trans ha.1 rfl
    rw [issue_of_timeout e hx]
    exact .stopped ⟨rfl, rfl, new, t, [], ha1, by rwa [List.append_nil]⟩

theorem Going.internalAction (h : Going s0 s) {f : State → State} (hf : ∀ s, f s.allOk = (f s).allOk)
    (hk : ∀ {s}, Going s0 s → Going s0 (f s)) :
    (internalAction f s).Beside s0 (internalAction f s.allOk) := by
  obtain ⟨s1, e, e', h1⟩ := h.served
  rw [internalAction_of_go e, internalAction_of_go e', hf]
  exact .running (hk h1)

theorem Going.lastAction (h : Going s0 s) {f : State → State} (hf : Completion f) :
    (Flow.ended (lastAction f s)).Beside s0 (.ended (lastAction f s.allOk)) := by
  obtain ⟨s1, e, e', -, h1⟩ := h.served
  rw [lastAction_of_go e, lastAction_of_go e', hf.allOk]
  exact .ended (hf.result s1) (h1.congr (hf.trace s1) (hf.answers s1))

namespace Flow.Beside

/-- Once the first run has stopped, the second only issues more. -/
theorem andThen {f : State → Flow} (h : r.Beside s0 r')
    (hf : ∀ {s}, Going s0 s → (f s).Beside s0 (f s.allOk)) (hm : ∀ s, (f s).Rel IssuesMore s) :
    (r.andThen f).Beside s0 (r'.andThen f) := by
  cases h with
  | running h => exact hf h
  | ended hr h => exact .ended hr h
  | stopped h =>
    refine .stopped ?_
    cases r' with
    | running b => exact h.more (hm b).state
    | ended b => exact h

theorem close (h : r.Beside s0 r') : (Flow.ended r.close).Beside s0 (.ended r'.close) := by
  cases h with
  | running h => exact h.lastAction (completion_finish (by decide))
  | ended hr h => exact .ended hr h
  | stopped h =>
    refine .stopped (h.more ?_)
    cases r' with
    | running b => exact issuesMoreRel.lastAction issuesMoreRel.finish b
    | ended b => exact issuesMoreRel.refl b

end Flow.Beside

theorem Going.writeByte (h : Going s0 s) (a : Address) (v : Byte) :
    (writeByte a v s).Beside s0 (writeByte a v s.allOk) :=
  (h.issue _ _).andThen (·.issue _ _) (issuesMoreRel.issue _ _)

theorem Going.readTrue (h : Going s0 s) (a : Address) : (readTrue a s).Beside s0 (readTrue a s.allOk) :=
  (h.issue _ _).andThen (fun h => (h.issue _ _).andThen (·.issue _ _) (issuesMoreRel.issue _ _))
    fun s => issuesMoreRel.andThen (issuesMoreRel.issue _ _ s) fun s _ => issuesMoreRel.issue _ _ s

theorem Going.plotCore (h : Going s0 s) (x y : Int) : (plotCore x y s).Beside s0 (plotCore x y s.allOk) :=
  (h.readTrue _).andThen (·.writeByte _ _) fun s => issuesMoreRel.writeByte _ _ s

theorem Going.plotClipped (h : Going s0 s) (x y : Int) :
    (plotClipped x y s).Beside s0 (plotClipped x y s.allOk) := by
  unfold Machine.plotClipped
  split
  · exact h.plotCore x y
  · exact .running h

theorem Going.storeClipped (h : Going s0 s) (x y : Int) (v : Byte) :
    (storeClipped x y v s).Beside s0 (storeClipped x y v s.allOk) := by
  unfold Machine.storeClipped
  split
  · exact h.writeByte _ v
  · exact .running h

theorem Going.runTask (h : Going s0 s) (t : Task) : (runTask t s).Beside s0 (runTask t s.allOk) := by
  cases t with
  | point x y => exact h.plotClipped x y
  | store a v => exact h.writeByte a v
  | column ch i =>
    show (blitColumn ch i s).Beside s0 (blitColumn ch i s.allOk)
    unfold blitColumn
    exact h.storeClipped _ _ _
  | dot ch i j =>
    show (blitDot ch i j s).Beside s0 (blitDot ch i j s.allOk)
    unfold blitDot
    split
    · exact h.plotClipped _ _
    · exact .running h
  | advance f => exact h.internalAction (fun _ => rfl) id

theorem Going.runTasks (h : Going s0 s) (n : Nat) : (runTasks n s).Beside s0 (runTasks n s.allOk) := by
  induction n generalizing s with
  | zero => exact .running h
  | succ n ih =>
    unfold Machine.runTasks
    rw [show s.allOk.work.todo = s.work.todo from rfl]
    split
    · exact .running h
    · next t ts _ =>
      exact (Going.runTask (s := setTodo ts s) h t).andThen ih (issuesMoreRel.runTasks n)

theorem Going.rule (h : Going s0 s) {body : State → Flow} (hb : Rule body) : (body s).Beside s0 (body s.allOk) := by
  cases hb with
  | last hf => exact h.lastAction hf
  | init =>
    exact (h.internalAction (f := acknowledge) (fun _ => rfl) id).andThen (·.lastAction completion_home)
      fun s => .ended (issuesMoreRel.lastAction (fun s => issuesMore_of_trace (completion_home.trace s)) s)
  | plot x y => exact h.plotCore x y
  | raster ts => exact Going.runTasks (s := setTodo ts s) h _

end Sys2Proof.Machine
end

/-! SUPPORT. The sequencer's moves over a whole command (40_addressing.md rule R81). -/

section
namespace Sys2Proof.Machine

variable {s : State} {r : Flow}

theorem ended_cycles {s s1 : State} (h : s1.trace = s.trace) : (Flow.ended s1).Cycles s := .ended [] h .done

theorem Rule.cycles {body : State → Flow} (hb : Rule body) (hn : s.noReset = true) : (body s).Cycles s := by
  cases hb with
  | last hf => exact ended_cycles (lastAction_trace hf.trace hn)
  | init =>
    exact andThen_moves (internalAction_cycles (f := acknowledge) (fun _ => ⟨rfl, rfl⟩) hn) fun _ hn =>
      ended_cycles (lastAction_trace completion_home.trace hn)
  | plot x y => exact plotCore_cycles x y hn
  | raster ts => exact raster_cycles ts hn

theorem Flow.Moves.close (h : r.Cycles s) : ∃ new, issued s r.close new ∧ SeqRun .idle none new := by
  cases h with
  | running new h hn p =>
    refine ⟨new, (lastAction_trace (finish_trace .ok) hn).trans h, ?_⟩
    simpa using p.run .done
  | ended new h p => exact ⟨new, h, p⟩

theorem issued_unique {s t : State} {n1 n2 : List (Transaction × Answer)} (h1 : issued s t n1) (h2 : issued s t n2) :
    n1 = n2 := List.reverse_inj.1 (List.append_cancel_right (h1.symm.trans h2))

/-- Settles O25: the moves by `Rule.cycles`; the answers and the end from the run beside the one with every answer
OK (`Going.rule`). -/
theorem transactionsFollowTheSequencer : Obligations.TransactionsFollowTheSequencer := by
  intro i s hn
  obtain ⟨body, hb, he, he'⟩ := exec_rule i s
  have hg : Going s (startWork i s) := ⟨hn, [], ⟨rfl, rfl, rfl⟩, nofun⟩
  obtain ⟨new, hi, hseq⟩ := (hb.cycles (s := startWork i s) hn).close
  have hi : issued s (body (startWork i s)).close new := hi
  have hs := (hg.rule hb).close
  generalize (body (startWork i s)).close = t at *
  generalize (body (startWork i s).allOk).close = t' at *
  cases hs with
  | ended hr h =>
    obtain ⟨new', ⟨hi', hm, ha⟩, hok⟩ := h
    obtain rfl := issued_unique hi hi'
    refine ⟨_, _, new, new, he, he', hi, hi, hseq, hm, ha, ⟨fun h => absurd h hr, ?_⟩, fun h => absurd h hr,
      fun _ => rfl⟩
    rintro ⟨e, hmem, hto⟩
    rw [hok e hmem] at hto
    cases hto
  | stopped h =>
    obtain ⟨hr, hf, before, x, rest, ⟨hi', hm, ha⟩, hfull⟩ := h
    obtain rfl := issued_unique hi hi'
    exact ⟨_, _, _, _, he, he', hi, hfull, hseq, hm, ha, ⟨fun _ => ⟨(x, .timeout), by simp, rfl⟩, fun _ => hr⟩,
      fun _ => ⟨hf, before, x, rfl, List.prefix_append _ _⟩, fun h => absurd hr h⟩

end Sys2Proof.Machine
end

/-! SUPPORT. PLOT, on the screen and off it, while host accesses arrive (41_pixelplot.md rules R87, R91): it draws its
point, and leaves one controller at the byte it wrote. -/

section
namespace Sys2Proof.Machine

variable {c : Color} {x y : Int} {s t : State}

/-- A controller after a PixelPlot at the address `a` (20_memory.md rules R47 to R49). -/
def chipAfterPlot (d : Display) (a : Address) : Chip :=
  { page := a.page, col := a.column + 1, latch := d.byteAt { a with column := a.column + 1 } }

/-- What a PLOT of the point `(x, y)` that neither a TIMEOUT nor a reset disturbs leaves, besides what every command
keeps (`FrameRel`). -/
structure Plotted (c : Color) (x y : Int) (s t : State) : Prop where
  done : completedWith (if onScreen x y then .ok else .outOfRange) t
  fault : t.fault = s.fault
  canvas : t.canvas = drawPoint c x y s.canvas
  otherChip : ∀ sd, sd ≠ (locate x y).side → t.disp.chip sd = s.disp.chip sd
  ownChip : onScreen x y = true → t.disp.chip (locate x y).side = chipAfterPlot s.disp (locate x y)

/-- PLOT's rule from the command's start, its point read from the operand registers. -/
theorem plotBody_startWork (i : Instr) (s : State) : plotBody (startWork i s) =
    if onScreen s.arg0.toInt s.arg1.toInt then plotCore s.arg0.toInt s.arg1.toInt (startWork i s)
    else raise .outOfRange (startWork i s) := rfl

/-- The run of PLOT without host accesses: five transactions (`plotCore_calm`), or the operand check alone. -/
theorem runPlot_calm (c : Color) (u : BitVec 1) (h : Calm s) (hf : s.fault = false) :
    Plotted c s.arg0.toInt s.arg1.toInt s (runCommand (.plot c u) plotBody s) := by
  rw [runCommand_of_not_fault hf, plotBody_startWork]
  generalize s.arg0.toInt = x, s.arg1.toInt = y
  by_cases ho : onScreen x y = true
  · obtain ⟨s', e, hc, hk, -, hx, -, hm, hother, hown, htr⟩ := plotCore_calm x y (s := startWork (.plot c u) s) h
    rw [startWork_work_color, show colorBit (.plot c u) = c.bit from rfl, Color.ofBit_bit] at hm htr
    rw [if_pos ho, e, show (Flow.running s').close = finish .ok s' from lastAction_calm _ hc]
    refine ⟨?_, ?_, ?_, hother, fun _ => hown⟩
    · rw [if_pos ho]
      exact ⟨rfl, rfl, rfl⟩
    · rw [finish_fault, hk]
      rfl
    · simp [State.canvas, drawPoint, ho, hm, hx, htr]
  · have hr : (raise .outOfRange (startWork (.plot c u) s)).close = abort .outOfRange (startWork (.plot c u) s) :=
      lastAction_calm _ h
    rw [if_neg ho, hr]
    refine ⟨?_, rfl, ?_, fun _ _ => rfl, fun h => absurd h ho⟩
    · rw [if_neg ho]
      exact ⟨rfl, rfl, rfl⟩
    · rw [drawPoint, if_neg ho]
      rfl

/-- Host accesses change nothing of it (`runCommand_hush`). -/
theorem exec_plotted (c : Color) (u : BitVec 1) (hu : s.undisturbed) (hf : s.fault = false) :
    ∃ t, exec (.plot c u) s = .next t ∧ Plotted c s.arg0.toInt s.arg1.toInt s t ∧ FrameRel s t := by
  obtain ⟨-, hushed, -⟩ := hushed_bodies
  obtain ⟨-, frame, -⟩ := frameRel.body
  have h := runPlot_calm c u (calm_hush hu) hf
  refine ⟨_, exec_plot c u s, ?_, runCommand_frame frame s⟩
  rw [eq_of_hush_eq (runCommand_hush (i := .plot c u) hushed (hushEq_hush hu.2))]
  exact ⟨h.done, h.fault, h.canvas, h.otherChip, h.ownChip⟩

/-- A command leaves no TIMEOUT and no reset scripted where none was. -/
theorem FrameRel.undisturbed (h : FrameRel s t) (hu : s.undisturbed) : t.undisturbed := by
  obtain ⟨hhost, -, -, -, -, -, -, hans⟩ := h hu.2
  exact ⟨List.all_eq_true.2 fun a ha => List.all_eq_true.1 hu.1 a (hans.subset ha), noReset_of_frame hhost hu.2⟩

namespace Plotted

theorem completedKeeping (h : Plotted c x y s t) (hfr : FrameRel s t) (hn : s.noReset = true) :
    completedKeeping (if onScreen x y then .ok else .outOfRange) s t := by
  obtain ⟨-, hops, -, -, hset, hkeep, -, -⟩ := hfr hn
  exact ⟨h.done, hops, h.fault, hset, hkeep⟩

theorem sameCursor (h : Plotted c x y s t) (hfr : FrameRel s t) (hn : s.noReset = true) : sameCursor s t := by
  obtain ⟨-, -, hy, -⟩ := hfr hn
  exact ⟨(congrArg Canvas.curx h.canvas).trans (drawPoints_curx c s.cury [(x, y)] _), hy⟩

theorem wf (h : Plotted c x y s t) (hw : s.disp.dram.wf = true) : t.disp.dram.wf = true :=
  (congrArg (fun k => k.dram.wf) h.canvas).trans (drawTask_wf c s.cury (.point x y) hw)

/-- One pixel changes (41_pixelplot.md rule R89), off the screen none. -/
theorem pixel (h : Plotted c x y s t) (hw : s.disp.dram.wf = true) {u v : Int} (ho : onScreen u v = true) :
    t.pixel u v = if (u, v) = (x, y) then c else s.pixel u v :=
  (congrArg (fun k => k.dram.pixel u v) h.canvas).trans (drawPoint_pixel c x y hw ho)

theorem dram (h : Plotted c x y s t) (ho : onScreen x y = true) :
    t.disp.dram = s.disp.dram.write (locate x y).cell (plottedByte x y c s.disp.dram) := by
  refine (congrArg Canvas.dram h.canvas).trans ?_
  rw [drawPoint, if_pos ho]
  rfl

theorem issued (h : Plotted c x y s t) (ho : onScreen x y = true) :
    issued s t (plotTrace (locate x y) (plottedByte x y c s.disp.dram)).reverse := by
  refine (congrArg Canvas.trace h.canvas).trans ?_
  rw [drawPoint, if_pos ho, List.reverse_reverse]
  rfl

end Plotted

/-- Settles O42: the pixels by `Plotted.pixel`; the byte written, the controllers and the transactions are those of
one PixelPlot. -/
theorem plotSetsOnePixel : Obligations.PlotSetsOnePixel := by
  intro c u s hu hf hw ho
  obtain ⟨t, he, hp, hfr⟩ := exec_plotted c u hu hf
  have hkept := hp.completedKeeping hfr hu.2
  rw [if_pos ho] at hkept
  refine ⟨t, plottedByte s.arg0.toInt s.arg1.toInt c s.disp.dram, he, hkept, hp.sameCursor hfr hu.2, ?_,
    fun x y hxy hne => ?_, hp.otherChip, hp.ownChip ho, ?_, fun a ha => ?_, hp.issued ho⟩
  · rw [hp.pixel hw ho, if_pos rfl]
  · rw [hp.pixel hw hxy, if_neg hne]
  · rw [Display.byteAt, hp.dram ho, Memory.read_write hw, if_pos rfl]
  · rw [Display.byteAt, hp.dram ho, Memory.read_write_other _ _ fun hc => ha (Address.cell_inj hc), Display.byteAt]

end Sys2Proof.Machine
end

/-! SUPPORT. Two PLOTs in a row, compared pixel by pixel: the pixels of a display determine its bytes (10_state.md
rule R31). -/

section
namespace Sys2Proof.Machine

variable {s t : State}

/-- A bit of a byte is the pixel it shows (40_addressing.md rule R78). -/
theorem getLsbD_byteAt (s : State) (a : Address) {k : Nat} (hk : k < 8) :
    (s.disp.byteAt a).getLsbD k = decide (s.pixel a.x (a.y k) = .foreground) := by
  rw [State.pixel, locate_address a hk, bitIndex_address a hk]
  cases (s.disp.byteAt a).getLsbD k <;> rfl

theorem byteAt_eq_of_pixel_eq (h : ∀ x y, onScreen x y = true → s.pixel x y = t.pixel x y) (a : Address) :
    s.disp.byteAt a = t.disp.byteAt a :=
  BitVec.eq_of_getLsbD_eq fun k hk => by
    rw [getLsbD_byteAt s a hk, getLsbD_byteAt t a hk, h _ _ (onScreen_address a hk)]

/-- Settles O44: the second PLOT gives its pixel the color that it has. -/
theorem plotIsIdempotent : Obligations.PlotIsIdempotent := by
  intro c u s hu hf hw
  obtain ⟨t, he, hp, hfr⟩ := exec_plotted c u hu hf
  obtain ⟨t', he', hp', -⟩ := exec_plotted c u (hfr.undisturbed hu) (hp.fault.trans hf)
  obtain ⟨-, ⟨-, h0, h1, -⟩, -⟩ := hfr hu.2
  rw [h0, h1] at hp'
  refine ⟨t, t', he, he', byteAt_eq_of_pixel_eq fun x y ho => ?_, fun ho => ⟨_, hp'.issued ho, rfl⟩⟩
  rw [hp'.pixel (hp.wf hw) ho, hp.pixel hw ho]
  split <;> rfl

/-- After two PLOTs a pixel is the later one's, else the earlier one's, else as it was. -/
theorem exec_plot_twice (c d : Color) (u : BitVec 1) (x y x' y' : Word) (hu : s.undisturbed) (hf : s.fault = false)
    (hw : s.disp.dram.wf = true) :
    ∃ t t', exec (.plot c u) { s with arg0 := x, arg1 := y } = .next t ∧
      exec (.plot d u) { t with arg0 := x', arg1 := y' } = .next t' ∧
      ∀ p q, onScreen p q = true → t'.pixel p q =
        if (p, q) = (x'.toInt, y'.toInt) then d else if (p, q) = (x.toInt, y.toInt) then c else s.pixel p q := by
  obtain ⟨t, he, hp, hfr⟩ := exec_plotted c u (s := { s with arg0 := x, arg1 := y }) hu hf
  obtain ⟨t', he', hp', -⟩ := exec_plotted d u (s := { t with arg0 := x', arg1 := y' }) (hfr.undisturbed hu)
    (hp.fault.trans hf)
  refine ⟨t, t', he, he', fun p q ho => ?_⟩
  rw [hp'.pixel (hp.wf hw) ho]
  exact congrArg (ite _ d) (hp.pixel hw ho)

/-- Settles O45: no pixel is named by both PLOTs, so it does not matter which is the later one. -/
theorem plotsOfDifferentPixelsCommute : Obligations.PlotsOfDifferentPixelsCommute := by
  intro c d u x y x' y' s hu hf hw hne
  obtain ⟨t1, t2, h1, h2, hpx⟩ := exec_plot_twice c d u x y x' y' hu hf hw
  obtain ⟨t1', t2', h1', h2', hpx'⟩ := exec_plot_twice d c u x' y' x y hu hf hw
  refine ⟨t1, t2, t1', t2', h1, h2, h1', h2', byteAt_eq_of_pixel_eq fun p q ho => ?_⟩
  rw [hpx p q ho, hpx' p q ho]
  have hints : (x.toInt, y.toInt) ≠ (x'.toInt, y'.toInt) := by
    simpa only [ne_eq, Prod.mk.injEq, BitVec.toInt_inj] using hne
  by_cases hxy : (p, q) = (x.toInt, y.toInt)
  · rw [if_pos hxy, if_pos hxy, if_neg (hxy ▸ hints)]
  · rw [if_neg hxy, if_neg hxy]

end Sys2Proof.Machine
end

/-! SUPPORT. What a drawing command that neither a TIMEOUT nor a reset disturbs leaves (`DrewCommand`), in the words of
the obligations; and the points of a RECT (42_shapes.md rules R94 to R97). -/

section
namespace Sys2Proof.Machine

variable {c : Color} {ts : List Task} {ps : List (Int × Int)} {s t : State}

theorem DrewCommand.completedKeeping (h : DrewCommand ts c s t) (hb : busyWrOnlySet s t) :
    completedKeeping .ok s t := ⟨h.done, h.operands, h.fault, hb⟩

theorem DrewCommand.sameCursor (h : DrewCommand ts c s t)
    (hx : (drawTasks c s.cury ts s.canvas).curx = s.curx) : sameCursor s t :=
  ⟨(congrArg Canvas.curx h.canvas).trans hx, h.cury⟩

/-- A command that draws points sets exactly the named pixels (41_pixelplot.md rule R93). -/
theorem DrewCommand.pixel (h : DrewCommand (pointTasks ps) c s t) (hw : s.disp.dram.wf = true) {u v : Int}
    (ho : onScreen u v = true) : t.pixel u v = if (u, v) ∈ ps then c else s.pixel u v :=
  (congrArg (fun k => k.dram.pixel u v) h.canvas).trans (drawPoints_pixel c s.cury ps hw ho)

theorem mem_rectPoints {xs ys xe ye u v : Int} :
    (u, v) ∈ rectPoints xs ys xe ye ↔ onOutline xs ys xe ye u v := by
  have hrow (a b k : Int) : (u, v) ∈ (intRange a b).map (fun x => (x, k)) ↔ (a ≤ u ∧ u ≤ b) ∧ k = v := by
    simp [mem_intRange]
  have hcol (a b k : Int) : (u, v) ∈ (intRange a b).map (fun y => (k, y)) ↔ (a ≤ v ∧ v ≤ b) ∧ k = u := by
    simp [mem_intRange]
  simp only [rectPoints, onOutline, List.mem_append, hrow, hcol]
  omega

theorem rectBody_startWork (i : Instr) (s : State) : rectBody (startWork i s) =
    raster (pointTasks (rectPoints s.arg0.toInt s.arg1.toInt s.arg2.toInt s.arg3.toInt)) (startWork i s) := rfl

theorem exec_rect_drew (c : Color) (u : BitVec 1) (hu : s.undisturbed) (hf : s.fault = false) :
    ∃ t, exec (.rect c u) s = .next t ∧ DrewCommand
      (pointTasks (rectPoints s.arg0.toInt s.arg1.toInt s.arg2.toInt s.arg3.toInt)) c s t ∧ busyWrOnlySet s t := by
  obtain ⟨-, -, hushed, -⟩ := hushed_bodies
  obtain ⟨-, -, frame, -⟩ := frameRel.body
  obtain ⟨hd, hb⟩ := drew_command (i := .rect c u) hushed frame hu hf (rectBody_startWork ..)
  rw [show Color.ofBit (colorBit (.rect c u)) = c from Color.ofBit_bit c] at hd
  exact ⟨_, exec_rect c u s, hd, hb⟩

/-- Settles O47: the points drawn are those of the outline (`mem_rectPoints`). -/
theorem rectDrawsTheOutline : Obligations.RectDrawsTheOutline := by
  intro c u s hu hf hw
  obtain ⟨t, he, hd, hb⟩ := exec_rect_drew c u hu hf
  refine ⟨t, he, hd.completedKeeping hb, hd.sameCursor (drawPoints_curx ..), fun x y ho =>
    ⟨fun h => ?_, fun h => ?_⟩⟩
  · rw [hd.pixel hw ho, if_pos (mem_rectPoints.2 h)]
  · rw [hd.pixel hw ho, if_neg (mem_rectPoints.not.2 h)]

end Sys2Proof.Machine
end

/-! SUPPORT. Two runs of the same points whose operand registers differ (42_shapes.md rules R94, R96): they differ in
those registers, their copies, and what the Host reads of them, which no engine action looks at. -/

section
namespace Sys2Proof.Machine

variable {s s' : State}

/-- The state without the operand registers, their copies in the working state, and what the Host has read. -/
def blind (s : State) : State :=
  { s with arg0 := 0, arg1 := 0, arg2 := 0, arg3 := 0, reads := [],
           work := { s.work with arg0 := 0, arg1 := 0, arg2 := 0, arg3 := 0 } }

/-- Two states that differ in nothing else. -/
def BlindEq (s s' : State) : Prop := blind s = blind s'

/-- An action that does not look at what `blind` removes. -/
theorem BlindEq.map (h : BlindEq s s') {f : State → State} (hf : ∀ s, blind (f s) = blind (f (blind s))) :
    BlindEq (f s) (f s') :=
  (hf s).trans ((congrArg (fun s => blind (f s)) h).trans (hf s').symm)

theorem BlindEq.disp_trace_result (h : BlindEq s s') : s'.disp = s.disp ∧ s'.trace = s.trace ∧ s'.result = s.result :=
  have h : blind s' = blind s := h.symm
  ⟨(congrArg State.disp h :), (congrArg State.trace h :), (congrArg State.result h :)⟩

theorem BlindEq.abort (h : BlindEq s s') (code : Result) : BlindEq (abort code s) (abort code s') :=
  h.map fun s => by
    unfold Machine.abort
    split <;> rfl

theorem BlindEq.completed (h : BlindEq s s') (t : Transaction) (q : SeqState) :
    BlindEq (completed t q s) (completed t q s') :=
  h.map fun s => by
    unfold Machine.completed blind
    dsimp only
    split <;> rfl

theorem BlindEq.serve (h : BlindEq s s') (es : List HostEvent) :
    (∃ a a', serve es s = .go a ∧ serve es s' = .go a' ∧ BlindEq a a') ∨
    (∃ c a a', serve es s = .reset c a ∧ serve es s' = .reset c a' ∧ BlindEq a a') := by
  induction es generalizing s s' with
  | nil => exact .inl ⟨_, _, rfl, rfl, h.map (f := fun s => { s with host := [] }) fun _ => rfl⟩
  | cons e es ih =>
    cases e with
    | w16 off v => exact ih (h.map (f := dropWrite) fun _ => rfl)
    | r16 off => exact ih (s := recordRead off s) (s' := recordRead off s') h
    | wait => exact .inl ⟨_, _, rfl, rfl, h.map (f := fun s => { s with host := .wait :: es }) fun _ => rfl⟩
    | pause => exact .inl ⟨_, _, rfl, rfl, h.map (f := fun s => { s with host := es }) fun _ => rfl⟩
    | reset c => exact .inr ⟨c, _, _, rfl, rfl, h.map (f := fun s => { s with host := es }) fun _ => rfl⟩

theorem blindSim : Sim BlindEq BlindEq where
  served {s s'} h := by
    rw [show s'.host = s.host from (congrArg State.host h).symm]
    rcases h.serve s.host with ha | ⟨c, a, a', e, e', ha⟩
    · exact .inl ha
    · exact .inr ⟨c, a, a', e, e', ha.map fun _ => rfl,
        fun t => ha.map (f := fun s => engineReset (failed t s)) fun _ => rfl⟩
  reads {s s'} h := by
    have hw : blind s' = blind s := h.symm
    exact ⟨(congrArg State.answers hw :), (congrArg (fun s => s.work.byte) hw :),
      (congrArg (fun s => s.work.color) hw :),
      (congrArg (fun s => s.work.todo) hw :), (congrArg State.curx hw :), (congrArg State.cury hw :)⟩
  completed t q h := h.completed t q
  timedOut t h := h.map (f := timedOut t) fun _ => rfl
  finish h := h.map fun _ => rfl
  abort code h := h.abort code
  setTodo ts h := h.map (f := setTodo ts) fun _ => rfl
  advance f h := h.map (f := advance f) fun _ => rfl

theorem rectPoints_swap_x (xs ys xe ye : Int) : rectPoints xe ys xs ye = rectPoints xs ys xe ye := by
  unfold rectPoints
  rw [min_comm xe, max_comm xe]

theorem rectPoints_swap_y (xs ys xe ye : Int) : rectPoints xs ye xe ys = rectPoints xs ys xe ye := by
  unfold rectPoints
  rw [min_comm ye, max_comm ye]

/-- RECTs from states that differ in their operands alone end alike if these name the same points. -/
theorem rect_blind (c : Color) (u : BitVec 1) (h : BlindEq s s')
    (hp : rectPoints s'.arg0.toInt s'.arg1.toInt s'.arg2.toInt s'.arg3.toInt =
      rectPoints s.arg0.toInt s.arg1.toInt s.arg2.toInt s.arg3.toInt) :
    BlindEq (runCommand (.rect c u) rectBody s) (runCommand (.rect c u) rectBody s') := by
  have hs : BlindEq (startWork (.rect c u) s) (startWork (.rect c u) s') :=
    h.map (f := startWork _) fun _ => rfl
  refine blindSim.runCommand (congrArg State.fault h).symm hs ?_
  rw [rectBody_startWork, rectBody_startWork, hp]
  exact blindSim.raster _ hs

/-- Settles O48: the points are the same (`rectPoints_swap_x`, `rectPoints_swap_y`), and the runs go through the same
(`rect_blind`). -/
theorem rectCornersMayBeSwapped : Obligations.RectCornersMayBeSwapped := by
  intro c u s
  have hx := rect_blind c u (s := s) (s' := { s with arg0 := s.arg2, arg2 := s.arg0 }) rfl (rectPoints_swap_x ..)
  have hy := rect_blind c u (s := s) (s' := { s with arg1 := s.arg3, arg3 := s.arg1 }) rfl (rectPoints_swap_y ..)
  obtain ⟨hxd, hxt, hxr⟩ := hx.disp_trace_result
  obtain ⟨hyd, hyt, hyr⟩ := hy.disp_trace_result
  exact ⟨_, _, _, exec_rect c u _, exec_rect c u _, exec_rect c u _, hxd, hxt, hxr, hyd, hyt, hyr⟩

end Sys2Proof.Machine
end

/-! SUPPORT. The fill walk (42_shapes.md rule R98): its addresses by their place in it, and the transactions that store
one byte at each of a list of addresses. -/

section
namespace Sys2Proof.Machine

/-- The `n`-th address of the fill walk, from 0. -/
def walkAddress (n : Nat) : Address :=
  { side := if n < 512 then .left else .right, page := BitVec.ofNat 3 (n / 64 % 8), column := BitVec.ofNat 6 (n % 64) }

theorem walkAddress_cell {n : Nat} (h : n < 1024) : (walkAddress n).cell = n := by
  simp only [walkAddress, Address.cell, BitVec.toNat_ofNat]
  split
  · simp only [Side.code]
    omega
  · simp only [Side.code]
    omega

theorem walkAddress_of_cell (a : Address) : walkAddress a.cell = a :=
  Address.cell_inj (walkAddress_cell a.cell_lt)

theorem flatMap_range_map {α : Type} (f : Nat → α) (n m : Nat) :
    ((List.range m).flatMap fun i => (List.range n).map fun j => f (n * i + j)) = (List.range (n * m)).map f := by
  induction m with
  | zero => rfl
  | succ m ih =>
    rw [List.range_succ, List.flatMap_append, ih, Nat.mul_succ, List.range_add, List.map_append]
    simp

/-- One side's part of the walk. -/
theorem walk_side (sd : Side) : ((List.range 8).flatMap fun p => (List.range 64).map fun c =>
    ({ side := sd, page := BitVec.ofNat 3 p, column := BitVec.ofNat 6 c } : Address)) =
      (List.range 512).map fun n => walkAddress (512 * sd.code + n) := by
  rw [← flatMap_range_map (fun n => walkAddress (512 * sd.code + n)) 64 8]
  refine List.flatMap_congr fun p hp => List.map_congr_left fun c hc => Address.cell_inj ?_
  have hp := List.mem_range.1 hp
  have hc := List.mem_range.1 hc
  have hs : sd.code ≤ 1 := by cases sd <;> decide
  rw [walkAddress_cell (by omega)]
  simp only [Address.cell, BitVec.toNat_ofNat]
  omega

theorem fillAddresses_eq : fillAddresses = (List.range 1024).map walkAddress := by
  unfold fillAddresses
  simp only [List.flatMap_cons, List.flatMap_nil, walk_side, Side.code]
  rw [show 1024 = 512 + 512 from rfl, List.range_add]
  simp

/-- The transactions that store `v` at each of the addresses, oldest first (40_addressing.md rule R82). -/
def storesTrace (v : Byte) (as : List Address) : List (Transaction × Answer) :=
  as.flatMap fun a => (writeTrace a v).reverse

variable {v : Byte} {a b : Address} {as : List Address} {d : Display}

theorem storesTrace_length (v : Byte) (as : List Address) : (storesTrace v as).length = 2 * as.length := by
  simp [storesTrace, writeTrace, Nat.mul_comm]

theorem answer_of_mem_storesTrace {e : Transaction × Answer} (h : e ∈ storesTrace v as) : e.2 = .ok := by
  obtain ⟨a, -, h⟩ := List.mem_flatMap.1 h
  rcases (by simpa [writeTrace] using h : e = _ ∨ e = _) with rfl | rfl <;> rfl

theorem ne_rd_of_mem_storesTrace {e : Transaction × Answer} (h : e ∈ storesTrace v as) (sd : Side) : e.1 ≠ .rd sd := by
  obtain ⟨a, -, h⟩ := List.mem_flatMap.1 h
  rcases (by simpa [writeTrace] using h : e = _ ∨ e = _) with rfl | rfl <;> nofun

theorem pointer_perform_sel (d : Display) (a : Address) :
    (d.perform (.sel a.side a.page a.column)).pointer a.side = a := by
  rw [Display.pointer, perform_sel_chip]

theorem perform_sel_byteAt (d : Display) (s : Side) (p : BitVec 3) (c : BitVec 6) (b : Address) :
    (d.perform (.sel s p c)).byteAt b = d.byteAt b := Display.byteAt_setChip ..

/-- What a byte write, once selected, stores. -/
theorem byteAt_putByte_selected (hw : d.dram.wf = true) (a b : Address) (v : Byte) :
    ((d.perform (.sel a.side a.page a.column)).putByte
      ((d.perform (.sel a.side a.page a.column)).pointer a.side) v).byteAt b = if b = a then v else d.byteAt b := by
  rw [Display.byteAt_putByte (Display.perform_wf hw _), pointer_perform_sel, perform_sel_byteAt]

/-- A byte write stores its byte at its address, whatever the cursor was. -/
theorem byteAt_selected_write (hw : d.dram.wf = true) (a b : Address) (v : Byte) :
    ((d.perform (.sel a.side a.page a.column)).perform (.wr a.side v)).byteAt b = if b = a then v else d.byteAt b :=
  (perform_wr_byteAt ..).trans (byteAt_putByte_selected hw a b v)

/-- One whose WR times out may have stored it (20_memory.md rule R51). -/
theorem byteAt_selected_timeOut (hw : d.dram.wf = true) (a b : Address) (v : Byte) (n : Nat) :
    ((d.perform (.sel a.side a.page a.column)).timeOut (.wr a.side v) n).byteAt b = d.byteAt b ∨
    a = b ∧ ((d.perform (.sel a.side a.page a.column)).timeOut (.wr a.side v) n).byteAt b = v := by
  rw [timeOut_wr_byteAt, byteAt_putByte_selected hw, perform_sel_byteAt]
  split_ifs with hland hb
  · exact .inr ⟨hb.symm, rfl⟩
  · exact .inl rfl
  · exact .inl rfl

/-- A display after the transactions of a list of stores. -/
theorem after_storesTrace (n : Nat) (v : Byte) (as : List Address) (hw : d.dram.wf = true) :
    (d.after n (storesTrace v as)).dram.wf = true ∧
      ∀ b, (d.after n (storesTrace v as)).byteAt b = if b ∈ as then v else d.byteAt b := by
  induction as generalizing d with
  | nil => exact ⟨hw, fun b => rfl⟩
  | cons a as ih =>
    obtain ⟨hw', hb⟩ := ih (Display.perform_wf (Display.perform_wf hw (.sel a.side a.page a.column)) (.wr a.side v))
    refine ⟨hw', fun b => (hb b).trans ?_⟩
    rw [byteAt_selected_write hw]
    by_cases h : b ∈ as
    · rw [if_pos h, if_pos (List.mem_cons_of_mem _ h)]
    · simp [h]

end Sys2Proof.Machine
end

/-! SUPPORT. FILL undisturbed (42_shapes.md rules R98 to R100). -/

section
namespace Sys2Proof.Machine

variable {c : Color} {s t : State}

theorem fillByte_eq_ite (c : Color) : fillByte c = if c = .foreground then 0xFF#8 else 0x00#8 := by cases c <;> rfl

theorem fillBody_startWork (c : Color) (u : BitVec 1) (s : State) : fillBody (startWork (.fill c u) s) =
    raster (fillAddresses.map fun a => .store a (fillByte c)) (startWork (.fill c u) s) := by
  unfold fillBody
  rw [startWork_work_color, show Color.ofBit (colorBit (.fill c u)) = c from Color.ofBit_bit c]

theorem exec_fill_drew (c : Color) (u : BitVec 1) (hu : s.undisturbed) (hf : s.fault = false) :
    ∃ t, exec (.fill c u) s = .next t ∧ DrewCommand (fillAddresses.map fun a => .store a (fillByte c)) c s t ∧
      busyWrOnlySet s t := by
  obtain ⟨-, -, -, hushed, -⟩ := hushed_bodies
  obtain ⟨-, -, -, frame, -⟩ := frameRel.body
  obtain ⟨hd, hb⟩ := drew_command (i := .fill c u) hushed frame hu hf (fillBody_startWork c u _)
  rw [show Color.ofBit (colorBit (.fill c u)) = c from Color.ofBit_bit c] at hd
  exact ⟨_, exec_fill c u s, hd, hb⟩

theorem DrewCommand.issued_stores {v : Byte} {as : List Address}
    (h : DrewCommand (as.map fun a => .store a v) c s t) : issued s t (storesTrace v as) :=
  (congrArg Canvas.trace h.canvas).trans (drawStores_trace c s.cury v as s.canvas).1

/-- Settles O49: the transactions are the walk's (`fillAddresses_eq`), and the display is what they leave (O26). -/
theorem fillWritesEveryByte : Obligations.FillWritesEveryByte := by
  intro c u s hu hf hw
  obtain ⟨t, he, hd, hb⟩ := exec_fill_drew c u hu hf
  obtain ⟨_, new, he', hi, hdisp, -, -, hlatch⟩ := displayChangesOnlyByTransactions (.fill c u) s
  cases he.symm.trans he'
  obtain rfl := issued_unique hi hd.issued_stores
  rw [← fillByte_eq_ite]
  refine ⟨t, he, hd.completedKeeping hb, hd.sameCursor (drawStores_trace ..).2, fun a => ?_,
    fun sd => hlatch sd fun e hm => ⟨ne_rd_of_mem_storesTrace hm sd, fun _ => answer_of_mem_storesTrace hm⟩, ?_⟩
  · rw [hdisp, (after_storesTrace _ _ _ hw).2, if_pos (mem_fillAddresses a)]
  · rwa [storesTrace, fillAddresses_eq, List.flatMap_map] at hi

end Sys2Proof.Machine
end

/-! SUPPORT. A command whose transaction number `n` times out, against the same command with every answer OK
(60_exceptions.md rules R133, R134). -/

section
namespace Sys2Proof.Machine

variable {i : Instr} {s t' : State} {n : Nat} {rest : List Answer} {full : List (Transaction × Answer)}

theorem getD_before_timeout {k : Nat} (h : k < n) :
    (List.replicate n Answer.ok ++ .timeout :: rest).getD k .ok = .ok := by
  simp [List.getD_eq_getElem?_getD, List.getElem?_append, h]

theorem getD_at_timeout : (List.replicate n Answer.ok ++ .timeout :: rest).getD n .ok = .timeout := by
  simp [List.getD_eq_getElem?_getD]

theorem exec_ended (i : Instr) (s : State) : ∃ t, exec i s = .next t ∧ Ended t :=
  run_ended.exec (fun _ => ⟨rfl, rfl⟩) (fun _ => ⟨rfl, rfl⟩) (fun _ => trivial) (fun _ => ⟨rfl, rfl⟩)
    (fun _ => ⟨rfl, rfl⟩) i (fun _ _ _ => ⟨rfl, rfl⟩) s trivial

/-- It issues the `n` transactions of the undisturbed run, then the one that times out, and ends. -/
theorem exec_timesOut (hn : s.noReset = true) (ha : s.answers = List.replicate n .ok ++ .timeout :: rest)
    (he' : exec i { s with answers := [] } = .next t') (hi' : issued s t' full) (hok : ∀ e ∈ full, e.2 = .ok)
    (hlt : n < full.length) :
    ∃ t before x, exec i s = .next t ∧ completedWith .hwTimeout t ∧ t.fault = true ∧
      issued s t (before ++ [(x, .timeout)]) ∧ before.length = n ∧ before ++ [(x, .ok)] <+: full := by
  obtain ⟨t, u, new, full', he, heu, hi, hiu, -, hm, -, hto, hstop, hrun⟩ := transactionsFollowTheSequencer i s hn
  cases he'.symm.trans heu
  obtain rfl := issued_unique hi' hiu
  have hans (k : Nat) (hk : k < new.length) : new[k].2 = s.answers.getD k .ok := by
    simpa [hk] using congrArg (·[k]?) hm
  rw [ha] at hans
  obtain ⟨_, heE, hended⟩ := exec_ended i s
  cases he.symm.trans heE
  have hres : t.result = .hwTimeout := by
    by_contra hr
    have htr : t.trace = t'.trace := by rw [hrun hr]
    obtain rfl := issued_unique hi (htr.trans hi')
    exact hr (hto.2 ⟨_, List.getElem_mem hlt, (hans n hlt).trans getD_at_timeout⟩)
  obtain ⟨hf, before, x, rfl, hp⟩ := hstop hres
  refine ⟨t, before, x, he, ⟨hres, hended⟩, hf, hi, ?_, hp⟩
  rcases lt_trichotomy before.length n with hl | hl | hl
  · have h := hans before.length (by simp)
    rw [getD_before_timeout hl] at h
    simp at h
  · exact hl
  · have h := hans n (by simp; omega)
    rw [getD_at_timeout, List.getElem_append_left hl] at h
    rw [hok _ (hp.subset (List.mem_append_left _ (List.getElem_mem hl)))] at h
    cases h

end Sys2Proof.Machine
end

/-! SUPPORT. Stores of one byte in a run without a reset never move the cursor, whether or not one times out. -/

section
namespace Sys2Proof.Machine

variable {x : Word} {us : List Task} {s : State}

/-- The cursor is at `x`, and no reset is scripted. -/
def CursorHeldAt (x : Word) (s : State) : Prop := s.noReset = true ∧ s.curx = x

theorem CursorHeldAt.served (h : CursorHeldAt x s) :
    ∃ s1, serve s.host s = .go s1 ∧ CursorHeldAt x s1 ∧ s1.work = s.work := by
  obtain ⟨s1, e⟩ := serve_of_noReset s h.1
  exact ⟨s1, e, ⟨noReset_serve e h.1, by rw [(serve_go e).1]; exact h.2⟩, by rw [(serve_go e).1]⟩

theorem CursorHeldAt.issue (t : Transaction) (q : SeqState) (h : Held us (CursorHeldAt x) s) :
    (issue t q s).At (Held us (CursorHeldAt x)) (·.curx = x) := by
  obtain ⟨s1, e, h1, hw⟩ := h.2.served
  cases hx : s1.answers.headD .ok with
  | ok =>
    rw [issue_of_ok e hx]
    exact .running ⟨by rw [completed_work_todo, hw]; exact h.1, h1⟩
  | timeout =>
    rw [issue_of_timeout e hx]
    exact .ended h1.2

theorem CursorHeldAt.raster_stores (v : Byte) (as : List Address) (h : CursorHeldAt x s) :
    (raster (as.map fun a => .store a v) s).At (CursorHeldAt x) (·.curx = x) := by
  refine Flow.At.mono (raster_at (P := fun ts s => CursorHeldAt x s ∧ ∃ as : List Address, ts = as.map (.store · v))
    (fun {t ts s} h => ?_) (fun h => h) ⟨h, as, rfl⟩) fun h => h.1
  obtain ⟨hu, h, as, has⟩ := h
  obtain ⟨a, as, rfl, rfl, rfl⟩ := List.map_eq_cons_iff.1 has.symm
  exact ((CursorHeldAt.issue _ _ ⟨hu, h⟩).andThen (CursorHeldAt.issue _ _)).mono fun h => ⟨h.1, h.2, as, rfl⟩

theorem CursorHeldAt.close {r : Flow} (h : r.At (CursorHeldAt x) (·.curx = x)) : r.close.curx = x := by
  cases h with
  | running h =>
    obtain ⟨s1, e, h1, -⟩ := h.served
    exact (congrArg State.curx (lastAction_of_go e)).trans h1.2
  | ended h => exact h

/-- FILL in a run without a reset, whether or not it times out. -/
theorem exec_fill_keeps (c : Color) (u : BitVec 1) (hn : s.noReset = true) (hf : s.fault = false) :
    ∃ t, exec (.fill c u) s = .next t ∧ sameOperands s t ∧ sameCursor s t := by
  obtain ⟨-, -, -, frame, -⟩ := frameRel.body
  obtain ⟨-, hops, hy, -⟩ := runCommand_frame (i := .fill c u) frame s hn
  refine ⟨_, exec_fill c u s, hops, ?_, hy⟩
  rw [runCommand_of_not_fault hf, fillBody_startWork]
  exact CursorHeldAt.close (CursorHeldAt.raster_stores _ _ ⟨hn, rfl⟩)

end Sys2Proof.Machine
end

/-! SUPPORT. FILL cut short by a TIMEOUT (42_shapes.md rule R99). -/

section
namespace Sys2Proof.Machine

variable {v : Byte} {b : Address} {as : List Address} {before : List (Transaction × Answer)} {x : Transaction}
  {d : Display}

/-- What the stores leave whose transaction `x` times out, after `before`: the bytes written before it, and its own,
possibly, if it is a WR (20_memory.md rule R51). -/
theorem after_cut_byteAt (n : Nat) (b : Address) (hw : d.dram.wf = true)
    (h : before ++ [(x, .ok)] <+: storesTrace v as) :
    (d.after n (before ++ [(x, .timeout)])).byteAt b =
      (if b ∈ as.take (before.length / 2) then v else d.byteAt b) ∨
    as[before.length / 2]? = some b ∧ before.length % 2 = 1 ∧
      (d.after n (before ++ [(x, .timeout)])).byteAt b = v := by
  induction as generalizing d before with
  | nil => exact absurd h (by simp [storesTrace])
  | cons a as ih =>
    change _ <+: (.sel a.side a.page a.column, .ok) :: (.wr a.side v, .ok) :: storesTrace v as at h
    match before with
    | [] =>
      obtain rfl : x = _ := by simpa using h
      exact .inl (Display.byteAt_setChip ..)
    | [p] =>
      obtain ⟨rfl, rfl⟩ : p = _ ∧ x = _ := by simpa using h
      rw [List.length_singleton]
      rcases byteAt_selected_timeOut hw a b v n with h | ⟨rfl, h⟩
      · exact .inl h
      · exact .inr ⟨rfl, rfl, h⟩
    | p :: q :: before =>
      simp only [List.cons_append, List.cons_prefix_cons] at h
      obtain ⟨rfl, rfl, h⟩ := h
      have ih := ih (Display.perform_wf (Display.perform_wf hw (.sel a.side a.page a.column)) (.wr a.side v)) h
      rw [byteAt_selected_write hw] at ih
      have hl : ((.sel a.side a.page a.column, Answer.ok) :: (.wr a.side v, .ok) :: before).length / 2 =
        before.length / 2 + 1 := Nat.add_div_right before.length Nat.two_pos
      rw [hl, List.take_succ_cons, List.getElem?_cons_succ]
      refine ih.imp (fun h => h.trans ?_) fun ⟨hb, hm, hv⟩ => ⟨hb, (Nat.add_mod_right before.length 2).trans hm, hv⟩
      by_cases hb : b ∈ as.take (before.length / 2)
      · rw [if_pos hb, if_pos (List.mem_cons_of_mem _ hb)]
      · simp [hb]

theorem mem_take_fillAddresses (k : Nat) (b : Address) : b ∈ fillAddresses.take k ↔ b.cell < k := by
  rw [fillAddresses_eq, ← List.map_take, List.take_range, List.mem_map]
  constructor
  · rintro ⟨m, hm, rfl⟩
    have hm := List.mem_range.1 hm
    rw [walkAddress_cell (by omega)]
    omega
  · intro hb
    have hlt : b.cell < 1024 := b.cell_lt
    exact ⟨b.cell, List.mem_range.2 (by omega), walkAddress_of_cell b⟩

theorem cell_of_getElem?_fillAddresses {k : Nat} (h : fillAddresses[k]? = some b) : b.cell = k := by
  rw [fillAddresses_eq, List.getElem?_map, Option.map_eq_some_iff] at h
  obtain ⟨m, hm, rfl⟩ := h
  obtain ⟨hk, rfl⟩ := List.getElem?_eq_some_iff.1 hm
  rw [List.getElem_range, walkAddress_cell (by simpa using hk)]

/-- What the walk leaves, byte by byte of its order. -/
theorem after_cut_fill (n : Nat) (a : Address) (hw : d.dram.wf = true)
    (h : before ++ [(x, .ok)] <+: storesTrace v fillAddresses) :
    (a.cell < before.length / 2 → (d.after n (before ++ [(x, .timeout)])).byteAt a = v) ∧
    (before.length / 2 < a.cell → (d.after n (before ++ [(x, .timeout)])).byteAt a = d.byteAt a) ∧
    (a.cell = before.length / 2 → (d.after n (before ++ [(x, .timeout)])).byteAt a = d.byteAt a ∨
      before.length % 2 = 1 ∧ (d.after n (before ++ [(x, .timeout)])).byteAt a = v) := by
  have hb := after_cut_byteAt n a hw h
  simp only [mem_take_fillAddresses] at hb
  refine ⟨fun h => ?_, fun h => ?_, fun h => ?_⟩
  · rw [if_pos h] at hb
    exact hb.elim id fun ⟨_, _, hv⟩ => hv
  · rw [if_neg (by omega)] at hb
    exact hb.resolve_right fun ⟨hc, _⟩ => h.ne' (cell_of_getElem?_fillAddresses hc)
  · rw [if_neg (by omega)] at hb
    exact hb.imp id fun ⟨_, hv⟩ => hv

theorem cell_eq_ite (a : Address) :
    512 * (if a.side = .left then 0 else 1) + 64 * a.page.toNat + a.column.toNat = a.cell := by
  obtain ⟨_ | _, p, k⟩ := a <;> rfl

/-- Settles O50: the transactions are those of the undisturbed FILL up to the one that times out (`exec_timesOut`), and
the display is what they leave (O26). -/
theorem fillTimesOutPrecisely : Obligations.FillTimesOutPrecisely := by
  intro c u s n rest hn hf hw hlt ha
  obtain ⟨t', he', hd, -⟩ := exec_fill_drew c u (s := { s with answers := [] }) ⟨rfl, hn⟩ hf
  have hlen : n < (storesTrace (fillByte c) fillAddresses).length := by
    rw [storesTrace_length, fillAddresses_length]
    exact hlt
  obtain ⟨t, before, x, he, hdone, hfault, hi, rfl, hp⟩ :=
    exec_timesOut hn ha he' hd.issued_stores (fun _ => answer_of_mem_storesTrace) hlen
  obtain ⟨_, heK, hops, hcur⟩ := exec_fill_keeps c u hn hf
  obtain ⟨_, _, heD, hiD, hdisp, -⟩ := displayChangesOnlyByTransactions (.fill c u) s
  cases he.symm.trans heK
  cases he.symm.trans heD
  obtain rfl := issued_unique hi hiD
  refine ⟨t, he, hdone, hfault, hops, hcur, ?_, fun a => ?_⟩
  · rw [hi, List.length_append, List.length_reverse, List.length_append, List.length_singleton]
    omega
  · rw [hdisp, cell_eq_ite, ← fillByte_eq_ite]
    exact after_cut_fill s.draws a hw hp

end Sys2Proof.Machine
end

/-! SUPPORT. CIRCLE (43_circle.md): the iterations of the midpoint recurrence, the machine's loop as a walk along them,
and which points it plots. -/

section
namespace Sys2Proof.Machine

variable {xc yc x y u v : Int} {r n m : Nat}

@[simp] theorem midpointXYD_x (r n : Nat) : (midpointXYD r n).1 = n := by
  induction n with
  | zero => rfl
  | succ n ih => rw [midpointXYD]; split <;> simp [ih]

theorem midpointXYD_y_succ_le (r n : Nat) : (midpointXYD r (n + 1)).2.1 ≤ (midpointXYD r n).2.1 := by
  rw [midpointXYD]
  split
  · exact le_rfl
  · exact Int.sub_le_self _ Int.one_nonneg

theorem midpointXYD_y_antitone (r : Nat) : Antitone fun n => (midpointXYD r n).2.1 :=
  antitone_nat_of_succ_le (midpointXYD_y_succ_le r)

theorem midpointXYD_y_le (r n : Nat) : (midpointXYD r n).2.1 ≤ r := midpointXYD_y_antitone r n.zero_le

/-- The loop plots in its `n`-th iteration: `x ≤ y` (43_circle.md rule R101). -/
def CircleReaches (r n : Nat) : Prop := (n : Int) ≤ (midpointXYD r n).2.1

/-- 43_circle.md rule R104. -/
theorem CircleReaches.le_radius (h : CircleReaches r n) : n ≤ r :=
  Int.ofNat_le.1 (le_trans h (midpointXYD_y_le r n))

/-- `x` rises and `y` does not, so the loop has not ended before an iteration that plots. -/
theorem CircleReaches.mono (h : CircleReaches r n) (hm : m ≤ n) : CircleReaches r m :=
  le_trans (Int.ofNat_le.2 hm) (le_trans h (midpointXYD_y_antitone r hm))

theorem onCircle_iff : onCircle xc yc r u v ↔
    ∃ n, CircleReaches r n ∧ onEight xc yc n (midpointXYD r n).2.1 u v := by
  simp only [onCircle, midpointXYD_x]
  exact exists_congr fun n => and_congr_left fun _ => ⟨fun h => h n le_rfl, fun h _ hm => h.mono hm⟩

theorem mem_plot8 : (u, v) ∈ plot8 xc yc x y ↔ onEight xc yc x y u v := by
  simp only [plot8, onEight, List.mem_cons, Prod.mk.injEq, List.not_mem_nil, or_false]
  omega

/-- The machine's loop with `fuel` iterations left, from the `n`-th iteration of the recurrence on. -/
def circleLoopFrom (xc yc : Int) (r n fuel : Nat) : List (Int × Int) :=
  circleLoop xc yc fuel (midpointXYD r n).1 (midpointXYD r n).2.1 (midpointXYD r n).2.2

theorem circleLoopFrom_zero (xc yc : Int) (r fuel : Nat) :
    circleLoopFrom xc yc r 0 fuel = circleLoop xc yc fuel 0 r (1 - r) := rfl

theorem circleLoopFrom_reached (h : CircleReaches r n) (fuel : Nat) : circleLoopFrom xc yc r n (fuel + 1) =
    plot8 xc yc n (midpointXYD r n).2.1 ++ circleLoopFrom xc yc r (n + 1) fuel := by
  unfold CircleReaches at h
  by_cases hd : (midpointXYD r n).2.2 < 0 <;> simp [circleLoopFrom, circleLoop, midpointXYD, h, hd]

theorem circleLoopFrom_ended (h : ¬CircleReaches r n) (fuel : Nat) : circleLoopFrom xc yc r n fuel = [] := by
  cases fuel with
  | zero => rfl
  | succ fuel => exact if_neg fun hx => h ((midpointXYD_x r n).symm.trans_le hx)

/-- The bound of the machine's loop does not cut it short (43_circle.md rule R104): iteration `r + 1` is past its
end. -/
theorem circleLoopFrom_fuel_add (fuel k : Nat) (h : r < n + fuel) :
    circleLoopFrom xc yc r n (fuel + k) = circleLoopFrom xc yc r n fuel := by
  induction fuel generalizing n with
  | zero =>
    have hn : ¬CircleReaches r n := fun hn => absurd hn.le_radius (Nat.not_le.2 h)
    rw [circleLoopFrom_ended hn, circleLoopFrom_ended hn]
  | succ fuel ih =>
    by_cases hn : CircleReaches r n
    · rw [Nat.add_right_comm, circleLoopFrom_reached hn, circleLoopFrom_reached hn, ih (by omega)]
    · rw [circleLoopFrom_ended hn, circleLoopFrom_ended hn]

theorem mem_circleLoopFrom (fuel : Nat) : (u, v) ∈ circleLoopFrom xc yc r n fuel ↔
    ∃ k, n ≤ k ∧ k < n + fuel ∧ CircleReaches r k ∧ onEight xc yc k (midpointXYD r k).2.1 u v := by
  induction fuel generalizing n with
  | zero => exact ⟨nofun, fun ⟨k, h, h', _⟩ => absurd h (Nat.not_le.2 h')⟩
  | succ fuel ih =>
    by_cases hn : CircleReaches r n
    · rw [circleLoopFrom_reached hn, List.mem_append, mem_plot8, ih]
      constructor
      · rintro (h | ⟨k, hk, hk', h⟩)
        · exact ⟨n, le_rfl, by omega, hn, h⟩
        · exact ⟨k, by omega, by omega, h⟩
      · rintro ⟨k, hk, hk', h⟩
        obtain rfl | hlt := hk.eq_or_lt
        · exact .inl h.2
        · exact .inr ⟨k, hlt, by omega, h⟩
    · rw [circleLoopFrom_ended hn]
      exact ⟨nofun, fun ⟨k, hk, _, h, _⟩ => absurd (h.mono hk) hn⟩

/-- The machine's loop plots the points of the recurrence (43_circle.md rules R101, R102). -/
theorem mem_circlePoints : (u, v) ∈ circlePoints xc yc r ↔ onCircle xc yc r u v := by
  rw [circlePoints, ← circleLoopFrom_zero, mem_circleLoopFrom, onCircle_iff]
  exact exists_congr fun n =>
    ⟨fun ⟨_, _, h⟩ => h, fun h => ⟨n.zero_le, by have := h.1.le_radius; omega, h⟩⟩

end Sys2Proof.Machine
end

/-! SUPPORT. The statements about CIRCLE (43_circle.md rules R101 to R106). -/

section
namespace Sys2Proof.Machine

variable {s : State}

/-- Settles O52: `x` is the number of the iteration, and `y` never rises above the radius. -/
theorem circleLoopEnds : Obligations.CircleLoopEnds := by
  refine fun r => ⟨fun xc yc k => ?_,
    fun n => ⟨midpointXYD_x r n, midpointXYD_y_succ_le r n, midpointXYD_y_le r n⟩, ?_⟩
  · rw [circlePoints, ← circleLoopFrom_zero, ← circleLoopFrom_zero]
    exact circleLoopFrom_fuel_add _ k (by omega)
  · have := midpointXYD_y_le r (r + 1)
    rw [midpointXYD_x]
    omega

/-- Settles O53: each iteration plots a set of points with the eight reflections. -/
theorem circlePointsAreSymmetric : Obligations.CirclePointsAreSymmetric := by
  intro xc yc r dx dy h
  simp only [mem_circlePoints, onCircle_iff] at h ⊢
  obtain ⟨n, hn, h⟩ := h
  unfold onEight at h
  refine ⟨⟨n, hn, ?_⟩, ⟨n, hn, ?_⟩, ⟨n, hn, ?_⟩⟩ <;> (unfold onEight; omega)

/-- Settles O54: at radius 1 the one iteration that plots has `x = 0`, `y = 1`. -/
theorem smallCircles : Obligations.SmallCircles := by
  refine fun xc yc => ⟨by simp [circlePoints, circleLoop, plot8, List.replicate], rfl, rfl, fun h => ?_⟩
  obtain ⟨n, hn, h⟩ := onCircle_iff.1 (mem_circlePoints.1 h)
  match n, hn.le_radius with
  | 0, _ => simp [onEight, midpointXYD] at h
  | 1, _ => exact absurd hn (by unfold CircleReaches; decide)

theorem circleBody_startWork (i : Instr) (s : State) : circleBody (startWork i s) =
    raster (pointTasks (circlePoints s.arg0.toInt s.arg1.toInt s.arg2.toNat)) (startWork i s) := rfl

theorem exec_circle_drew (c : Color) (u : BitVec 1) (hu : s.undisturbed) (hf : s.fault = false) :
    ∃ t, exec (.circle c u) s = .next t ∧ DrewCommand
      (pointTasks (circlePoints s.arg0.toInt s.arg1.toInt s.arg2.toNat)) c s t ∧ busyWrOnlySet s t := by
  obtain ⟨-, -, -, -, hushed, -⟩ := hushed_bodies
  obtain ⟨-, -, -, -, frame, -⟩ := frameRel.body
  obtain ⟨hd, hb⟩ := drew_command (i := .circle c u) hushed frame hu hf (circleBody_startWork ..)
  rw [show Color.ofBit (colorBit (.circle c u)) = c from Color.ofBit_bit c] at hd
  exact ⟨_, exec_circle c u s, hd, hb⟩

/-- Settles O51: the points drawn are those of the recurrence (`mem_circlePoints`). -/
theorem circleDrawsTheMidpointPoints : Obligations.CircleDrawsTheMidpointPoints := by
  intro c u s hu hf hw
  obtain ⟨t, he, hd, hb⟩ := exec_circle_drew c u hu hf
  refine ⟨t, he, hd.completedKeeping hb, hd.sameCursor (drawPoints_curx ..), fun x y ho =>
    ⟨fun h => ?_, fun h => ?_⟩⟩
  · rw [hd.pixel hw ho, if_pos (mem_circlePoints.2 h)]
  · rw [hd.pixel hw ho, if_neg (mem_circlePoints.not.2 h)]

end Sys2Proof.Machine
end

/-! SUPPORT. What no command but INIT and SETCUR does in a run without a reset (45_control.md rule R130), TIMEOUTs
included; and SETCUR (44_text.md rule R113). -/

section
namespace Sys2Proof.Machine

variable {i : Instr} {s : State} {w : Word}

/-- The frame of every command but INIT and SETCUR, whatever happens in it but a reset. -/
theorem exec_frame (hi : ∀ u, i ≠ .init u) (hc : ∀ u, i ≠ .setcur u) (s : State) :
    ∃ t, exec i s = .next t ∧ FrameRel s t := by
  obtain ⟨nop, plot, rect, fill, circle, char8, char3, string⟩ := frameRel.body
  cases i with
  | init u => exact absurd rfl (hi u)
  | setcur u => exact absurd rfl (hc u)
  | nop u => exact ⟨_, exec_nop u s, runCommand_frame nop s⟩
  | plot c u => exact ⟨_, exec_plot c u s, runCommand_frame plot s⟩
  | rect c u => exact ⟨_, exec_rect c u s, runCommand_frame rect s⟩
  | fill c u => exact ⟨_, exec_fill c u s, runCommand_frame fill s⟩
  | circle c u => exact ⟨_, exec_circle c u s, runCommand_frame circle s⟩
  | char8 c u => exact ⟨_, exec_char8 c u s, runCommand_frame char8 s⟩
  | char3 c u => exact ⟨_, exec_char3 c u s, runCommand_frame char3 s⟩
  | string c f => exact ⟨_, exec_string c f s, runCommand_frame string s⟩

/-- Settles O36: CURY and the order of CURX are in the frame (`exec_frame`). -/
theorem cursorNeverMovesBack : Obligations.CursorNeverMovesBack := by
  intro i s hi hc hn
  obtain ⟨t, he, hfr⟩ := exec_frame hi hc s
  obtain ⟨-, -, hy, hx, -⟩ := hfr hn
  exact ⟨t, he, hy, hx⟩

/-- The mask that leaves out bits 5:4 keeps RSVD and OPC. -/
theorem rsvd_opc_of_masked {k : Word} (h : w &&& 0xFFCF#16 = k) :
    w.extractLsb' 6 10 = k.extractLsb' 6 10 ∧ w.extractLsb' 0 4 = k.extractLsb' 0 4 := by
  subst h
  rw [BitVec.extractLsb'_and, BitVec.extractLsb'_and]
  exact ⟨BitVec.and_allOnes.symm, BitVec.and_allOnes.symm⟩

theorem decodeWord_setcur (h : w &&& 0xFFCF#16 = 0x0009#16) : decodeWord w = .ok (.setcur (w.extractLsb' 4 2)) := by
  obtain ⟨hr, ho⟩ := rsvd_opc_of_masked h
  exact decodeWord_eq_ok_iff.2 ⟨hr, (font_of_unused w).symm, (color_of_unused w).symm, ho⟩

/-- SETCUR without a reset: its one action, once the Host has been served. -/
theorem exec_setcur_of_noReset (u : BitVec 2) (hn : s.noReset = true) (hf : s.fault = false) :
    ∃ s1, serve s.host (startWork (.setcur u) s) = .go s1 ∧
      exec (.setcur u) s = .next (finish .ok (setCursor s1)) := by
  obtain ⟨s1, e⟩ := serve_of_noReset (startWork (.setcur u) s) hn
  refine ⟨s1, e, ?_⟩
  rw [exec_setcur, runCommand_of_not_fault hf]
  exact congrArg Host.Outcome.next (lastAction_of_go e)

/-- Settles O41: the word by its fields; SETCUR's one action stores the operands, and the accesses served before it
touch only the Host's list, its reads and BUSYWR. -/
theorem setcurStoresTheCursor : Obligations.SetcurStoresTheCursor := by
  refine ⟨fun w h => ⟨_, decodeWord_setcur h⟩, fun u s hn hf => ?_⟩
  obtain ⟨s1, e, he⟩ := exec_setcur_of_noReset u hn hf
  obtain ⟨hk, -, hset, hkeep⟩ := serve_go e
  refine ⟨_, he, ⟨⟨rfl, rfl, rfl⟩, ?_, ?_, hset, hkeep⟩, ?_⟩ <;> rw [hk]
  · exact sameOperands_refl s
  · rfl
  · exact ⟨rfl, rfl, rfl, rfl, rfl⟩

end Sys2Proof.Machine
end

/-! SUPPORT. The single-glyph commands in runs that neither a TIMEOUT nor a reset disturbs (44_text.md rules R108 to
R111): the columns of an 8×8 glyph, and the dots of a 3×6 glyph as the points of its masks. -/

section
namespace Sys2Proof.Machine

variable {c : Color} {s t : State} {u v : Int}

theorem char8Body_startWork (i : Instr) (s : State) : char8Body (startWork i s) =
    raster (glyphTasks .f8x8 (s.arg0.extractLsb' 0 8)) (startWork i s) := rfl

theorem char3Body_startWork (i : Instr) (s : State) : char3Body (startWork i s) =
    raster (glyphTasks .f3x6 (s.arg0.extractLsb' 0 8)) (startWork i s) := rfl

/-- `drew_command` for a command whose color is `c`. -/
theorem exec_drew {i : Instr} {body : State → Flow} {ts : List Task}
    (he : exec i s = .next (runCommand i body s)) (hc : colorBit i = c.bit) (hb : Hushed body)
    (hf : ∀ s, (body s).Rel FrameRel s) (hu : s.undisturbed) (h0 : s.fault = false)
    (ht : body (startWork i (hush s)) = raster ts (startWork i (hush s))) :
    ∃ t, exec i s = .next t ∧ DrewCommand ts c s t ∧ busyWrOnlySet s t := by
  obtain ⟨hd, hw⟩ := drew_command hb hf hu h0 ht
  rw [hc, Color.ofBit_bit] at hd
  exact ⟨_, he, hd, hw⟩

theorem exec_char8_drew (c : Color) (u : BitVec 1) (hu : s.undisturbed) (hf : s.fault = false) :
    ∃ t, exec (.char8 c u) s = .next t ∧ DrewCommand (glyphTasks .f8x8 (s.arg0.extractLsb' 0 8)) c s t ∧
      busyWrOnlySet s t := by
  obtain ⟨-, -, -, -, -, hushed, -⟩ := hushed_bodies
  obtain ⟨-, -, -, -, -, frame, -⟩ := frameRel.body
  exact exec_drew (exec_char8 c u s) rfl hushed frame hu hf (char8Body_startWork ..)

theorem exec_char3_drew (c : Color) (u : BitVec 1) (hu : s.undisturbed) (hf : s.fault = false) :
    ∃ t, exec (.char3 c u) s = .next t ∧ DrewCommand (glyphTasks .f3x6 (s.arg0.extractLsb' 0 8)) c s t ∧
      busyWrOnlySet s t := by
  obtain ⟨-, -, -, -, -, -, hushed, -⟩ := hushed_bodies
  obtain ⟨-, -, -, -, -, -, frame, -⟩ := frameRel.body
  exact exec_drew (exec_char3 c u s) rfl hushed frame hu hf (char3Body_startWork ..)

theorem exec_glyph_drew (f : Font) (c : Color) (hu : s.undisturbed) (hf : s.fault = false) :
    ∃ t, exec (glyphCommand f c) s = .next t ∧ DrewCommand (glyphTasks f (s.arg0.extractLsb' 0 8)) c s t ∧
      busyWrOnlySet s t := by
  cases f with
  | f8x8 => exact exec_char8_drew c 0 hu hf
  | f3x6 => exact exec_char3_drew c 0 hu hf

/-! ### CHAR8 -/

theorem glyphByte_eq_ite (g : Byte) (c : Color) : glyphByte g c = if c = .foreground then g else ~~~g := by
  cases c <;> rfl

/-- The columns of an 8×8 glyph, the advance left out. -/
def columnTasks (ch : Byte) : List Task := ([0, 1, 2, 3, 4, 5, 6, 7] : List (Fin 8)).map fun i => .column ch i

/-- The advance moves the cursor and draws nothing. -/
theorem drawGlyph8 (c : Color) (cury : Word) (ch : Byte) (k : Canvas) :
    drawTasks c cury (glyphTasks .f8x8 ch) k =
      drawTask c cury (.advance .f8x8) (drawTasks c cury (columnTasks ch) k) := drawTasks_append ..

@[simp] theorem drawTask_advance_dram (c : Color) (cury : Word) (f : Font) (k : Canvas) :
    (drawTask c cury (.advance f) k).dram = k.dram := rfl

@[simp] theorem drawTask_advance_trace (c : Color) (cury : Word) (f : Font) (k : Canvas) :
    (drawTask c cury (.advance f) k).trace = k.trace := rfl

/-- The transactions of an 8×8 glyph drawn with the cursor at `(cx, cy)`, oldest first (44_text.md rule R108). -/
def glyph8Trace (c : Color) (ch : Byte) (cx cy : Nat) : List (Transaction × Answer) :=
  ([0, 1, 2, 3, 4, 5, 6, 7] : List (Fin 8)).flatMap fun (i : Fin 8) =>
    if onScreen (cx + i) cy = true then
      (writeTrace (locate (cx + i) cy) (glyphByte (Config.font8 ch i) c)).reverse
    else []

theorem storesTrace_singleton (v : Byte) (a : Address) : storesTrace v [a] = (writeTrace a v).reverse := rfl

theorem ne_rd_and_ok_of_mem_glyph8Trace {ch : Byte} {cx cy : Nat} {e : Transaction × Answer}
    (h : e ∈ glyph8Trace c ch cx cy) (sd : Side) : e.1 ≠ .rd sd ∧ e.2 = .ok := by
  obtain ⟨i, -, h⟩ := List.mem_flatMap.1 h
  split at h
  · rw [← storesTrace_singleton] at h
    exact ⟨ne_rd_of_mem_storesTrace h sd, answer_of_mem_storesTrace h⟩
  · cases h

theorem DrewCommand.glyph8_issued {ch : Byte} (h : DrewCommand (glyphTasks .f8x8 ch) c s t) :
    issued s t (glyph8Trace c ch s.curx.toNat s.cury.toNat) := by
  refine (congrArg Canvas.trace h.canvas).trans ?_
  rw [drawGlyph8, drawTask_advance_trace]
  exact drawColumns_trace c s.cury ch _ s.canvas

theorem DrewCommand.glyph8_dram {ch : Byte} (h : DrewCommand (glyphTasks .f8x8 ch) c s t) :
    t.disp.dram = (drawTasks c s.cury (columnTasks ch) s.canvas).dram := by
  refine (congrArg Canvas.dram h.canvas).trans ?_
  rw [drawGlyph8, drawTask_advance_dram]

/-- None of its transactions is an RD, so no output latch changes (O26). -/
theorem DrewCommand.glyph8_latch {i : Instr} {ch : Byte} (h : DrewCommand (glyphTasks .f8x8 ch) c s t)
    (he : exec i s = .next t) (sd : Side) : (t.disp.chip sd).latch = (s.disp.chip sd).latch := by
  obtain ⟨_, new, he', hi, -, -, -, hlatch⟩ := displayChangesOnlyByTransactions i s
  cases he.symm.trans he'
  rw [issued_unique hi h.glyph8_issued] at hlatch
  exact hlatch sd fun e hm => (ne_rd_and_ok_of_mem_glyph8Trace hm sd).imp_right fun hok _ => hok

/-- One glyph advances CURX once (44_text.md rule R107). -/
theorem DrewCommand.glyph_curx {f : Font} {ch : Byte} (h : DrewCommand (glyphTasks f ch) c s t) :
    t.curx.toNat = min (s.curx.toNat + glyphStep f) 0xFFFF := by
  have hx : t.curx = sat16 (s.curx.toNat + glyphStep f) := (congrArg Canvas.curx h.canvas).trans (drawGlyph_curx ..)
  rw [hx, sat16_toNat]

/-- Settles O55: the bytes by `drawColumns`, the transactions by `drawColumns_trace`. -/
theorem char8WritesItsColumns : Obligations.Char8WritesItsColumns := by
  intro c u s hu hf hw
  obtain ⟨t, he, hd, hb⟩ := exec_char8_drew c u hu hf
  obtain ⟨-, hcol, hother⟩ := drawColumns c s.cury (s.arg0.extractLsb' 0 8) [0, 1, 2, 3, 4, 5, 6, 7]
    (k := s.canvas) hw
  have hall : ∀ i : Fin 8, i ∈ ([0, 1, 2, 3, 4, 5, 6, 7] : List (Fin 8)) := by decide
  simp only [← glyphByte_eq_ite]
  refine ⟨t, he, hd.completedKeeping hb, hd.cury, ?_, fun i ho => ?_, fun a ha => ?_,
    hd.glyph8_latch he, hd.glyph8_issued⟩
  · rw [hd.glyph_curx, glyphStep, Nat.add_assoc]
  · rw [Display.byteAt, hd.glyph8_dram]
    exact hcol i (hall i) ho
  · rw [Display.byteAt, hd.glyph8_dram]
    exact hother a fun i _ => ha i

/-! ### CHAR3 -/

/-- The dots of a 3×6 glyph, by column and row, in the order they are drawn (44_text.md rule R109). -/
def dotOrder : List (Fin 3 × Fin 6) :=
  ([0, 1, 2] : List (Fin 3)).flatMap fun i => ([0, 1, 2, 3, 4, 5] : List (Fin 6)).map fun j => (i, j)

/-- The points of those dots whose mask bit is 1, for a glyph at `(cx, cy)`. -/
def maskPoints (ch : Byte) (cx cy : Nat) (ps : List (Fin 3 × Fin 6)) : List (Int × Int) :=
  (ps.filter fun p => (Config.font3 ch p.1).getLsbD p.2).map fun p => ((cx : Int) + p.1.val, (cy : Int) + p.2.val)

theorem glyphTasks_f3x6 (ch : Byte) :
    glyphTasks .f3x6 ch = (dotOrder.map fun p => .dot ch p.1 p.2) ++ [.advance .f3x6] := rfl

theorem pointTasks_cons (p : Int × Int) (ps : List (Int × Int)) :
    pointTasks (p :: ps) = .point p.1 p.2 :: pointTasks ps := rfl

theorem drawTask_dot (c : Color) (cury : Word) (ch : Byte) (i : Fin 3) (j : Fin 6) (k : Canvas) :
    drawTask c cury (.dot ch i j) k =
      if (Config.font3 ch i).getLsbD j then drawPoint c (k.curx.toNat + i.val) (cury.toNat + j.val) k else k := rfl

/-- Dots draw the points of their masks: the cursor stays where it is until the advance. -/
theorem drawDots (c : Color) (cury : Word) (ch : Byte) (ps : List (Fin 3 × Fin 6)) (k : Canvas) :
    drawTasks c cury (ps.map fun p => .dot ch p.1 p.2) k =
      drawTasks c cury (pointTasks (maskPoints ch k.curx.toNat cury.toNat ps)) k := by
  induction ps generalizing k with
  | nil => rfl
  | cons p ps ih =>
    rw [List.map_cons, drawTasks_cons, ih, (drawTask_curx c cury ch k).2, drawTask_dot]
    unfold maskPoints
    by_cases hm : (Config.font3 ch p.1).getLsbD p.2 = true
    · rw [if_pos hm, List.filter_cons, if_pos hm, List.map_cons, pointTasks_cons, drawTasks_cons]
      rfl
    · rw [if_neg hm, List.filter_cons, if_neg hm]

theorem mem_dotOrder (p : Fin 3 × Fin 6) : p ∈ dotOrder := by
  revert p; decide

theorem mem_maskPoints {ch : Byte} {cx cy : Nat} : (u, v) ∈ maskPoints ch cx cy dotOrder ↔
    ∃ (i : Fin 3) (j : Fin 6), (Config.font3 ch i).getLsbD j = true ∧ u = cx + i ∧ v = cy + j := by
  simp only [maskPoints, List.mem_map, List.mem_filter, mem_dotOrder, true_and, Prod.exists, Prod.mk.injEq,
    eq_comm (b := u), eq_comm (b := v)]

/-- A 3×6 glyph sets the on-screen points of its masks and no other. -/
theorem DrewCommand.glyph3_pixel {ch : Byte} (h : DrewCommand (glyphTasks .f3x6 ch) c s t)
    (hw : s.disp.dram.wf = true) (ho : onScreen u v = true) :
    t.pixel u v = if (u, v) ∈ maskPoints ch s.curx.toNat s.cury.toNat dotOrder then c else s.pixel u v := by
  have hk := h.canvas
  rw [glyphTasks_f3x6, drawTasks_append, drawDots] at hk
  exact (congrArg (fun k => k.dram.pixel u v) hk).trans (drawPoints_pixel c s.cury _ (k := s.canvas) hw ho)

/-- Settles O56: the dots drawn are the points of the masks (`drawDots`). -/
theorem char3PlotsItsMask : Obligations.Char3PlotsItsMask := by
  intro c u s hu hf hw
  obtain ⟨t, he, hd, hb⟩ := exec_char3_drew c u hu hf
  simp only [← mem_maskPoints]
  refine ⟨t, he, hd.completedKeeping hb, hd.cury, ?_, fun x y ho => ⟨fun h => ?_, fun h => ?_⟩⟩
  · rw [hd.glyph_curx, glyphStep, Nat.add_assoc]
  · rw [hd.glyph3_pixel hw ho, if_pos h]
  · rw [hd.glyph3_pixel hw ho, if_neg h]

end Sys2Proof.Machine
end

/-! SUPPORT. STRING in runs that neither a TIMEOUT nor a reset disturbs (44_text.md rules R107, R112): its glyphs,
and the cursor after them. -/

section
namespace Sys2Proof.Machine

variable {c : Color} {f : Font} {s t : State}

/-- The tasks of the first `n` characters of CHARBUF as glyphs. -/
def stringTasks (f : Font) (s : State) (n : Nat) : List Task := (s.charbuf.toList.take n).flatMap (glyphTasks f)

theorem stringBody_startWork (h : s.arg0.toNat ≤ 64) : stringBody (startWork (.string c f) s) =
    raster (stringTasks f s s.arg0.toNat) (startWork (.string c f) s) := by
  have hlen : stringLen (startWork (.string c f) s) = s.arg0.toNat := rfl
  unfold stringBody
  rw [if_neg (by rw [hlen]; exact not_lt.2 h),
    show (startWork (.string c f) s).work.font = f from Font.ofBit_bit f]
  rfl

theorem exec_string_drew (c : Color) (f : Font) (hu : s.undisturbed) (hf : s.fault = false) (hl : s.arg0.toNat ≤ 64) :
    ∃ t, exec (.string c f) s = .next t ∧ DrewCommand (stringTasks f s s.arg0.toNat) c s t ∧ busyWrOnlySet s t := by
  obtain ⟨-, -, -, -, -, -, -, hushed, -⟩ := hushed_bodies
  obtain ⟨-, -, -, -, -, -, -, frame⟩ := frameRel.body
  exact exec_drew (exec_string c f s) rfl hushed frame hu hf (stringBody_startWork (s := hush s) hl)

/-- One more glyph, of the next character. -/
theorem stringTasks_succ {n : Nat} (f : Font) (s : State) (h : n < 64) :
    stringTasks f s (n + 1) = stringTasks f s n ++ glyphTasks f (s.charAt n) := by
  have hn : s.charbuf.toList[n]? = some (s.charAt n) := by
    rw [State.charAt, dif_pos h, Vector.getElem?_toList, Vector.getElem?_eq_getElem h]
  simp [stringTasks, List.take_add_one, hn]

/-- The cursor after `n` glyphs (44_text.md rule R107). -/
theorem drawString_curx (c : Color) (cury : Word) (f : Font) (s : State) {n : Nat} (h : n ≤ 64) (k : Canvas) :
    (drawTasks c cury (stringTasks f s n) k).curx = curxAfter f n k.curx := by
  induction n with
  | zero => rfl
  | succ n ih =>
    rw [stringTasks_succ f s h, drawTasks_append, drawGlyph_curx, ih (Nat.le_of_succ_le h)]
    rfl

/-- A command that draws nothing changes nothing of the display (O26). -/
theorem DrewCommand.nothing {i : Instr} (h : DrewCommand [] c s t) (he : exec i s = .next t) :
    t.disp = s.disp ∧ t.trace = s.trace := by
  obtain ⟨_, new, he', hi, hd, -⟩ := displayChangesOnlyByTransactions i s
  cases he.symm.trans he'
  have ht : t.trace = s.trace := congrArg Canvas.trace h.canvas
  rw [issued_unique hi (show issued s t [] from ht)] at hd
  exact ⟨hd, ht⟩

theorem DrewCommand.undisturbed {ts : List Task} (h : DrewCommand ts c s t) : t.undisturbed := ⟨h.answers, h.host⟩

/-- A STRING, and a shorter one followed by the single-glyph command for the next character, draw the same. -/
theorem exec_string_then_glyph {n : Nat} (c : Color) (f : Font) (hu : s.undisturbed) (hf : s.fault = false)
    (hn : n < 64) : ∃ t1 t2, exec (.string c f) { s with arg0 := BitVec.ofNat 16 n } = .next t1 ∧
      exec (glyphCommand f c) { t1 with arg0 := (s.charAt n).setWidth 16 } = .next t2 ∧
      t2.canvas = drawTasks c s.cury (stringTasks f s (n + 1)) s.canvas := by
  have hl : (BitVec.ofNat 16 n).toNat = n := by rw [BitVec.toNat_ofNat]; omega
  obtain ⟨t1, he1, hd1, -⟩ := exec_string_drew c f (s := { s with arg0 := BitVec.ofNat 16 n }) hu hf
    (by rw [hl]; omega)
  obtain ⟨t2, he2, hd2, -⟩ := exec_glyph_drew f c (s := { t1 with arg0 := (s.charAt n).setWidth 16 })
    hd1.undisturbed (hd1.fault.trans hf)
  have hch : ((s.charAt n).setWidth 16).extractLsb' 0 8 = s.charAt n := by
    rw [← BitVec.setWidth_eq_extractLsb', BitVec.setWidth_setWidth_of_le, BitVec.setWidth_eq]
    all_goals decide
  have h1 : t1.canvas = drawTasks c s.cury (stringTasks f s n) s.canvas := by
    rw [hd1.canvas, hl]
    rfl
  have h2 := hd2.canvas
  rw [hch] at h2
  refine ⟨t1, t2, he1, he2, ?_⟩
  rw [stringTasks_succ f s hn, drawTasks_append, ← h1, ← hd1.cury]
  exact h2

/-- Settles O57: the tasks of a STRING are those of its glyphs in order (`stringTasks_succ`). -/
theorem stringIsItsGlyphsInOrder : Obligations.StringIsItsGlyphsInOrder := by
  intro c f s hu hf hl
  obtain ⟨t, he, hd, hb⟩ := exec_string_drew c f hu hf hl
  refine ⟨t, he, hd.completedKeeping hb, hd.cury, ?_, fun h0 => ?_, fun n hn => ?_⟩
  · exact (congrArg Canvas.curx hd.canvas).trans (drawString_curx _ _ _ _ hl _)
  · rw [h0] at hd
    exact hd.nothing he
  · obtain ⟨t1, t2, he1, he2, h2⟩ := exec_string_then_glyph c f hu hf (n := n) (by omega)
    rw [← hn, ← hd.canvas] at h2
    refine ⟨t1, t2, he1, he2, congrArg Canvas.curx h2, fun a => ?_⟩
    exact congrArg (fun k => k.dram.read a.cell) h2

end Sys2Proof.Machine
end

/-! SUPPORT. A rasterizer task by task: what the working state holds as still to do (log 10) is read by the loop alone,
so the tasks of `ts ++ us` are those of `ts` and then those of `us`. -/

section
namespace Sys2Proof.Machine

/-- The same flow, with `us` still to do if it runs; at its end a command leaves the working state free. -/
def Flow.withTodo (us : List Task) : Flow → Flow
  | .running s => .running (setTodo us s)
  | .ended s => .ended s

variable {us : List Task} {r r' : Flow} {f : State → Flow}

theorem andThen_withTodo (h : r' = r.withTodo us) (hf : ∀ s, f (setTodo us s) = (f s).withTodo us) :
    r'.andThen f = (r.andThen f).withTodo us := by
  subst h
  cases r with
  | running s => exact hf s
  | ended s => rfl

theorem completed_setTodo (us : List Task) (t : Transaction) (q : SeqState) (s : State) :
    completed t q (setTodo us s) = setTodo us (completed t q s) := by
  unfold completed setTodo
  dsimp only
  split <;> rfl

theorem serve_setTodo (us : List Task) (h : List HostEvent) (s : State) :
    serve h (setTodo us s) = (serve h s).onWork fun k => { k with todo := us } :=
  serve_onWork (fun k => { k with todo := us }) h s

theorem issue_setTodo (us : List Task) (t : Transaction) (q : SeqState) (s : State) :
    issue t q (setTodo us s) = (issue t q s).withTodo us := by
  unfold issue
  rw [setTodo_host, serve_setTodo]
  cases serve s.host s with
  | go s1 =>
    show (if s1.answers.headD .ok = .ok then _ else _) = _
    by_cases ha : s1.answers.headD .ok = .ok
    · simp only [ha, if_true]
      exact congrArg Flow.running (completed_setTodo us t q s1)
    · simp only [ha, if_false]
      rfl
  | reset c s1 => cases c <;> rfl

theorem internalAction_advance_setTodo (us : List Task) (f : Font) (s : State) :
    internalAction (advance f) (setTodo us s) = (internalAction (advance f) s).withTodo us := by
  unfold internalAction
  rw [setTodo_host, serve_setTodo]
  cases serve s.host s <;> rfl

theorem writeByte_setTodo (us : List Task) (a : Address) (v : Byte) (s : State) :
    writeByte a v (setTodo us s) = (writeByte a v s).withTodo us :=
  andThen_withTodo (issue_setTodo ..) fun s => issue_setTodo _ _ _ s

theorem readTrue_setTodo (us : List Task) (a : Address) (s : State) :
    readTrue a (setTodo us s) = (readTrue a s).withTodo us :=
  andThen_withTodo (issue_setTodo ..) fun s => andThen_withTodo (issue_setTodo _ _ _ s) fun s => issue_setTodo _ _ _ s

theorem plotClipped_setTodo (us : List Task) (x y : Int) (s : State) :
    plotClipped x y (setTodo us s) = (plotClipped x y s).withTodo us := by
  unfold plotClipped
  split
  · exact andThen_withTodo (readTrue_setTodo ..) fun s => writeByte_setTodo us _ _ s
  · rfl

/-- A task does not look at what comes after it. -/
theorem runTask_setTodo (us : List Task) (t : Task) (s : State) :
    runTask t (setTodo us s) = (runTask t s).withTodo us := by
  cases t with
  | point x y => exact plotClipped_setTodo us x y s
  | store a v => exact writeByte_setTodo us a v s
  | column ch i =>
    show blitColumn ch i (setTodo us s) = (blitColumn ch i s).withTodo us
    unfold blitColumn storeClipped
    rw [setTodo_curx, setTodo_cury, setTodo_work_color]
    split
    · exact writeByte_setTodo us _ _ s
    · rfl
  | dot ch i j =>
    show blitDot ch i j (setTodo us s) = (blitDot ch i j s).withTodo us
    unfold blitDot
    split
    · exact plotClipped_setTodo us _ _ s
    · rfl
  | advance f => exact internalAction_advance_setTodo us f s

theorem raster_cons (t : Task) (ts : List Task) (s : State) :
    raster (t :: ts) s = (runTask t s).andThen (raster ts) := by
  show (runTask t (setTodo ts s)).andThen (runTasks ts.length) = _
  rw [runTask_setTodo]
  cases runTask t s <;> rfl

theorem Flow.andThen_assoc (r : Flow) (f g : State → Flow) :
    (r.andThen f).andThen g = r.andThen fun s => (f s).andThen g := by
  cases r <;> rfl

theorem raster_append (ts us : List Task) (s : State) : raster (ts ++ us) s = (raster ts s).andThen (raster us) := by
  induction ts generalizing s with
  | nil => rfl
  | cons t ts ih => rw [List.cons_append, raster_cons, raster_cons, Flow.andThen_assoc, funext ih]

end Sys2Proof.Machine
end

/-! SUPPORT. Glyphs in any run without a reset (44_text.md rules R107, R112, 60_exceptions.md rule R134): one that times
out does not move the cursor, and one that does not advances it once. -/

section
namespace Sys2Proof.Machine

/-- A TIMEOUT has ended the command, with the cursor at `x`. -/
def TimedOutAt (x : Word) (s : State) : Prop := s.result = .hwTimeout ∧ s.curx = x

variable {x : Word} {s : State} {f : Font} {t : Task} {c : Color}

theorem CursorHeldAt.issue_at (h : CursorHeldAt x s) (a : Transaction) (q : SeqState) :
    (Machine.issue a q s).At (CursorHeldAt x) (TimedOutAt x) := by
  obtain ⟨s1, e, h1, -⟩ := h.served
  cases hx : s1.answers.headD .ok with
  | ok =>
    rw [issue_of_ok e hx]
    exact .running h1
  | timeout =>
    rw [issue_of_timeout e hx]
    exact .ended ⟨rfl, h1.2⟩

theorem CursorHeldAt.writeByte (h : CursorHeldAt x s) (a : Address) (v : Byte) :
    (writeByte a v s).At (CursorHeldAt x) (TimedOutAt x) :=
  (h.issue_at _ _).andThen (·.issue_at _ _)

theorem CursorHeldAt.plotClipped (h : CursorHeldAt x s) (px py : Int) :
    (plotClipped px py s).At (CursorHeldAt x) (TimedOutAt x) := by
  unfold Machine.plotClipped
  split
  · exact ((h.issue_at _ _).andThen fun h => (h.issue_at _ _).andThen (·.issue_at _ _)).andThen (·.writeByte _ _)
  · exact .running h

/-- Only an advance moves the cursor. -/
theorem CursorHeldAt.runTask (h : CursorHeldAt x s) (ht : ∀ g, t ≠ .advance g) :
    (runTask t s).At (CursorHeldAt x) (TimedOutAt x) := by
  cases t with
  | point px py => exact h.plotClipped px py
  | store a v => exact h.writeByte a v
  | column ch i =>
    show (blitColumn ch i s).At _ _
    unfold blitColumn storeClipped
    split
    · exact h.writeByte _ _
    · exact .running h
  | dot ch i j =>
    show (blitDot ch i j s).At _ _
    unfold blitDot
    split
    · exact h.plotClipped _ _
    · exact .running h
  | advance g => exact absurd rfl (ht g)

theorem CursorHeldAt.raster {ts : List Task} (h : CursorHeldAt x s) (ht : ∀ t ∈ ts, ∀ g, t ≠ .advance g) :
    (raster ts s).At (CursorHeldAt x) (TimedOutAt x) := by
  induction ts generalizing s with
  | nil => exact .running h
  | cons t ts ih =>
    rw [raster_cons]
    exact (h.runTask (ht t List.mem_cons_self)).andThen fun h => ih h fun t hm => ht t (List.mem_cons_of_mem _ hm)

theorem CursorHeldAt.raster_advance (h : CursorHeldAt x s) (f : Font) :
    (Machine.raster [.advance f] s).At (CursorHeldAt (sat16 (x.toNat + glyphStep f))) (TimedOutAt x) := by
  obtain ⟨s1, e, ⟨hn, hx⟩, -⟩ := h.served
  rw [raster_cons, show Machine.runTask (.advance f) s = _ from internalAction_of_go e]
  exact .running ⟨hn, by rw [← hx]; rfl⟩

/-- A glyph's last task is its only advance (44_text.md rules R108, R109). -/
theorem glyphTasks_eq_snoc (f : Font) (ch : Byte) :
    ∃ ts, glyphTasks f ch = ts ++ [.advance f] ∧ ∀ t ∈ ts, ∀ g, t ≠ .advance g := by
  cases f with
  | f8x8 => exact ⟨_, rfl, by simp⟩
  | f3x6 => exact ⟨_, rfl, by simp⟩

/-- A glyph moves the cursor once, if it does not time out. -/
theorem CursorHeldAt.glyph (h : CursorHeldAt x s) (f : Font) (ch : Byte) :
    (Machine.raster (glyphTasks f ch) s).At (CursorHeldAt (sat16 (x.toNat + glyphStep f))) (TimedOutAt x) := by
  obtain ⟨ts, hg, ht⟩ := glyphTasks_eq_snoc f ch
  rw [hg, raster_append]
  exact (h.raster ht).andThen (·.raster_advance f)

theorem CursorHeldAt.finish (h : CursorHeldAt x s) :
    (Flow.running s).close.result = .ok ∧ (Flow.running s).close.curx = x := by
  obtain ⟨s1, e, h1, -⟩ := h.served
  rw [show (Flow.running s).close = _ from lastAction_of_go e]
  exact ⟨rfl, h1.2⟩

theorem exec_glyph_of_not_fault (f : Font) (c : Color) (hf : s.fault = false) : exec (glyphCommand f c) s =
    .next (raster (glyphTasks f (s.arg0.extractLsb' 0 8)) (startWork (glyphCommand f c) s)).close := by
  cases f with
  | f8x8 => exact congrArg Host.Outcome.next (runCommand_of_not_fault hf)
  | f3x6 => exact congrArg Host.Outcome.next (runCommand_of_not_fault hf)

/-- An abort by an operand check, or by FAULT, keeps the cursor. -/
theorem lastAction_abort_keeps (hn : s.noReset = true) (code : Result) :
    (lastAction (abort code) s).result = code ∧ (lastAction (abort code) s).curx = s.curx := by
  obtain ⟨s1, e⟩ := serve_of_noReset s hn
  have hx : s1.curx = s.curx := by rw [(serve_go e).1]
  rw [lastAction_of_go e]
  unfold abort
  split <;> exact ⟨rfl, hx⟩

theorem glyphCommand_ne (f : Font) (c : Color) :
    (∀ u, glyphCommand f c ≠ .init u) ∧ ∀ u, glyphCommand f c ≠ .setcur u := by
  cases f <;> exact ⟨nofun, nofun⟩

/-- Settles O59: CURY is in the frame; CURX stays until the glyph's last task (`CursorHeldAt.glyph`), and FAULT = 1
refuses the command. -/
theorem timedOutGlyphKeepsTheCursor : Obligations.TimedOutGlyphKeepsTheCursor := by
  intro f c s hn
  obtain ⟨hi, hc⟩ := glyphCommand_ne f c
  obtain ⟨t, he, hfr⟩ := exec_frame hi hc s
  obtain ⟨-, -, hy, -⟩ := hfr hn
  refine ⟨t, he, fun hr => ⟨?_, hy⟩⟩
  cases hf : s.fault with
  | true =>
    cases he.symm.trans (exec_of_fault hi hf)
    exact (lastAction_abort_keeps (s := startWork (glyphCommand f c) s) hn .refused).2
  | false =>
    cases he.symm.trans (exec_glyph_of_not_fault f c hf)
    have hg := CursorHeldAt.glyph (s := startWork (glyphCommand f c) s) ⟨hn, rfl⟩ f (s.arg0.extractLsb' 0 8)
    generalize raster _ _ = r at hg hr ⊢
    cases hg with
    | running h => exact absurd (h.finish.1.symm.trans hr) nofun
    | ended h => exact h.2

end Sys2Proof.Machine
end

/-! SUPPORT. STRING in any run without a reset (44_text.md rule R112, 60_exceptions.md rule R134): the glyphs it
completes, the one that times out, and the STRINGs of fewer characters from the same state and answers. -/

section
namespace Sys2Proof.Machine

variable {s σ s2 : State} {f : Font} {c : Color} {n m : Nat}

/-- From `σ` the glyphs of the first `n` characters of `s` complete, and the cursor has advanced by `n`. -/
def GlyphsDone (f : Font) (s σ : State) (n : Nat) : Prop :=
  ∃ s1, raster (stringTasks f s n) σ = .running s1 ∧ CursorHeldAt (curxAfter f n σ.curx) s1

/-- From `σ` the glyph of character `n` of `s` times out, which ends the command in `s2`. -/
def GlyphTimesOut (f : Font) (s σ : State) (n : Nat) (s2 : State) : Prop :=
  raster (stringTasks f s (n + 1)) σ = .ended s2 ∧ TimedOutAt (curxAfter f n σ.curx) s2

/-- The glyphs go one by one until one times out. -/
theorem raster_string (f : Font) (s : State) (hn : σ.noReset = true) (hm : m ≤ 64) : GlyphsDone f s σ m ∨
    ∃ n < m, ∃ s2, GlyphsDone f s σ n ∧ GlyphTimesOut f s σ n s2 ∧ raster (stringTasks f s m) σ = .ended s2 := by
  induction m with
  | zero => exact .inl ⟨_, rfl, hn, rfl⟩
  | succ m ih =>
    have happ : raster (stringTasks f s (m + 1)) σ =
        (raster (stringTasks f s m) σ).andThen (raster (glyphTasks f (s.charAt m))) := by
      rw [stringTasks_succ f s hm, raster_append]
    rcases ih (Nat.le_of_succ_le hm) with ⟨s1, e, h1⟩ | ⟨n, hlt, s2, hdone, hto, e⟩ <;> rw [e] at happ
    · have hg := h1.glyph f (s.charAt m)
      generalize hr : raster (glyphTasks f (s.charAt m)) s1 = r at hg
      replace happ := happ.trans hr
      cases hg with
      | running h => exact .inl ⟨_, happ, h⟩
      | ended h => exact .inr ⟨m, Nat.lt_succ_self m, _, ⟨s1, e, h1⟩, ⟨happ, h⟩, happ⟩
    · exact .inr ⟨n, Nat.lt_succ_of_lt hlt, s2, hdone, hto, happ⟩

theorem exec_string_of_le (c : Color) (f : Font) (hf : s.fault = false) (hl : s.arg0.toNat ≤ 64) :
    exec (.string c f) s =
      .next (raster (stringTasks f s s.arg0.toNat) (startWork (.string c f) s)).close := by
  rw [exec_string, runCommand_of_not_fault hf, stringBody_startWork hl]

theorem exec_string_too_long (c : Color) (f : Font) (hf : s.fault = false) (hl : 64 < s.arg0.toNat) :
    exec (.string c f) s = .next (lastAction (abort .badCommand) (startWork (.string c f) s)) := by
  rw [exec_string, runCommand_of_not_fault hf]
  exact congrArg (fun r => Host.Outcome.next (Flow.close r)) (if_pos hl)

/-- The STRING of the first `m` characters ends as the tasks of those characters do from `s`'s own start: the length
is read nowhere else (`blindSim`). -/
theorem exec_string_first (c : Color) (f : Font) (hf : s.fault = false) (hm : m ≤ 64) :
    ∃ t, exec (.string c f) { s with arg0 := BitVec.ofNat 16 m } = .next t ∧
      BlindEq (raster (stringTasks f s m) (startWork (.string c f) s)).close t := by
  have hl : (BitVec.ofNat 16 m).toNat = m := by rw [BitVec.toNat_ofNat]; omega
  have he := exec_string_of_le c f (s := { s with arg0 := BitVec.ofNat 16 m }) hf (by rw [hl]; exact hm)
  rw [hl] at he
  exact ⟨_, he, blindSim.close (blindSim.raster (s := startWork (.string c f) s) _ rfl)⟩

/-- The STRING of as many characters as complete. -/
theorem GlyphsDone.exec (hd : GlyphsDone f s (startWork (.string c f) s) n) (hf : s.fault = false) (hn : n ≤ 64) :
    ∃ t, exec (.string c f) { s with arg0 := BitVec.ofNat 16 n } = .next t ∧ t.result = .ok ∧
      t.curx = curxAfter f n s.curx := by
  obtain ⟨s1, e, h1⟩ := hd
  obtain ⟨t, he, hb⟩ := exec_string_first c f hf hn
  rw [e] at hb
  obtain ⟨-, -, hr⟩ := hb.disp_trace_result
  exact ⟨t, he, hr.trans h1.finish.1, (congrArg State.curx hb).symm.trans h1.finish.2⟩

/-- The STRING of one character more. -/
theorem GlyphTimesOut.exec (ht : GlyphTimesOut f s (startWork (.string c f) s) n s2) (hf : s.fault = false)
    (hn : n < 64) :
    ∃ t, exec (.string c f) { s with arg0 := BitVec.ofNat 16 (n + 1) } = .next t ∧ t.result = .hwTimeout ∧
      t.curx = s2.curx ∧ t.trace = s2.trace ∧ t.disp = s2.disp := by
  obtain ⟨t, he, hb⟩ := exec_string_first c f hf (Nat.succ_le_of_lt hn)
  rw [ht.1] at hb
  obtain ⟨hd, htr, hr⟩ := hb.disp_trace_result
  exact ⟨t, he, hr.trans ht.2.1, (congrArg State.curx hb).symm, htr, hd⟩

/-- How a STRING ends: aborted by FAULT or by its length, complete, or at the glyph that times out. -/
theorem exec_string_cases (c : Color) (f : Font) (hn : s.noReset = true) : ∃ t, exec (.string c f) s = .next t ∧
    ((t.result = .badCommand ∨ t.result = .refused) ∧ t.curx = s.curx ∨
    t.result = .ok ∧ t.curx = curxAfter f s.arg0.toNat s.curx ∨
    s.fault = false ∧ s.arg0.toNat ≤ 64 ∧ ∃ n < s.arg0.toNat, GlyphsDone f s (startWork (.string c f) s) n ∧
      GlyphTimesOut f s (startWork (.string c f) s) n t) := by
  have habort := fun code => lastAction_abort_keeps (s := startWork (.string c f) s) hn code
  cases hf : s.fault with
  | true =>
    obtain ⟨hr, hx⟩ := habort .refused
    exact ⟨_, exec_of_fault (i := .string c f) nofun hf, .inl ⟨.inr hr, hx⟩⟩
  | false =>
    rcases Nat.lt_or_ge 64 s.arg0.toNat with hl | hl
    · obtain ⟨hr, hx⟩ := habort .badCommand
      exact ⟨_, exec_string_too_long c f hf hl, .inl ⟨.inl hr, hx⟩⟩
    · rw [exec_string_of_le c f hf hl]
      rcases raster_string f s (σ := startWork (.string c f) s) hn hl with ⟨s1, e, h1⟩ | ⟨n, hlt, s2, hd, ht, e⟩
      · exact ⟨_, rfl, .inr (.inl (by rw [e]; exact h1.finish))⟩
      · exact ⟨s2, by rw [e]; rfl, .inr (.inr ⟨rfl, hl, n, hlt, hd, ht⟩)⟩

/-- Settles O58: the glyphs go one by one until one times out (`exec_string_cases`), and the STRINGs of the `n`
characters before it and of `n + 1` go through the same. -/
theorem stringCountsWholeGlyphs : Obligations.StringCountsWholeGlyphs := by
  intro c f s hn
  obtain ⟨t, he, ⟨hr, hx⟩ | ⟨hr, hx⟩ | ⟨hf, hl, n, hlt, hd, ht⟩⟩ := exec_string_cases c f hn
  · refine ⟨t, 0, he, hx, Nat.zero_le _, fun h => ?_, fun _ => rfl, fun h => ?_⟩ <;> simp [h] at hr
  · exact ⟨t, _, he, hx, le_rfl, fun _ => rfl, by simp [hr], by simp [hr]⟩
  · obtain ⟨hr, hx⟩ := ht.2
    obtain ⟨t1, he1, hr1, hx1⟩ := hd.exec hf (by omega)
    obtain ⟨t2, he2, h2⟩ := ht.exec hf (by omega)
    exact ⟨t, n, he, hx, hlt.le, by simp [hr], by simp [hr],
      fun _ => ⟨hlt, t1, t2, he1, hr1, hx1.trans hx.symm, he2, h2⟩⟩

end Sys2Proof.Machine
end

/-! SUPPORT. A write to CMD starts the command (45_control.md rule R121). -/

section
namespace Sys2Proof.Machine

/-- Settles O9: offsets 0 and 1 name CMD, so this is the first register of the host-write map (O15). -/
theorem stepRunsTheDecodedCommand : Obligations.StepRunsTheDecodedCommand := by
  intro s off w rest hh ho
  obtain ⟨hbusy, hidle⟩ := hostWriteMap s off w rest hh
  have hcmd (hb : s.busy = false) := (hidle hb).1 (by omega)
  refine ⟨fun hb i hi => ?_, fun hb e he => ?_, hbusy⟩
  · rw [hcmd hb, hi]
  · rw [hcmd hb, he]

/-- A 16-bit word of the table is decoded as it is. -/
theorem decodeTableWord_toNat (w : Word) : decodeTableWord 16 w.toNat = (decodeWord w).toOption := by
  unfold decodeTableWord
  dsimp only
  rw [Nat.mod_eq_of_lt w.isLt, if_pos w.isLt, BitVec.ofNat_toNat, BitVec.setWidth_eq]

/-- Placing a 16-bit word leaves the Host a write of that word to CMD, with BUSY = 0. -/
theorem withFetchWord_toNat (s : State) (w : Word) :
    s.withFetchWord 16 w.toNat = { s with busy := false, host := .w16 0x00 w :: s.host } := by
  unfold State.withFetchWord
  rw [Nat.mod_eq_of_lt w.isLt, BitVec.ofNat_toNat, BitVec.setWidth_eq]

/-- Settles O10: the placed word is the Host's next write to CMD (O9). -/
theorem placedWordRunsNext : Obligations.PlacedWordRunsNext := by
  intro s w i h
  have hi : decodeWord w = .ok i := by
    rw [decodeTableWord_toNat] at h
    cases hd : decodeWord w with
    | ok j => rw [hd] at h; exact congrArg Except.ok (Option.some.inj h)
    | error e => rw [hd] at h; cases h
  rw [withFetchWord_toNat]
  obtain ⟨hrun, -⟩ := stepRunsTheDecodedCommand { s with busy := false, host := .w16 0x00 w :: s.host } 0x00 w
    s.host rfl (.inl rfl)
  exact ⟨hi, hrun rfl i hi⟩

/-- Settles O12: whatever ends a command leaves BUSY = 0 and SEQ = IDLE (`Ended`). -/
theorem everyCommandCompletes : Obligations.EveryCommandCompletes := exec_ended

end Sys2Proof.Machine
end

/-! SUPPORT. Commands whose only effect is to complete (45_control.md rules R124 to R127): NOP, a refused command, a
rejected word; and INIT. -/

section
namespace Sys2Proof.Machine

variable {i : Instr} {s : State} {w : Word} {code : Result}

/-- The command has completed with `code` and left everything else, but for what the Host's accesses touch. -/
def OnlyCompletes (code : Result) (s t : State) : Prop :=
  completedKeeping code s t ∧ sameCursor s t ∧ t.disp = s.disp ∧ t.trace = s.trace ∧ t.answers = s.answers

/-- Only HW_TIMEOUT sets FAULT (60_exceptions.md rule R134). -/
theorem abort_eq_finish (hc : code ≠ .hwTimeout) : abort code = finish code := by
  funext s
  exact congrArg (finish code) (if_neg hc)

/-- A completion as a command's one action, once the Host has been served. -/
theorem lastAction_finish_onlyCompletes (hn : s.noReset = true) (code : Result) :
    OnlyCompletes code s (lastAction (finish code) s) := by
  obtain ⟨s1, e⟩ := serve_of_noReset s hn
  obtain ⟨hk, -, hset, hkeep⟩ := serve_go e
  rw [lastAction_of_go e]
  refine ⟨⟨⟨rfl, rfl, rfl⟩, ?_, ?_, hset, hkeep⟩, ?_⟩ <;> rw [hk]
  · exact sameOperands_refl s
  · rfl
  · exact ⟨⟨rfl, rfl⟩, rfl, rfl, rfl⟩

theorem lastAction_abort_onlyCompletes (hn : s.noReset = true) (hc : code ≠ .hwTimeout) :
    OnlyCompletes code s (lastAction (abort code) s) :=
  abort_eq_finish hc ▸ lastAction_finish_onlyCompletes hn code

/-- FAULT = 1 refuses every command but INIT (45_control.md rule R127). -/
theorem exec_refused (hi : ∀ u, i ≠ .init u) (hf : s.fault = true) (hn : s.noReset = true) :
    ∃ t, exec i s = .next t ∧ OnlyCompletes .refused s t :=
  ⟨_, exec_of_fault hi hf, lastAction_abort_onlyCompletes (s := startWork i s) hn (by decide)⟩

/-- Settles O28: a refused command has one action, an abort (`exec_refused`). -/
theorem faultRefusesEveryCommandButInit : Obligations.FaultRefusesEveryCommandButInit :=
  fun _ _ hi hf hn => exec_refused hi hf hn

/-- A word outside the opcode map is rejected (45_control.md rule R126). -/
theorem decodeWord_eq_error (hw : w &&& 0xFFC0#16 ≠ 0 ∨ 0xA ≤ (w &&& 0xF#16).toNat) :
    ∃ e, decodeWord w = .error e :=
  (decoderIsTotalAndExact.2 w (by rintro ⟨hr, ho⟩; rcases hw with hw | hw; exacts [hw hr, by omega])).1

/-- Settles O27: a rejected word (`decodeWord_eq_error`) and a STRING that is too long have one action, an abort. -/
theorem badCommandChangesNothingElse : Obligations.BadCommandChangesNothingElse := by
  refine ⟨fun s w rest hh hb hn hw => ?_, fun c f s hn hf hl => ?_⟩
  · obtain ⟨e, he⟩ := decodeWord_eq_error hw
    obtain ⟨-, hreject, -⟩ := stepRunsTheDecodedCommand s 0x00 w rest hh (.inl rfl)
    obtain ⟨hk, hrest⟩ : OnlyCompletes .badCommand (startedAs w rest s) (rejectCommand (startedAs w rest s)) :=
      lastAction_abort_onlyCompletes (s := startedAs w rest s) hn (by decide)
    have ⟨_, ⟨hcmd, _⟩, _⟩ := hk
    exact ⟨_, hreject hb e he, hk, hcmd, hrest⟩
  · exact ⟨_, exec_string_too_long c f hf hl,
      lastAction_abort_onlyCompletes (s := startWork (.string c f) s) hn (by decide)⟩

/-- A word that has the RSVD and OPC fields of `i` under the mask that leaves out bits 5:4, which `i` keeps as they are
(30_encoding.md rule R69). -/
theorem decodeWord_of_masked {k : Word} (h : w &&& 0xFFCF#16 = k) (hr : k.extractLsb' 6 10 = 0)
    (ho : k.extractLsb' 0 4 = opcodeOf i) (hf : fontBit i = (w.extractLsb' 4 2).extractLsb' 1 1)
    (hc : colorBit i = (w.extractLsb' 4 2).extractLsb' 0 1) : decodeWord w = .ok i := by
  obtain ⟨hr', ho'⟩ := rsvd_opc_of_masked h
  exact decodeWord_eq_ok_iff.2
    ⟨hr'.trans hr, (hf.trans (font_of_unused w)).symm, (hc.trans (color_of_unused w)).symm, ho'.trans ho⟩

/-- Settles O39: NOP has one action, its completion, or the abort that refuses it. -/
theorem nopOnlyCompletes : Obligations.NopOnlyCompletes := by
  refine ⟨fun w h => ⟨w.extractLsb' 4 2, decodeWord_of_masked h rfl rfl rfl rfl⟩, fun u s hn => ?_⟩
  cases hf : s.fault with
  | true => exact exec_refused (i := .nop u) nofun hf hn
  | false =>
    exact ⟨_, congrArg Host.Outcome.next (runCommand_of_not_fault hf),
      lastAction_finish_onlyCompletes (s := startWork (.nop u) s) hn .ok⟩

/-- INIT without a reset: its two actions, the Host served before each. -/
theorem exec_init_of_noReset (u : BitVec 2) (hn : s.noReset = true) :
    ∃ s1 s2, serve s.host (startWork (.init u) s) = .go s1 ∧ serve s1.host (acknowledge s1) = .go s2 ∧
      exec (.init u) s = .next (finish .ok (homeCursor s2)) := by
  obtain ⟨s1, e1⟩ := serve_of_noReset (startWork (.init u) s) hn
  obtain ⟨s2, e2⟩ := serve_of_noReset (acknowledge s1) (noReset_serve (s := startWork (.init u) s) e1 hn)
  refine ⟨s1, s2, e1, e2, ?_⟩
  rw [exec_init]
  unfold runAlways initBody
  rw [internalAction_of_go (s := startWork (.init u) s) e1]
  exact congrArg Host.Outcome.next (lastAction_of_go (s := acknowledge s1) e2)

/-- Settles O40: the word by its fields; between the two actions of INIT, and before them, only the Host's accesses
touch anything, and they set BUSYWR by a write alone. -/
theorem initAcknowledgesTheFault : Obligations.InitAcknowledgesTheFault := by
  refine ⟨fun w h => ⟨w.extractLsb' 4 2, decodeWord_of_masked h rfl rfl rfl rfl⟩, fun u s hn => ?_⟩
  obtain ⟨s1, s2, e1, e2, he⟩ := exec_init_of_noReset u hn
  obtain ⟨hk1, hsuf, -⟩ := serve_go e1
  obtain ⟨hk2, -, -, hkeep⟩ := serve_go e2
  refine ⟨_, he, ⟨rfl, rfl, rfl⟩, rfl, rfl, ?_, fun hw => hkeep (notWrite_of_suffix hsuf hw), ?_⟩ <;> rw [hk2]
  · rfl
  · rw [hk1]
    exact ⟨sameOperands_refl s, rfl, rfl, rfl⟩

end Sys2Proof.Machine
end

/-! SUPPORT. How a command goes (45_control.md rule R122): INIT, SETCUR, a completion that draws nothing, or the
rasterizer on the tasks of its rule. -/

section
namespace Sys2Proof.Machine

variable {i : Instr} {s t : State} {x : Word}

/-- The tasks of a command's rule, from the state it starts in; PLOT's one point is clipped like any other, and a
STRING that is too long has none. -/
def tasksOf (i : Instr) (s : State) : List Task :=
  match i with
  | .nop _ => []
  | .init _ => []
  | .plot _ _ => [.point s.arg0.toInt s.arg1.toInt]
  | .rect _ _ => pointTasks (rectPoints s.arg0.toInt s.arg1.toInt s.arg2.toInt s.arg3.toInt)
  | .fill c _ => fillAddresses.map fun a => .store a (fillByte c)
  | .circle _ _ => pointTasks (circlePoints s.arg0.toInt s.arg1.toInt s.arg2.toNat)
  | .char8 _ _ => glyphTasks .f8x8 (s.arg0.extractLsb' 0 8)
  | .char3 _ _ => glyphTasks .f3x6 (s.arg0.extractLsb' 0 8)
  | .string _ f => if s.arg0.toNat ≤ 64 then stringTasks f s s.arg0.toNat else []
  | .setcur _ => []

/-- How the command `i`, started in `s`, has come to its end. -/
inductive Went (i : Instr) (s : State) : State → Prop where
  | init (u : BitVec 2) (hi : i = .init u) : Went i s (initBody (startWork i s)).close
  | setcur (u : BitVec 2) (hi : i = .setcur u) :
      Went i s (lastAction (fun s => finish .ok (setCursor s)) (startWork i s))
  | completed (code : Result) : Went i s (lastAction (finish code) (startWork i s))
  | drew : Went i s (raster (tasksOf i s) (startWork i s)).close

/-- An operand check, or FAULT, that stops the command before it draws. -/
theorem Went.aborted {code : Result} (hc : code ≠ .hwTimeout) :
    Went i s (lastAction (abort code) (startWork i s)) := by
  rw [abort_eq_finish hc]
  exact .completed code

theorem raster_point_startWork {x y : Int} (h : onScreen x y = true) :
    raster [.point x y] (startWork i s) = plotCore x y (startWork i s) := by
  show (plotClipped x y (startWork i s)).andThen .running = _
  unfold plotClipped
  rw [if_pos h]
  cases plotCore x y (startWork i s) <;> rfl

/-- What its rule does decides how a command that is not refused goes. -/
theorem went_of_rule {rule : State → Flow} (hf : s.fault = false) (he : exec i s = .next (runCommand i rule s))
    (h : Went i s (rule (startWork i s)).close) : ∃ t, exec i s = .next t ∧ Went i s t :=
  ⟨_, by rw [he, runCommand_of_not_fault hf], h⟩

theorem exec_went (i : Instr) (s : State) : ∃ t, exec i s = .next t ∧ Went i s t := by
  by_cases hi : ∃ u, i = .init u
  · obtain ⟨u, rfl⟩ := hi
    exact ⟨_, exec_init u s, .init u rfl⟩
  cases hf : s.fault with
  | true => exact ⟨_, exec_of_fault (fun u h => hi ⟨u, h⟩) hf, .aborted (by decide)⟩
  | false =>
    cases i with
    | init u => exact absurd ⟨u, rfl⟩ hi
    | nop u => exact went_of_rule hf (exec_nop u s) (.completed .ok)
    | plot c u =>
      refine went_of_rule hf (exec_plot c u s) ?_
      unfold plotBody
      split
      · next ho => exact raster_point_startWork ho ▸ Went.drew
      · exact .aborted (by decide)
    | rect c u => exact went_of_rule hf (exec_rect c u s) .drew
    | fill c u => exact went_of_rule hf (exec_fill c u s) (fillBody_startWork c u s ▸ .drew)
    | circle c u => exact went_of_rule hf (exec_circle c u s) .drew
    | char8 c u => exact went_of_rule hf (exec_char8 c u s) .drew
    | char3 c u => exact went_of_rule hf (exec_char3 c u s) .drew
    | string c f =>
      rcases Nat.lt_or_ge 64 s.arg0.toNat with hl | hl
      · exact ⟨_, exec_string_too_long c f hf hl, .aborted (by decide)⟩
      · refine ⟨_, exec_string_of_le c f hf hl, ?_⟩
        rw [show stringTasks f s s.arg0.toNat = tasksOf (.string c f) s from (if_pos hl).symm]
        exact .drew
    | setcur u => exact went_of_rule hf (exec_setcur u s) (.setcur u rfl)

end Sys2Proof.Machine
end

/-! SUPPORT. What no command but INIT and SETCUR writes in a run without a reset (45_control.md rule R130): FAULT, but
for a TIMEOUT, and CURX, but for an advance. -/

section
namespace Sys2Proof.Machine

variable {i : Instr} {s t : State} {x : Word} {b : Bool}

/-- FAULT is `b` while the command runs, with no reset to come. -/
def FaultHeldAt (b : Bool) (s : State) : Prop := s.noReset = true ∧ s.fault = b

/-- FAULT was `b` and has been set by HW_TIMEOUT alone. -/
def FaultOnlyByTimeout (b : Bool) (t : State) : Prop := t.fault = (b || decide (t.result = .hwTimeout))

theorem faultOnlyByTimeout_finish {code : Result} (hc : code ≠ .hwTimeout) (h : s.fault = b) :
    FaultOnlyByTimeout b (finish code s) := by
  simp [FaultOnlyByTimeout, h, hc]

theorem faultOnlyByTimeout_abort {code : Result} (hc : code ≠ .hwTimeout) (h : FaultHeldAt b s) :
    FaultOnlyByTimeout b (abort code s) := by
  rw [abort_eq_finish hc]
  exact faultOnlyByTimeout_finish hc h.2

theorem run_faultHeldAt (b : Bool) : Run (FaultHeldAt b) (FaultOnlyByTimeout b) where
  served h e := ⟨noReset_serve e h.1, (serve_go_disp_fault e).2.trans h.2⟩
  cut {s s' c} t h e := by
    obtain ⟨s1, e1⟩ := serve_of_noReset s h.1
    cases e1.symm.trans e
  completed _ _ h := h
  timedOut _ _ := (Bool.or_true b).symm
  finish h := faultOnlyByTimeout_finish (by decide) h.2
  setTodo _ h := h
  advance _ h := h

theorem exec_fault (hi : ∀ u, i ≠ .init u) (hc : ∀ u, i ≠ .setcur u) (hn : s.noReset = true) :
    ∃ t, exec i s = .next t ∧ FaultOnlyByTimeout s.fault t :=
  (run_faultHeldAt s.fault).drawing (faultOnlyByTimeout_abort (by decide)) (faultOnlyByTimeout_abort (by decide))
    i hi hc (fun _ => faultOnlyByTimeout_abort (by decide)) s ⟨hn, rfl⟩

/-- The rasterizer keeps the cursor on tasks without an advance, whether or not one times out. -/
theorem CursorHeldAt.raster_close {ts : List Task} (h : CursorHeldAt x s) (ht : ∀ t ∈ ts, ∀ g, t ≠ .advance g) :
    (Machine.raster ts s).close.curx = x := by
  have hr := h.raster ht
  generalize Machine.raster ts s = r at hr
  cases hr with
  | running h => exact h.finish.2
  | ended h => exact h.2

/-- Only the glyph commands have an advance among their tasks. -/
theorem ne_advance_of_mem_tasksOf (h8 : ∀ c u, i ≠ .char8 c u) (h3 : ∀ c u, i ≠ .char3 c u)
    (hs : ∀ c f, i ≠ .string c f) : ∀ t ∈ tasksOf i s, ∀ g, t ≠ .advance g := by
  rintro _ ht g rfl
  cases i with
  | char8 c u => exact h8 c u rfl
  | char3 c u => exact h3 c u rfl
  | string c f => exact hs c f rfl
  | rect | circle => exact advance_not_mem_pointTasks _ g ht
  | nop | init | setcur | plot | fill => simp [tasksOf] at ht

theorem exec_curx (hi : ∀ u, i ≠ .init u) (hc : ∀ u, i ≠ .setcur u) (hn : s.noReset = true)
    (h8 : ∀ c u, i ≠ .char8 c u) (h3 : ∀ c u, i ≠ .char3 c u) (hs : ∀ c f, i ≠ .string c f) :
    ∃ t, exec i s = .next t ∧ t.curx = s.curx := by
  obtain ⟨t, he, hw⟩ := exec_went i s
  refine ⟨t, he, ?_⟩
  cases hw with
  | init u h => exact absurd h (hi u)
  | setcur u h => exact absurd h (hc u)
  | completed code =>
    obtain ⟨-, ⟨hx, -⟩, -⟩ := lastAction_finish_onlyCompletes (s := startWork i s) hn code
    exact hx
  | drew =>
    exact CursorHeldAt.raster_close (s := startWork i s) ⟨hn, rfl⟩ (ne_advance_of_mem_tasksOf h8 h3 hs)

/-- Settles O34: the operands, CURY and BUSYWR are in the frame (`exec_frame`); FAULT by `exec_fault`, CURX by
`exec_curx`. -/
theorem commandFrame : Obligations.CommandFrame := by
  intro i s hi hc hn
  obtain ⟨t, he, hfr⟩ := exec_frame hi hc s
  obtain ⟨t', he', hfault⟩ := exec_fault hi hc hn
  cases he.symm.trans he'
  obtain ⟨-, hops, hy, -, hset, hkeep, -⟩ := hfr hn
  refine ⟨t, he, hops, hy, ⟨hset, hkeep⟩, hfault, fun h8 h3 hs => ?_⟩
  obtain ⟨t', he', hx⟩ := exec_curx hi hc hn h8 h3 hs
  cases he.symm.trans he'
  exact hx

end Sys2Proof.Machine
end

/-! SUPPORT. What one engine action does to the display and the trace, whatever happens in it. -/

section
namespace Sys2Proof.Machine

variable {i : Instr} {s t : State} {P P' Q Q' : State → Prop}

/-- From `s` to `t` nothing has been issued, and the display is as it was. -/
def Silent (s t : State) : Prop := t.disp = s.disp ∧ t.trace = s.trace

theorem silent_of_go {s1 : State} (e : serve s.host s = .go s1) : Silent s s1 := by
  rw [(serve_go e).1]
  exact ⟨rfl, rfl⟩

theorem silent_of_reset {s1 : State} {c : Bool} (e : serve s.host s = .reset c s1) : Silent s s1 := by
  rw [(serve_reset e).1]
  exact ⟨rfl, rfl⟩

theorem Flow.At.state {r : Flow} (h : r.At P P) : P r.state := by
  cases h <;> assumption

theorem Flow.At.imp {r : Flow} (h : r.At P Q) (hp : ∀ {s}, P s → P' s) (hq : ∀ {s}, Q s → Q' s) :
    r.At P' Q' := by
  cases h with
  | running h => exact .running (hp h)
  | ended h => exact .ended (hq h)

theorem internalAction_silent {f : State → State} (hf : ∀ s, Silent s (f s)) (s : State) :
    (internalAction f s).At (Silent s) (Silent s) := by
  rcases internalAction_cases f s with ⟨s1, e, h⟩ | ⟨c, s1, e, h⟩ <;> rw [h]
  · obtain ⟨hd, ht⟩ := silent_of_go e
    exact .running ⟨(hf s1).1.trans hd, (hf s1).2.trans ht⟩
  · obtain ⟨hd, ht⟩ := silent_of_reset e
    exact .ended ⟨hd, ht⟩

theorem lastAction_silent {f : State → State} (hf : ∀ s, Silent s (f s)) (s : State) :
    Silent s (lastAction f s) := (internalAction_silent hf s).state

theorem Silent.trans {s1 : State} (h : Silent s s1) (h' : Silent s1 t) : Silent s t :=
  ⟨h'.1.trans h.1, h'.2.trans h.2⟩

/-- INIT issues no transaction (45_control.md rule R125), whatever happens in it. -/
theorem initBody_close_silent (s : State) : Silent s (initBody s).close := by
  have h := internalAction_silent (f := acknowledge) (fun _ => ⟨rfl, rfl⟩) s
  unfold initBody
  generalize internalAction acknowledge s = r at h
  cases h with
  | running h => exact h.trans (lastAction_silent (f := fun s => finish .ok (homeCursor s)) (fun _ => ⟨rfl, rfl⟩) _)
  | ended h => exact h

/-- Whatever happens, a command issues nothing, or what its tasks issue and nothing with its completion. -/
theorem Went.silent_or_drew (h : Went i s t) :
    Silent s t ∨ t = (raster (tasksOf i s) (startWork i s)).close := by
  cases h with
  | init u hi => exact .inl (initBody_close_silent (startWork i s))
  | setcur u hi =>
    exact .inl (lastAction_silent (f := fun s => finish .ok (setCursor s)) (fun _ => ⟨rfl, rfl⟩) (startWork i s))
  | completed code => exact .inl (lastAction_silent (f := finish code) (fun _ => ⟨rfl, rfl⟩) (startWork i s))
  | drew => exact .inr rfl

/-- The completion keeps what does not look beyond the display and the trace. -/
theorem Flow.At.close_of_silent {r : Flow} (h : r.At P Q) (hq : ∀ {s t}, P s → Silent s t → Q t) :
    Q r.close := by
  cases h with
  | running h => exact hq h (lastAction_silent (f := finish .ok) (fun _ => ⟨rfl, rfl⟩) _)
  | ended h => exact h

/-- The transaction `x` has completed, and the cursor is where it was. -/
def Performed (x : Transaction) (s t : State) : Prop :=
  t.disp = s.disp.perform x ∧ t.trace = (x, .ok) :: s.trace ∧ t.curx = s.curx ∧ t.cury = s.cury

/-- The transaction `x` has timed out, or been cut short. -/
def FailedTo (x : Transaction) (s t : State) : Prop :=
  (∃ n, t.disp = s.disp.timeOut x n) ∧ t.trace = (x, .timeout) :: s.trace

/-- What issuing a transaction does to the display and the trace, a reset before it included. -/
theorem issue_display (x : Transaction) (q : SeqState) (s : State) :
    (issue x q s).At (Performed x s) fun t => Silent s t ∨ FailedTo x s t := by
  rcases issue_cases x q s with ⟨s1, e, -, h⟩ | ⟨s1, e, -, h⟩ | ⟨c, s1, e, h⟩ <;> rw [h]
  · rw [(serve_go e).1]
    exact .running ⟨rfl, rfl, rfl, rfl⟩
  · rw [(serve_go e).1]
    exact .ended (.inr ⟨⟨_, rfl⟩, rfl⟩)
  · rw [(serve_reset e).1]
    cases c
    · exact .ended (.inl ⟨rfl, rfl⟩)
    · exact .ended (.inr ⟨⟨_, rfl⟩, rfl⟩)

end Sys2Proof.Machine
end

/-! SUPPORT. How many transactions a command issues at most (45_control.md rule R129, 70_reset_and_hazards.md rule
R157): a task has a cost, and a command that of its tasks. -/

section
namespace Sys2Proof.Machine

variable {i : Instr} {s : State} {b n : Nat}

/-- The most transactions that a task issues. -/
def Task.cost : Task → Nat
  | .point x y => if onScreen x y = true then 5 else 0
  | .store _ _ => 2
  | .column _ _ => 2
  | .dot _ _ _ => 5
  | .advance _ => 0

/-- The most transactions that a list of tasks issues. -/
def tasksCost (ts : List Task) : Nat := (ts.map Task.cost).sum

theorem tasksCost_cons (t : Task) (ts : List Task) : tasksCost (t :: ts) = t.cost + tasksCost ts := by
  simp [tasksCost]

theorem tasksCost_append (ts us : List Task) : tasksCost (ts ++ us) = tasksCost ts + tasksCost us := by
  simp [tasksCost]

/-- With `n` more transactions the trace is no longer than `b`. -/
def Budget (b n : Nat) (s : State) : Prop := s.trace.length + n ≤ b

theorem Budget.mono {m : Nat} (h : Budget b n s) (hm : m ≤ n) : Budget b m s :=
  le_trans (Nat.add_le_add_left hm _) h

theorem Budget.silent {t : State} (h : Budget b n s) (ht : Silent s t) : Budget b n t := by
  unfold Budget
  rw [ht.2]
  exact h

/-- One transaction, whether it completes, times out, is cut short or is not issued. -/
theorem Budget.issue (h : Budget b (n + 1) s) (x : Transaction) (q : SeqState) :
    (issue x q s).At (Budget b n) (Budget b 0) := by
  unfold Budget at h
  refine (issue_display x q s).imp (fun {t} ht => ?_) fun {t} ht => ?_ <;> unfold Budget
  · rw [ht.2.1, List.length_cons]
    omega
  · rcases ht with ht | ht <;> rw [ht.2]
    · omega
    · rw [List.length_cons]
      omega

theorem Budget.writeByte (h : Budget b (n + 2) s) (a : Address) (v : Byte) :
    (writeByte a v s).At (Budget b n) (Budget b 0) :=
  (Budget.issue (n := n + 1) h _ _).andThen (·.issue _ _)

theorem Budget.plotCore (h : Budget b (n + 5) s) (x y : Int) : (plotCore x y s).At (Budget b n) (Budget b 0) :=
  Flow.At.andThen ((Budget.issue (n := n + 4) h _ _).andThen fun h =>
    (Budget.issue (n := n + 3) h _ _).andThen fun h => Budget.issue (n := n + 2) h _ _) (·.writeByte _ _)

theorem Budget.runTask {t : Task} (h : Budget b (n + t.cost) s) : (runTask t s).At (Budget b n) (Budget b 0) := by
  have hn : (Flow.running s).At (Budget b n) (Budget b 0) := .running (h.mono (Nat.le_add_right n _))
  cases t with
  | point x y =>
    show (plotClipped x y s).At _ _
    unfold plotClipped
    split
    · next ho => exact Budget.plotCore (by rwa [Task.cost, if_pos ho] at h) x y
    · exact hn
  | store a v => exact Budget.writeByte h a v
  | column ch i =>
    show (blitColumn ch i s).At _ _
    unfold blitColumn storeClipped
    split
    · exact Budget.writeByte h _ _
    · exact hn
  | dot ch i j =>
    show (blitDot ch i j s).At _ _
    unfold blitDot plotClipped
    split
    · split
      · exact Budget.plotCore h _ _
      · exact hn
    · exact hn
  | advance f =>
    exact (internalAction_silent (f := Machine.advance f) (fun _ => ⟨rfl, rfl⟩) s).imp
      h.silent fun ht => (h.mono (Nat.zero_le _)).silent ht

/-- The rasterizer stays within the cost of its tasks. -/
theorem Budget.raster {ts : List Task} (h : Budget b (n + tasksCost ts) s) :
    (raster ts s).At (Budget b n) (Budget b 0) := by
  induction ts generalizing s with
  | nil => exact .running h
  | cons t ts ih =>
    rw [raster_cons]
    rw [tasksCost_cons, Nat.add_comm t.cost, ← Nat.add_assoc] at h
    exact h.runTask.andThen ih

/-- A command issues at most the cost of its tasks, in any run. -/
theorem exec_cost (i : Instr) (s : State) :
    ∃ t new, exec i s = .next t ∧ issued s t new ∧ new.length ≤ tasksCost (tasksOf i s) := by
  obtain ⟨t, he, hw⟩ := exec_went i s
  obtain ⟨_, he', new, hi, -⟩ := exec_showsItsTrace i s
  cases he.symm.trans he'
  refine ⟨t, new, he, hi, ?_⟩
  have hb : Budget (s.trace.length + tasksCost (tasksOf i s)) 0 t := by
    rcases hw.silent_or_drew with h | h
    · exact Budget.silent (Nat.le_add_right _ _) h
    · have hr : Budget (s.trace.length + tasksCost (tasksOf i s)) (0 + tasksCost (tasksOf i s)) (startWork i s) :=
        Nat.le_of_eq (by simp)
      exact h ▸ hr.raster.close_of_silent fun hs ht => hs.silent ht
  unfold Budget at hb
  rw [hi, List.length_append, List.length_reverse] at hb
  omega

/-! ### The cost of each command's tasks -/

theorem tasksCost_points (ps : List (Int × Int)) :
    tasksCost (pointTasks ps) = 5 * ps.countP fun p => onScreen p.1 p.2 := by
  induction ps with
  | nil => rfl
  | cons p ps ih =>
    rw [pointTasks_cons, tasksCost_cons, ih, List.countP_cons, Nat.mul_add, Nat.add_comm, Task.cost]
    split <;> rfl

theorem intRange_nodup (a b : Int) : (intRange a b).Nodup :=
  List.Nodup.map (fun m n h => by simpa using h) List.nodup_range

/-- Of a range of integers at most `k` are from 0 to `k - 1`. -/
theorem countP_intRange_le (a b : Int) (k : Nat) {p : Int → Bool} (hp : ∀ x, p x = true → 0 ≤ x ∧ x < k) :
    (intRange a b).countP p ≤ k := by
  rw [List.countP_eq_length_filter, ← List.toFinset_card_of_nodup ((intRange_nodup a b).filter p)]
  calc
    _ ≤ (Finset.Ico (0 : Int) k).card := Finset.card_le_card fun x hx => by
      simp only [List.mem_toFinset, List.mem_filter] at hx
      exact Finset.mem_Ico.2 (hp x hx.2)
    _ = k := by simp

/-- Two rows of 128 and two columns of 64 on the screen (42_shapes.md rule R95). -/
theorem countP_rectPoints_le (xs ys xe ye : Int) :
    (rectPoints xs ys xe ye).countP (fun p => onScreen p.1 p.2) ≤ 384 := by
  have hrow (y a b : Int) :
      (intRange a b).countP ((fun p : Int × Int => onScreen p.1 p.2) ∘ fun x => (x, y)) ≤ 128 :=
    countP_intRange_le a b 128 fun x hx => by have := (onScreen_iff x y).1 hx; omega
  have hcol (x a b : Int) :
      (intRange a b).countP ((fun p : Int × Int => onScreen p.1 p.2) ∘ fun y => (x, y)) ≤ 64 :=
    countP_intRange_le a b 64 fun y hy => by have := (onScreen_iff x y).1 hy; omega
  simp only [rectPoints, List.countP_append, List.countP_map]
  have h1 := hrow (min ys ye) (min xs xe) (max xs xe)
  have h2 := hrow (max ys ye) (min xs xe) (max xs xe)
  have h3 := hcol (min xs xe) (min ys ye) (max ys ye)
  have h4 := hcol (max xs xe) (min ys ye) (max ys ye)
  omega

/-- Eight points an iteration (43_circle.md rule R102). -/
theorem circleLoopFrom_length_le (xc yc : Int) (r n fuel : Nat) :
    (circleLoopFrom xc yc r n fuel).length ≤ 8 * fuel := by
  induction fuel generalizing n with
  | zero => exact le_rfl
  | succ fuel ih =>
    by_cases h : CircleReaches r n
    · rw [circleLoopFrom_reached h, List.length_append, Nat.mul_succ, Nat.add_comm]
      exact Nat.add_le_add_right (ih (n + 1)) 8
    · rw [circleLoopFrom_ended h]
      exact Nat.zero_le _

/-- At most `r + 1` iterations (43_circle.md rule R104). -/
theorem circlePoints_length_le (xc yc : Int) (r : Nat) : (circlePoints xc yc r).length ≤ 8 * (r + 1) := by
  rw [circlePoints, ← circleLoopFrom_zero]
  exact circleLoopFrom_length_le ..

/-- The cost of one glyph: a store a column, a plot a dot. -/
def glyphCost : Font → Nat
  | .f8x8 => 16
  | .f3x6 => 90

theorem tasksCost_glyph (f : Font) (ch : Byte) : tasksCost (glyphTasks f ch) = glyphCost f := by
  cases f <;> simp [tasksCost, glyphTasks, Task.cost, glyphCost]

theorem tasksCost_glyphs (f : Font) (cs : List Byte) :
    tasksCost (cs.flatMap (glyphTasks f)) = glyphCost f * cs.length := by
  induction cs with
  | nil => rfl
  | cons ch cs ih =>
    rw [List.flatMap_cons, tasksCost_append, tasksCost_glyph, ih, List.length_cons, Nat.mul_succ, Nat.add_comm]

theorem tasksCost_string_le (f : Font) (s : State) (n : Nat) : tasksCost (stringTasks f s n) ≤ glyphCost f * n := by
  rw [stringTasks, tasksCost_glyphs]
  exact Nat.mul_le_mul_left _ (List.length_take_le _ _)

theorem tasksCost_stores (v : Byte) (as : List Address) : tasksCost (as.map (.store · v)) = 2 * as.length := by
  simp [tasksCost, Function.comp_def, Task.cost, Nat.mul_comm]

/-- Settles O60: a command issues at most the cost of its tasks (`exec_cost`), of which a point off the screen costs
nothing. -/
theorem transactionBounds : Obligations.TransactionBounds := by
  intro i s
  obtain ⟨t, new, he, hi, hle⟩ := exec_cost i s
  refine ⟨t, new, he, hi, hle.trans ?_⟩
  cases i with
  | nop | init | setcur => exact le_rfl
  | plot c u =>
    show (if _ then 5 else 0) + 0 ≤ 5
    split <;> decide
  | rect c u =>
    show tasksCost (pointTasks _) ≤ 1920
    rw [tasksCost_points]
    exact Nat.mul_le_mul_left 5 (countP_rectPoints_le ..)
  | fill c u =>
    show tasksCost (fillAddresses.map (.store · (fillByte c))) ≤ 2048
    rw [tasksCost_stores, fillAddresses_length]
  | circle c u =>
    show tasksCost (pointTasks _) ≤ 40 * (s.arg2.toNat + 1)
    rw [tasksCost_points, show 40 = 5 * 8 from rfl, Nat.mul_assoc]
    exact Nat.mul_le_mul_left 5 (List.countP_le_length.trans (circlePoints_length_le ..))
  | char8 c u =>
    show tasksCost (glyphTasks .f8x8 _) ≤ 16
    rw [tasksCost_glyph]
    exact le_rfl
  | char3 c u =>
    show tasksCost (glyphTasks .f3x6 _) ≤ 90
    rw [tasksCost_glyph]
    exact le_rfl
  | string c f =>
    have h : tasksCost (tasksOf (.string c f) s) ≤ glyphCost f * s.arg0.toNat := by
      unfold tasksOf
      dsimp only
      split
      · exact tasksCost_string_le f s _
      · exact Nat.zero_le _
    cases f <;> exact h

end Sys2Proof.Machine
end

/-! SUPPORT. Which bytes of display memory a command's transactions reach (45_control.md rule R130): those its tasks
write, the cursor where the advances before them have moved it. -/

section
namespace Sys2Proof.Machine

variable {W : Address → Prop} {d0 d : Display} {s : State} {x y : Word} {a : Address} {q : SeqState}

/-- The display differs from `d0` only in the bytes of `W`, and in the controllers of the sides that have some. -/
def ChangedOnly (W : Address → Prop) (d0 d : Display) : Prop :=
  (∀ a, ¬W a → d.byteAt a = d0.byteAt a) ∧ ∀ sd, (∀ a, W a → a.side ≠ sd) → d.chip sd = d0.chip sd

theorem ChangedOnly.refl (W : Address → Prop) (d : Display) : ChangedOnly W d d :=
  ⟨fun _ _ => rfl, fun _ _ => rfl⟩

theorem ChangedOnly.trans {d1 : Display} (h : ChangedOnly W d0 d) (h' : ChangedOnly W d d1) : ChangedOnly W d0 d1 :=
  ⟨fun a ha => (h'.1 a ha).trans (h.1 a ha), fun sd hs => (h'.2 sd hs).trans (h.2 sd hs)⟩

/-- A transaction on the side of a byte of `W`; if it is a WR, the cursor of that side points at a byte of `W`. -/
def Reaches (W : Address → Prop) (t : Transaction) (d : Display) : Prop :=
  (∃ a, W a ∧ a.side = sideOf t) ∧ ((∃ s v, t = .wr s v) → W (d.pointer (sideOf t)))

/-- Any other transaction than a WR leaves display memory alone, and a WR the bytes its cursor does not point at. -/
theorem Reaches.changedOnly {t : Transaction} (h : Reaches W t d) (n : Nat) :
    ChangedOnly W d (d.perform t) ∧ ChangedOnly W d (d.timeOut t n) := by
  obtain ⟨⟨a, ha, hs⟩, hw⟩ := h
  have hside {sd : Side} (h : ∀ a, W a → a.side ≠ sd) : sd ≠ sideOf t := fun e => h a ha (hs.trans e.symm)
  by_cases hwr : ∃ s v, t = .wr s v
  · have hp {b : Address} (hb : ¬W b) : b ≠ d.pointer (sideOf t) := fun e => hb (e ▸ hw hwr)
    exact ⟨⟨fun b hb => perform_byteAt_other (hp hb), fun sd h => perform_chip_other (hside h)⟩,
      fun b hb => timeOut_byteAt_other (hp hb), fun sd h => timeOut_chip_other (hside h)⟩
  · have hwr : ∀ s v, t ≠ .wr s v := fun s v e => hwr ⟨s, v, e⟩
    exact ⟨⟨fun b _ => congrArg (·.read b.cell) (perform_dram hwr), fun sd h => perform_chip_other (hside h)⟩,
      fun b _ => congrArg (·.read b.cell) (timeOut_dram hwr), fun sd h => timeOut_chip_other (hside h)⟩

/-- The command runs with the cursor at `(x, y)`, and has changed only the bytes of `W` since `d0`. -/
def DrawingIn (W : Address → Prop) (d0 : Display) (x y : Word) (s : State) : Prop :=
  ChangedOnly W d0 s.disp ∧ s.curx = x ∧ s.cury = y

/-- A flow that draws in `W`, or has ended after doing so. -/
abbrev Flow.DrawsIn (W : Address → Prop) (d0 : Display) (x y : Word) (r : Flow) : Prop :=
  r.At (DrawingIn W d0 x y) fun s => ChangedOnly W d0 s.disp

theorem DrawingIn.issue_performed (h : DrawingIn W d0 x y s) {t : Transaction} (q : SeqState)
    (ht : Reaches W t s.disp) :
    (issue t q s).At (fun s' => DrawingIn W d0 x y s' ∧ s'.disp = s.disp.perform t)
      fun s' => ChangedOnly W d0 s'.disp := by
  obtain ⟨hd, hx, hy⟩ := h
  refine (issue_display t q s).imp (fun {s'} hp => ?_) fun {s'} hf => ?_
  · obtain ⟨hdisp, -, hx', hy'⟩ := hp
    exact ⟨⟨hdisp ▸ hd.trans (ht.changedOnly 0).1, hx'.trans hx, hy'.trans hy⟩, hdisp⟩
  · rcases hf with ⟨hdisp, -⟩ | ⟨⟨n, hdisp⟩, -⟩
    · exact hdisp ▸ hd
    · exact hdisp ▸ hd.trans (ht.changedOnly n).2

theorem reaches_sel (ha : W a) (d : Display) : Reaches W (.sel a.side a.page a.column) d :=
  ⟨⟨a, ha, rfl⟩, nofun⟩

theorem reaches_rd (ha : W a) (d : Display) : Reaches W (.rd a.side) d := ⟨⟨a, ha, rfl⟩, nofun⟩

theorem DrawingIn.writeByte (h : DrawingIn W d0 x y s) (ha : W a) (v : Byte) :
    (writeByte a v s).DrawsIn W d0 x y :=
  (h.issue_performed .addrW (reaches_sel ha _)).andThen fun {s} ⟨h, hd⟩ =>
    (h.issue_performed .idle ⟨⟨a, ha, rfl⟩, fun _ => by
      show W (s.disp.pointer a.side)
      rw [hd, pointer_perform_sel]
      exact ha⟩).mono fun h => h.1

theorem DrawingIn.readTrue (h : DrawingIn W d0 x y s) (ha : W a) : (readTrue a s).DrawsIn W d0 x y :=
  (h.issue_performed .addrR (reaches_sel ha _)).andThen fun h =>
    (h.1.issue_performed .readPending (reaches_rd ha _)).andThen fun h =>
      (h.1.issue_performed .haveByte (reaches_rd ha _)).mono fun h => h.1

theorem DrawingIn.plotClipped {u v : Int} (h : DrawingIn W d0 x y s) (hw : ∀ a, isByteOf a u v → W a) :
    (plotClipped u v s).DrawsIn W d0 x y := by
  unfold Machine.plotClipped
  split
  · next ho => exact (h.readTrue (hw _ ⟨ho, rfl⟩)).andThen fun h => h.writeByte (hw _ ⟨ho, rfl⟩) _
  · exact .running h

/-- The bytes a task may write with the cursor at `(x, y)`. -/
def Task.writes (x y : Word) (a : Address) : Task → Prop
  | .point u v => isByteOf a u v
  | .store b _ => a = b
  | .column _ i => isByteOf a (x.toNat + i.val) y.toNat
  | .dot ch i j => (Config.font3 ch i).getLsbD j = true ∧ isByteOf a (x.toNat + i.val) (y.toNat + j.val)
  | .advance _ => False

/-- CURX after a task that began with `x` there. -/
def Task.curxAfter (x : Word) : Task → Word
  | .point _ _ => x
  | .store _ _ => x
  | .column _ _ => x
  | .dot _ _ _ => x
  | .advance f => sat16 (x.toNat + glyphStep f)

theorem Task.curxAfter_of_ne_advance {t : Task} (ht : ∀ g, t ≠ .advance g) (x : Word) : t.curxAfter x = x := by
  cases t with
  | advance f => exact absurd rfl (ht f)
  | point | store | column | dot => rfl

/-- The bytes a list of tasks may write, begun with the cursor at `(x, y)`. -/
def tasksWrite (y : Word) (a : Address) : List Task → Word → Prop
  | [], _ => False
  | t :: ts, x => t.writes x y a ∨ tasksWrite y a ts (t.curxAfter x)

/-- CURX after a list of tasks that began with `x` there. -/
def curxAfterTasks (ts : List Task) (x : Word) : Word := ts.foldl (fun x t => t.curxAfter x) x

theorem DrawingIn.runTask {t : Task} (h : DrawingIn W d0 x y s) (hw : ∀ a, t.writes x y a → W a) :
    (runTask t s).DrawsIn W d0 (t.curxAfter x) y := by
  obtain ⟨hd, rfl, rfl⟩ := h
  have h : DrawingIn W d0 s.curx s.cury s := ⟨hd, rfl, rfl⟩
  cases t with
  | point u v => exact h.plotClipped hw
  | store b v => exact h.writeByte (hw b rfl) v
  | column ch i =>
    show (blitColumn ch i s).DrawsIn W d0 s.curx s.cury
    unfold blitColumn storeClipped
    split
    · next ho => exact h.writeByte (hw _ ⟨ho, rfl⟩) _
    · exact .running h
  | dot ch i j =>
    show (blitDot ch i j s).DrawsIn W d0 s.curx s.cury
    unfold blitDot
    split
    · next hm => exact h.plotClipped fun a ha => hw a ⟨hm, ha⟩
    · exact .running h
  | advance f =>
    show (internalAction (Machine.advance f) s).DrawsIn W d0 _ _
    rcases internalAction_cases (Machine.advance f) s with ⟨s1, e, hi⟩ | ⟨c, s1, e, hi⟩ <;> rw [hi]
    · rw [(serve_go e).1]
      exact .running ⟨hd, rfl, rfl⟩
    · rw [(serve_reset e).1]
      exact .ended hd

/-- The rasterizer changes only the bytes its tasks write, in any run. -/
theorem DrawingIn.raster {ts : List Task} (h : DrawingIn W d0 x y s) (hw : ∀ a, tasksWrite y a ts x → W a) :
    (raster ts s).At (fun s => ChangedOnly W d0 s.disp) fun s => ChangedOnly W d0 s.disp := by
  induction ts generalizing s x with
  | nil => exact .running h.1
  | cons t ts ih =>
    rw [raster_cons]
    exact (h.runTask fun a ha => hw a (.inl ha)).andThen fun h => ih h fun a ha => hw a (.inr ha)

/-- A command changes only the bytes its tasks write, in any run. -/
theorem exec_changedOnly (i : Instr) (s : State) (hw : ∀ a, tasksWrite s.cury a (tasksOf i s) s.curx → W a) :
    ∃ t, exec i s = .next t ∧ ChangedOnly W s.disp t.disp := by
  obtain ⟨t, he, h⟩ := exec_went i s
  refine ⟨t, he, ?_⟩
  rcases h.silent_or_drew with h | rfl
  · exact h.1 ▸ .refl W s.disp
  · have h : DrawingIn W s.disp s.curx s.cury (startWork i s) := ⟨.refl W s.disp, rfl, rfl⟩
    exact (h.raster hw).close_of_silent fun hs ht => ht.1 ▸ hs

end Sys2Proof.Machine
end

/-! SUPPORT. The bytes the tasks of each command write are those that 45_control.md rule R130 gives it. -/

section
namespace Sys2Proof.Machine

variable {ts us : List Task} {x y : Word} {a : Address} {f : Font} {ch : Byte}

theorem tasksWrite_append : tasksWrite y a (ts ++ us) x ↔
    tasksWrite y a ts x ∨ tasksWrite y a us (curxAfterTasks ts x) := by
  induction ts generalizing x with
  | nil => exact (false_or _).to_iff.symm
  | cons t ts ih => exact (or_congr_right ih).trans or_assoc.symm

/-- Without an advance the cursor stays. -/
theorem tasksWrite_iff_of_ne_advance (ht : ∀ t ∈ ts, ∀ g, t ≠ .advance g) :
    tasksWrite y a ts x ↔ ∃ t ∈ ts, t.writes x y a := by
  induction ts with
  | nil => simp [tasksWrite]
  | cons t ts ih =>
    obtain ⟨hx, hts⟩ := List.forall_mem_cons.1 ht
    rw [tasksWrite, Task.curxAfter_of_ne_advance hx, ih hts, List.exists_mem_cons_iff]

theorem tasksWrite_points (ps : List (Int × Int)) (h : tasksWrite y a (pointTasks ps) x) :
    ∃ p ∈ ps, isByteOf a p.1 p.2 := by
  obtain ⟨t, ht, hw⟩ :=
    (tasksWrite_iff_of_ne_advance (ts := pointTasks ps) (List.forall_mem_map.2 fun _ _ => nofun)).1 h
  obtain ⟨p, hp, rfl⟩ := List.mem_map.1 ht
  exact ⟨p, hp, hw⟩

/-- An advance writes nothing. -/
theorem tasksWrite_snoc_advance (ht : ∀ t ∈ ts, ∀ g, t ≠ .advance g) :
    tasksWrite y a (ts ++ [.advance f]) x ↔ ∃ t ∈ ts, t.writes x y a := by
  rw [tasksWrite_append, tasksWrite_iff_of_ne_advance ht]
  exact or_iff_left fun h => h.elim id id

theorem tasksWrite_glyph (h : tasksWrite y a (glyphTasks f ch) x) : glyphMayWrite f ch x.toNat y.toNat a := by
  cases f with
  | f8x8 =>
    obtain ⟨t, ht, hw⟩ :=
      (tasksWrite_snoc_advance (ts := columnTasks ch) (List.forall_mem_map.2 fun _ _ => nofun)).1 h
    obtain ⟨i, -, rfl⟩ := List.mem_map.1 ht
    exact ⟨i, hw⟩
  | f3x6 =>
    obtain ⟨t, ht, hw⟩ :=
      (tasksWrite_snoc_advance (ts := dotOrder.map fun p => .dot ch p.1 p.2)
        (List.forall_mem_map.2 fun _ _ => nofun)).1 h
    obtain ⟨p, -, rfl⟩ := List.mem_map.1 ht
    exact ⟨p.1, p.2, hw⟩

theorem curxAfterTasks_glyph (f : Font) (ch : Byte) (x : Word) :
    curxAfterTasks (glyphTasks f ch) x = sat16 (x.toNat + glyphStep f) := by
  cases f <;> rfl

theorem curxAfterTasks_append (ts us : List Task) (x : Word) :
    curxAfterTasks (ts ++ us) x = curxAfterTasks us (curxAfterTasks ts x) := List.foldl_append

theorem curxAfterTasks_string (f : Font) (s : State) {n : Nat} (h : n ≤ 64) (x : Word) :
    curxAfterTasks (stringTasks f s n) x = curxAfter f n x := by
  induction n with
  | zero => rfl
  | succ n ih =>
    rw [stringTasks_succ f s h, curxAfterTasks_append, ih (Nat.le_of_succ_le h), curxAfterTasks_glyph]
    rfl

/-- A STRING writes what its glyphs write, each with the cursor after those before it. -/
theorem tasksWrite_string (s : State) {n : Nat} (hn : n ≤ 64) (h : tasksWrite y a (stringTasks f s n) x) :
    ∃ m < n, glyphMayWrite f (s.charAt m) (curxAfter f m x).toNat y.toNat a := by
  induction n with
  | zero => exact h.elim
  | succ n ih =>
    rw [stringTasks_succ f s hn, tasksWrite_append, curxAfterTasks_string f s (Nat.le_of_succ_le hn)] at h
    rcases h with h | h
    · obtain ⟨m, hm, hg⟩ := ih (Nat.le_of_succ_le hn) h
      exact ⟨m, Nat.lt_succ_of_lt hm, hg⟩
    · exact ⟨n, Nat.lt_succ_self n, tasksWrite_glyph h⟩

theorem mayWrite_of_tasksWrite {i : Instr} {s : State} (h : tasksWrite s.cury a (tasksOf i s) s.curx) :
    mayWrite i s a := by
  cases i with
  | nop | init | setcur => exact h
  | plot c u => exact h.resolve_right id
  | rect c u | circle c u => exact tasksWrite_points _ h
  | fill c u => exact trivial
  | char8 c u => exact tasksWrite_glyph (f := .f8x8) h
  | char3 c u => exact tasksWrite_glyph (f := .f3x6) h
  | string c f =>
    unfold tasksOf at h
    dsimp only at h
    split at h
    · next hl => exact ⟨hl, tasksWrite_string s hl h⟩
    · exact h.elim

/-- Settles O35: a command changes only what its tasks write (`exec_changedOnly`). -/
theorem displayFrame : Obligations.DisplayFrame :=
  fun i s => exec_changedOnly i s fun _ => mayWrite_of_tasksWrite

end Sys2Proof.Machine
end

/-! SUPPORT. No step is refused or faults (60_exceptions.md rules R138, R143). -/

section
namespace Sys2Proof.Machine

/-- Settles O11: the Host's event is served, or the command it starts runs to its end (`exec_ended`), or its word is
rejected. -/
theorem everyStepGoesOn : Obligations.EveryStepGoesOn := by
  intro s
  unfold step
  split
  · exact ⟨_, rfl⟩
  · next e rest _ =>
    split
    · exact ⟨_, rfl⟩
    · split
      · next i _ =>
        obtain ⟨t, he, -⟩ := exec_ended i (hostAct e { s with host := rest })
        exact ⟨t, he⟩
      · exact ⟨_, rfl⟩

end Sys2Proof.Machine
end

/-! SUPPORT. OUT_OF_RANGE (60_exceptions.md rule R132): PLOT's operand check is the one way to it, and drawing never
ends in it. -/

section
namespace Sys2Proof.Machine

variable {s t : State}

/-- An off-screen PLOT has one action, an abort. -/
theorem exec_plot_off_screen (c : Color) (u : BitVec 1) (hn : s.noReset = true) (hf : s.fault = false)
    (ho : onScreen s.arg0.toInt s.arg1.toInt = false) :
    ∃ t, exec (.plot c u) s = .next t ∧ OnlyCompletes .outOfRange s t := by
  have hb : plotBody (startWork (.plot c u) s) = raise .outOfRange (startWork (.plot c u) s) := by
    rw [plotBody_startWork, if_neg (Bool.eq_false_iff.1 ho)]
  refine ⟨_, exec_plot c u s, ?_⟩
  rw [runCommand_of_not_fault hf, hb]
  exact lastAction_abort_onlyCompletes (s := startWork (.plot c u) s) hn (by decide)

/-- Every other way to end a command than PLOT's operand check gives another result. -/
theorem run_not_outOfRange : Run (fun _ => True) fun t => t.result ≠ .outOfRange where
  served _ _ := trivial
  cut _ _ _ := ⟨nofun, nofun⟩
  completed _ _ _ := trivial
  timedOut _ _ := nofun
  finish _ := nofun
  setTodo _ _ := trivial
  advance _ _ := trivial

theorem exec_not_outOfRange {i : Instr} (hi : ∀ c u, i ≠ .plot c u) (s : State) :
    ∃ t, exec i s = .next t ∧ t.result ≠ .outOfRange :=
  run_not_outOfRange.exec (fun _ => nofun) (fun _ => nofun) (fun _ => trivial) (fun _ => nofun) (fun _ => nofun) i
    (fun ⟨c, u, h⟩ => absurd h (hi c u)) s trivial

/-- A command that ends in OUT_OF_RANGE has drawn nothing. -/
theorem Went.silent_of_outOfRange {i : Instr} (h : Went i s t) (hr : t.result = .outOfRange) : Silent s t := by
  rcases h.silent_or_drew with h | rfl
  · exact h
  · exact absurd hr (run_not_outOfRange.close (run_not_outOfRange.raster _ trivial))

/-- Settles O43: PLOT's check by `exec_plot_off_screen`; the other commands and the other ways through PLOT by the ways
a command ends (`run_not_outOfRange`). -/
theorem onlyPlotIsOutOfRange : Obligations.OnlyPlotIsOutOfRange := by
  refine ⟨fun c u s hn hf ho => exec_plot_off_screen c u hn hf ho, fun i s t hi he => ?_, fun c u s t he hr => ?_⟩
  · obtain ⟨t', he', hr⟩ := exec_not_outOfRange hi s
    cases he.symm.trans he'
    exact hr
  · obtain ⟨t', he', hw⟩ := exec_went (.plot c u) s
    cases he.symm.trans he'
    exact (hw.silent_of_outOfRange hr).2

end Sys2Proof.Machine
end

/-! SUPPORT. PLOT cut short by a TIMEOUT (41_pixelplot.md rule R87, 60_exceptions.md rule R134): only its fifth
transaction, the WR, can reach its byte. -/

section
namespace Sys2Proof.Machine

variable {a : Address} {v : Byte} {before : List (Transaction × Answer)} {x : Transaction} {d : Display}

/-- The transactions of a PixelPlot before its WR, oldest first. -/
def plotReads (a : Address) : List (Transaction × Answer) :=
  [(.sel a.side a.page a.column, .ok), (.rd a.side, .ok), (.rd a.side, .ok), (.sel a.side a.page a.column, .ok)]

theorem plotTrace_reverse (a : Address) (v : Byte) :
    (plotTrace a v).reverse = plotReads a ++ [(.wr a.side v, .ok)] := rfl

theorem ne_wr_of_mem_plotReads {e : Transaction × Answer} (h : e ∈ plotReads a) (sd : Side) (w : Byte) :
    e.1 ≠ .wr sd w := by
  rcases (by simpa [plotReads] using h : e = _ ∨ e = _ ∨ e = _) with rfl | rfl | rfl <;> nofun

theorem answer_of_mem_plotTrace {e : Transaction × Answer} (h : e ∈ (plotTrace a v).reverse) : e.2 = .ok := by
  rcases (by simpa [plotTrace] using h : e = _ ∨ e = _ ∨ e = _ ∨ e = _) with rfl | rfl | rfl | rfl <;> rfl

theorem drop_past_timeout (k : Nat) (rest : List Answer) :
    (List.replicate k Answer.ok ++ .timeout :: rest).drop (k + 1) = rest := by
  simp [List.drop_append]

/-- What a PixelPlot leaves whose transaction `x` times out, after `before`: every byte as it was, and its own, possibly
written, if `x` is the WR (20_memory.md rule R51). -/
theorem after_cut_plot (n : Nat) (b : Address) (hw : d.dram.wf = true)
    (h : before ++ [(x, .ok)] <+: (plotTrace a v).reverse) :
    (d.after n (before ++ [(x, .timeout)])).byteAt b = d.byteAt b ∨
    a = b ∧ before.length = 4 ∧ (d.after n (before ++ [(x, .timeout)])).byteAt b = v := by
  rw [plotTrace_reverse, List.prefix_concat_iff] at h
  rcases h with h | h
  · obtain ⟨rfl, hx⟩ := List.append_inj' h rfl
    obtain rfl : x = .wr a.side v := by simpa using hx
    have hd : (d.after n ((plotReads a).take 3)).dram = d.dram :=
      after_dram n (fun e he => ne_wr_of_mem_plotReads (List.mem_of_mem_take he)) d
    have hwr := byteAt_selected_timeOut (d := d.after n ((plotReads a).take 3)) (by rwa [hd]) a b v n
    exact hwr.imp (fun hb => hb.trans (congrArg (·.read b.cell) hd)) fun ⟨hb, hv⟩ => ⟨hb, rfl, hv⟩
  · refine .inl (congrArg (·.read b.cell) (after_dram n (fun e he => ?_) d))
    rcases List.mem_append.1 he with he | he
    · exact ne_wr_of_mem_plotReads (h.subset (List.mem_append_left _ he))
    · obtain rfl : e = (x, .timeout) := by simpa using he
      exact ne_wr_of_mem_plotReads (e := (x, .ok)) (h.subset (by simp))

/-- Settles O46: the transactions are those of the undisturbed PLOT up to the one that times out (`exec_timesOut`), and
the display is what they leave (O26). -/
theorem plotTimesOutPrecisely : Obligations.PlotTimesOutPrecisely := by
  intro c u s k rest hn hf hw ho hk ha
  obtain ⟨t', he', hp, -⟩ := exec_plotted c u (s := { s with answers := [] }) ⟨rfl, hn⟩ hf
  obtain ⟨t, before, x, he, hdone, hfault, hi, rfl, hpre⟩ :=
    exec_timesOut hn ha he' (hp.issued ho) (fun _ => answer_of_mem_plotTrace) hk
  obtain ⟨_, heF, hops, hy, hbusy, -, hx⟩ := commandFrame (.plot c u) s nofun nofun hn
  obtain ⟨_, _, heD, hiD, hdisp, -⟩ := displayChangesOnlyByTransactions (.plot c u) s
  obtain ⟨_, _, _, _, heA, -, hiA, -, -, -, hans, -⟩ := transactionsFollowTheSequencer (.plot c u) s hn
  cases he.symm.trans heF
  cases he.symm.trans heD
  cases he.symm.trans heA
  obtain rfl := issued_unique hi hiD
  obtain rfl := issued_unique hi hiA
  have hcut (b : Address) := after_cut_plot s.draws b hw hpre
  rw [← hdisp] at hcut
  refine ⟨t, _, he, hdone, hfault, hops, ⟨hx nofun nofun nofun, hy⟩, hbusy, hi, by simp, ?_, fun b hb => ?_, ?_⟩
  · rw [hans, ha, List.length_append, List.length_singleton, drop_past_timeout]
  · exact (hcut b).resolve_right fun ⟨h, _⟩ => hb h.symm
  · exact (hcut _).imp id fun ⟨_, hl, hv⟩ => ⟨hl, hv⟩

end Sys2Proof.Machine
end

/-! SUPPORT. A reset between commands, and one that arrives after `j` more actions of a running command
(70_reset_and_hazards.md rules R146, R147): what it does at the next action, by the kind of that action. -/

section
namespace Sys2Proof.Machine

/-- The engine's registers hold their reset values, the Host goes on with `rest`, and `new` has been issued since
`s`. -/
def Abandoned (s : State) (rest : List HostEvent) (new : List (Transaction × Answer)) (t : State) : Prop :=
  atResetValues t ∧ t.host = rest ∧ issued s t new

/-- A reset gives the registers the values of 10_state.md rule R34. -/
theorem atResetValues_engineReset (s : State) : atResetValues (engineReset s) :=
  ⟨rfl, (by decide : State.reset.statusWord = 0), rfl, rfl, rfl, rfl, rfl, rfl, rfl⟩

/-- Settles O18: the reset is one host event, and `engineReset` keeps the display and the trace. -/
theorem resetKeepsTheDisplay : Obligations.ResetKeepsTheDisplay := by
  intro s cut rest hh
  exact ⟨_, step_event hh rfl, atResetValues_engineReset _, rfl, rfl, rfl⟩

/-- The Host lets `j` actions go by and then resets the engine. -/
def resetAfter (j : Nat) (cut : Bool) (rest : List HostEvent) : List HostEvent :=
  List.replicate j .pause ++ .reset cut :: rest

/-- The run `σ` with a reset to come, beside `a`, the same without host accesses: since `s` both have issued the same,
and the reset arrives once `n` transactions have been issued and no other action done. -/
def Awaits (s : State) (cut : Bool) (rest : List HostEvent) (n : Nat) (σ a : State) : Prop :=
  a.host = [] ∧ ∃ done j, issued s a done ∧ n = done.length + j ∧ σ = { a with host := resetAfter j cut rest }

/-- After `before`, `t` has issued the transaction `x` next, whatever its answer. -/
def IssuesNext (s : State) (before : List (Transaction × Answer)) (x : Transaction) (t : State) : Prop :=
  ∃ a whole, issued s t whole ∧ before ++ [(x, a)] <+: whole

/-- An effect that looks at none of the Host's accesses to come. -/
def HostBlind (f : State → State) : Prop := ∀ s h, f { s with host := h } = { f s with host := h }

variable {s σ a b : State} {cut : Bool} {rest : List HostEvent} {n : Nat} {f : State → State}

theorem serve_of_host_nil (h : a.host = []) : serve a.host a = .go a := by
  rw [h, serve_nil, ← h]

theorem HostBlind.host_nil (hf : HostBlind f) (h : a.host = []) : (f a).host = [] := by
  have e := hf a []
  rw [← h] at e
  rw [show f a = _ from e, h]

theorem IssuesNext.more {before : List (Transaction × Answer)} {x : Transaction} (h : IssuesNext s before x a)
    (hm : IssuesMore a b) : IssuesNext s before x b := by
  obtain ⟨y, whole, hi, hp⟩ := h
  obtain ⟨new, hn⟩ := hm
  exact ⟨y, whole ++ new, issued_trans hi hn, hp.trans (List.prefix_append _ _)⟩

theorem IssuesNext.prefix_of_issued {before whole : List (Transaction × Answer)} {x : Transaction}
    (h : IssuesNext s before x a) (hi : issued s a whole) : ∃ y, before ++ [(x, y)] <+: whole := by
  obtain ⟨y, whole', hi', hp⟩ := h
  exact ⟨y, issued_unique hi' hi ▸ hp⟩

/-- An action without a transaction: done by both runs, or the reset arrives before it. -/
theorem Awaits.internalAction (h : Awaits s cut rest n σ a) (hf : HostBlind f) :
    internalAction f a = .running (f a) ∧ ∃ done, issued s a done ∧
      ((∃ j, n = done.length + j + 1 ∧
          internalAction f σ = .running { f a with host := resetAfter j cut rest }) ∨
        (n = done.length ∧ ∃ t, internalAction f σ = .ended t ∧ Abandoned s rest done t)) := by
  obtain ⟨hh, done, j, hi, hn, rfl⟩ := h
  refine ⟨internalAction_of_go (serve_of_host_nil hh), done, hi, ?_⟩
  cases j with
  | zero => exact .inr ⟨hn, _, rfl, atResetValues_engineReset _, rfl, hi⟩
  | succ j => exact .inl ⟨j, hn, congrArg Flow.running (hf a _)⟩

/-- The last action of a command: done by both runs, or the reset arrives before it. -/
theorem Awaits.lastAction (h : Awaits s cut rest n σ a) (hf : HostBlind f) :
    lastAction f a = f a ∧ ∃ done, issued s a done ∧
      ((∃ j, n = done.length + j + 1 ∧ lastAction f σ = { f a with host := resetAfter j cut rest }) ∨
        (n = done.length ∧ Abandoned s rest done (lastAction f σ))) := by
  obtain ⟨ha, done, hi, hσ⟩ := h.internalAction hf
  refine ⟨congrArg Flow.state ha, done, hi, ?_⟩
  unfold Machine.lastAction
  rcases hσ with ⟨j, hn, e⟩ | ⟨hn, t, e, ht⟩ <;> rw [e]
  · exact .inl ⟨j, hn, rfl⟩
  · exact .inr ⟨hn, ht⟩

/-- Where the two runs stand after a piece of work with `d` advances, if the reset was to arrive after `n`
transactions: they go on; a TIMEOUT has ended both; the reset has ended the first, before a transaction or before the
advance. -/
inductive Flow.Lands (s : State) (cut : Bool) (rest : List HostEvent) (d n : Nat) : Flow → Flow → Prop where
  | running {σ a : State} {n' : Nat} (hn : n = n' + d) (h : Awaits s cut rest n' σ a) :
      Flow.Lands s cut rest d n (.running σ) (.running a)
  | timedOut {σ a : State} (h : Awaits s cut rest n σ a) (hr : a.result = .hwTimeout) :
      Flow.Lands s cut rest d n (.ended σ) (.ended a)
  | atTransaction {t : State} {r : Flow} {before : List (Transaction × Answer)} {x : Transaction}
      (hn : n = before.length) (ht : Abandoned s rest (before ++ if cut then [(x, .timeout)] else []) t)
      (hx : IssuesNext s before x r.state) : Flow.Lands s cut rest d n (.ended t) r
  | atAdvance {t a : State} {new : List (Transaction × Answer)} (hd : d = 1) (hn : n = new.length)
      (ht : Abandoned s rest new t) (ha : a.host = []) (hi : issued s a new) :
      Flow.Lands s cut rest d n (.ended t) (.running a)

theorem issued_snoc {done : List (Transaction × Answer)} {e : Transaction × Answer} (hi : issued s a done)
    (ht : b.trace = e :: a.trace) : issued s b (done ++ [e]) :=
  issued_trans hi (ht : issued a b [e])

/-- The next transaction, whatever the Bus answers. -/
theorem issue_issuesNext {done : List (Transaction × Answer)} (hh : a.host = []) (hi : issued s a done)
    (x : Transaction) (q : SeqState) : IssuesNext s done x (issue x q a).state := by
  cases ha : a.answers.headD .ok with
  | ok =>
    rw [issue_of_ok (serve_of_host_nil hh) ha]
    exact ⟨.ok, _, issued_snoc hi rfl, List.prefix_rfl⟩
  | timeout =>
    rw [issue_of_timeout (serve_of_host_nil hh) ha]
    exact ⟨.timeout, _, issued_snoc hi rfl, List.prefix_rfl⟩

/-- A reset that arrives before a transaction cuts it short if `cut` says so. -/
theorem issue_abandoned {done : List (Transaction × Answer)} (hi : issued s a done) (x : Transaction) (q : SeqState) :
    ∃ t, issue x q { a with host := resetAfter 0 cut rest } = .ended t ∧
      Abandoned s rest (done ++ if cut then [(x, .timeout)] else []) t := by
  refine ⟨_, rfl, atResetValues_engineReset _, ?_⟩
  cases cut
  · exact ⟨rfl, (List.append_nil done).symm ▸ hi⟩
  · exact ⟨rfl, issued_snoc hi rfl⟩

/-- A transaction: both runs issue it, or the reset arrives before it. -/
theorem Awaits.issue (h : Awaits s cut rest n σ a) (x : Transaction) (q : SeqState) :
    (issue x q σ).Lands s cut rest 0 n (issue x q a) := by
  obtain ⟨hh, done, j, hi, hn, rfl⟩ := h
  cases j with
  | zero =>
    obtain ⟨t, e, ht⟩ := issue_abandoned (cut := cut) (rest := rest) hi x q
    rw [e]
    exact .atTransaction hn ht (issue_issuesNext hh hi x q)
  | succ j =>
    have hn' (y : Answer) : n = (done ++ [(x, y)]).length + j := by rw [List.length_append, hn]; simp; omega
    have eσ : serve (resetAfter (j + 1) cut rest) { a with host := resetAfter (j + 1) cut rest } =
        .go { a with host := resetAfter j cut rest } := rfl
    cases ha : a.answers.headD .ok with
    | ok =>
      rw [issue_of_ok (serve_of_host_nil hh) ha,
        issue_of_ok (s1 := { a with host := resetAfter j cut rest }) eσ ha]
      exact .running rfl ⟨hh, _, j, issued_snoc hi rfl, hn' .ok, rfl⟩
    | timeout =>
      rw [issue_of_timeout (serve_of_host_nil hh) ha,
        issue_of_timeout (s1 := { a with host := resetAfter j cut rest }) eσ ha]
      exact .timedOut ⟨hh, _, j, issued_snoc hi rfl, hn' .timeout, rfl⟩ rfl

theorem issuesMore_andThen {g : State → Flow} (r : Flow) (hg : ∀ s, (g s).Rel IssuesMore s) :
    IssuesMore r.state (r.andThen g).state := by
  cases r with
  | running b => exact (hg b).state
  | ended b => exact issuesMoreRel.refl b

theorem issuesMore_close (r : Flow) : IssuesMore r.state r.close := by
  cases r with
  | running b => exact issuesMoreRel.lastAction issuesMoreRel.finish b
  | ended b => exact issuesMoreRel.refl b

/-- The next piece of work, after one without an advance. -/
theorem Flow.Lands.andThen {d : Nat} {r r' : Flow} {g : State → Flow} (h : r.Lands s cut rest 0 n r')
    (hg : ∀ {σ a}, Awaits s cut rest n σ a → (g σ).Lands s cut rest d n (g a))
    (hm : ∀ s, (g s).Rel IssuesMore s) :
    (r.andThen g).Lands s cut rest d n (r'.andThen g) := by
  cases h with
  | running hn h => exact hg (hn ▸ h)
  | timedOut h hr => exact .timedOut h hr
  | atTransaction hn ht hx => exact .atTransaction hn ht (hx.more (issuesMore_andThen r' hm))
  | atAdvance hd => exact absurd hd nofun

theorem Awaits.writeByte (h : Awaits s cut rest n σ a) (p : Address) (v : Byte) :
    (writeByte p v σ).Lands s cut rest 0 n (writeByte p v a) :=
  (h.issue _ _).andThen (·.issue _ _) (issuesMoreRel.issue _ _)

theorem Awaits.readTrue (h : Awaits s cut rest n σ a) (p : Address) :
    (readTrue p σ).Lands s cut rest 0 n (readTrue p a) :=
  (h.issue _ _).andThen (fun h => (h.issue _ _).andThen (·.issue _ _) (issuesMoreRel.issue _ _))
    fun s => issuesMoreRel.andThen (issuesMoreRel.issue _ _ s) fun s _ => issuesMoreRel.issue _ _ s

theorem Awaits.work_cursor (h : Awaits s cut rest n σ a) :
    σ.work = a.work ∧ σ.curx = a.curx ∧ σ.cury = a.cury := by
  obtain ⟨-, -, -, -, -, rfl⟩ := h
  exact ⟨rfl, rfl, rfl⟩

theorem Awaits.plotCore (h : Awaits s cut rest n σ a) (x y : Int) :
    (plotCore x y σ).Lands s cut rest 0 n (plotCore x y a) := by
  refine (h.readTrue _).andThen (fun h => ?_) fun s => issuesMoreRel.writeByte _ _ s
  rw [h.work_cursor.1]
  exact h.writeByte _ _

theorem Awaits.plotClipped (h : Awaits s cut rest n σ a) (x y : Int) :
    (plotClipped x y σ).Lands s cut rest 0 n (plotClipped x y a) := by
  unfold Machine.plotClipped
  split
  · exact h.plotCore x y
  · exact .running rfl h

/-- A task other than an advance. -/
theorem Awaits.runTask (h : Awaits s cut rest n σ a) {t : Task} (ht : ∀ g, t ≠ .advance g) :
    (runTask t σ).Lands s cut rest 0 n (runTask t a) := by
  obtain ⟨hw, hx, hy⟩ := h.work_cursor
  cases t with
  | point x y => exact h.plotClipped x y
  | store p v => exact h.writeByte p v
  | column ch i =>
    show (blitColumn ch i σ).Lands s cut rest 0 n (blitColumn ch i a)
    unfold blitColumn storeClipped
    rw [hw, hx, hy]
    split
    · exact h.writeByte _ _
    · exact .running rfl h
  | dot ch i j =>
    show (blitDot ch i j σ).Lands s cut rest 0 n (blitDot ch i j a)
    unfold blitDot
    rw [hx, hy]
    split
    · exact h.plotClipped _ _
    · exact .running rfl h
  | advance g => exact absurd rfl (ht g)

theorem hostBlind_setTodo (us : List Task) : HostBlind (setTodo us) := fun _ _ => rfl

theorem Awaits.map (h : Awaits s cut rest n σ a) (hf : HostBlind f) (ht : ∀ s, (f s).trace = s.trace) :
    Awaits s cut rest n (f σ) (f a) := by
  obtain ⟨hh, done, j, hi, hn, rfl⟩ := h
  exact ⟨hf.host_nil hh, done, j, (ht a).trans hi, hn, hf a _⟩

/-- The tasks of a rasterizer that advances no cursor. -/
theorem Awaits.raster (h : Awaits s cut rest n σ a) {ts : List Task} (ht : ∀ t ∈ ts, ∀ g, t ≠ .advance g) :
    (raster ts σ).Lands s cut rest 0 n (raster ts a) := by
  induction ts generalizing σ a with
  | nil => exact .running rfl (h.map (hostBlind_setTodo []) fun _ => rfl)
  | cons t ts ih =>
    rw [raster_cons, raster_cons]
    exact (h.runTask (ht t List.mem_cons_self)).andThen (fun h => ih h fun t hm => ht t (List.mem_cons_of_mem _ hm))
      (issuesMoreRel.raster ts)

theorem raster_advance (g : Font) (s : State) :
    raster [.advance g] s = internalAction (fun s => setTodo [] (advance g s)) s := by
  rw [raster_cons]
  show (internalAction (advance g) s).andThen _ = _
  unfold internalAction
  cases serve s.host s <;> rfl

/-- The advance after a glyph. -/
theorem Awaits.advance (h : Awaits s cut rest n σ a) (g : Font) :
    (Machine.raster [.advance g] σ).Lands s cut rest 1 n (Machine.raster [.advance g] a) := by
  have hf : HostBlind fun s => setTodo [] (Machine.advance g s) := fun _ _ => rfl
  obtain ⟨ea, done, hi, hσ⟩ := h.internalAction hf
  rw [raster_advance, raster_advance, ea]
  rcases hσ with ⟨j, hn, e⟩ | ⟨hn, t, e, ht⟩ <;> rw [e]
  · exact .running hn ⟨hf.host_nil h.1, done, j, hi, rfl, rfl⟩
  · exact .atAdvance rfl hn ht (hf.host_nil h.1) hi

/-- A glyph: its advance comes after its transactions. -/
theorem Awaits.glyph (h : Awaits s cut rest n σ a) (g : Font) (ch : Byte) :
    (Machine.raster (glyphTasks g ch) σ).Lands s cut rest 1 n (Machine.raster (glyphTasks g ch) a) := by
  obtain ⟨ts, hg, ht⟩ := glyphTasks_eq_snoc g ch
  rw [hg, raster_append, raster_append]
  exact (h.raster ht).andThen (·.advance g) (issuesMoreRel.raster _)

end Sys2Proof.Machine
end

/-! SUPPORT. How many actions a command has, and what a reset after `k` of them leaves (70_reset_and_hazards.md rule
R146), for every command but STRING. -/

section
namespace Sys2Proof.Machine

/-- What becomes of the command `i`, started in `s` with a reset to come after `k` actions: it ends in `t`, and in `t'`
without the reset. The reset is still to come; or it abandons the command and cuts nothing short; or it cuts the next
transaction short. -/
inductive ResetEnds (i : Instr) (s : State) (k : Nat) (cut : Bool) (rest : List HostEvent) (t t' : State) : Prop where
  | late {m : Nat} {whole : List (Transaction × Answer)} (hi : issued s t' whole) (hno : ¬hasAction i s k whole t')
      (hm : m ≤ k) (ht : t = { t' with host := resetAfter m cut rest })
  | uncut {new whole : List (Transaction × Answer)} (ht : Abandoned s rest new t) (hi : issued s t' whole)
      (hact : hasAction i s k whole t') (hp : new <+: whole) (hd : doneAfter i s k new whole)
      (hc : cut = false ∨ new = whole ∨ beforeAdvance i s k new)
  | cutShort {before whole : List (Transaction × Answer)} {x : Transaction} {y : Answer} (hc : cut = true)
      (ht : Abandoned s rest (before ++ [(x, .timeout)]) t) (hi : issued s t' whole) (hact : hasAction i s k whole t')
      (hp : before ++ [(x, y)] <+: whole) (hd : doneAfter i s k before whole) (hb : ¬beforeAdvance i s k before)

variable {i : Instr} {s t t' σ a : State} {k n d : Nat} {cut : Bool} {rest : List HostEvent}
  {done new before whole : List (Transaction × Answer)} {x : Transaction} {f : State → State}

/-- A reset before a transaction, whether it cuts it short or not. -/
theorem ResetEnds.atTransaction (ht : Abandoned s rest (before ++ if cut then [(x, .timeout)] else []) t)
    (hx : IssuesNext s before x t') (hact : ∀ {whole}, issued s t' whole → before.length < whole.length →
      hasAction i s k whole t') (hd : ∀ {whole}, doneAfter i s k before whole) (hb : ¬beforeAdvance i s k before) :
    ResetEnds i s k cut rest t t' := by
  obtain ⟨y, whole, hi, hp⟩ := hx
  have hlen := hp.length_le
  rw [List.length_append, List.length_singleton] at hlen
  cases cut with
  | false =>
    have ht' : Abandoned s rest before t := List.append_nil before ▸ ht
    exact .uncut ht' hi (hact hi hlen) ((List.prefix_append _ _).trans hp) hd (.inl rfl)
  | true => exact .cutShort rfl ht hi (hact hi hlen) hp hd hb

/-- The actions of a command that completes: its transactions, `d` that are none, and the completion. -/
theorem hasAction_iff_of_completes (hr : t'.result ≠ .hwTimeout)
    (hd : d = if t'.result = .ok then internalSteps i s else 0) :
    hasAction i s k whole t' ↔ k ≤ whole.length + d := by
  unfold hasAction
  by_cases hok : t'.result = .ok
  · rw [if_pos hok] at hd
    simp only [hok, hd, ne_eq, reduceCtorEq, not_false_eq_true, true_and, false_and, or_false]
    omega
  · rw [if_neg hok] at hd
    simp only [hok, hd, hr, ne_eq, not_false_eq_true, true_and, false_and, or_false, Nat.add_zero]
    omega

/-- The actions of a command that times out, other than STRING, are its transactions. -/
theorem hasAction_iff_of_timesOut (hr : t'.result = .hwTimeout) (hs : ∀ c f, i ≠ .string c f) :
    hasAction i s k whole t' ↔ k < whole.length := by
  unfold hasAction
  simp [hr, hs]

/-- At its start a command has issued nothing. -/
theorem doneAfter_zero (i : Instr) (s : State) (whole : List (Transaction × Answer)) : doneAfter i s 0 [] whole := by
  refine ⟨0, rfl, ?_⟩
  cases i with
  | string c f =>
    obtain ⟨u, he, ts, hi, -⟩ :=
      exec_showsItsTrace (.string c f) { s with arg0 := BitVec.ofNat 16 (0 + 1), host := [] }
    exact ⟨Nat.zero_le _, .inl rfl, fun _ => ⟨u, ts, ⟨he, hi⟩, List.nil_prefix⟩⟩
  | char8 | char3 => exact .inl rfl
  | init => exact Nat.zero_le _
  | nop | plot | rect | fill | circle | setcur => rfl

/-- Transactions come before the actions that are none, but in a STRING. -/
theorem doneAfter_length (hs : ∀ c f, i ≠ .string c f) : doneAfter i s done.length done whole := by
  refine ⟨0, rfl, ?_⟩
  cases i with
  | string c f => exact absurd rfl (hs c f)
  | char8 | char3 => exact .inl rfl
  | init => exact Nat.zero_le _
  | nop | plot | rect | fill | circle | setcur => rfl

theorem not_beforeAdvance (hs : ∀ c f, i ≠ .string c f) : ¬beforeAdvance i s k new :=
  fun ⟨c, f, _, _, hi, _⟩ => hs c f hi

/-- The completion, as the action that comes after `d` that are no transactions. -/
theorem Awaits.completes (h : Awaits s cut rest n σ a) (hf : HostBlind f) (ht : ∀ s, (f s).trace = s.trace)
    (hr : (f a).result ≠ .hwTimeout) (hd : d = if (f a).result = .ok then internalSteps i s else 0) (hk : k = n + d)
    (hdone : ∀ {whole}, issued s a whole → k = whole.length + d → doneAfter i s k whole whole) :
    ResetEnds i s k cut rest (Machine.lastAction f σ) (Machine.lastAction f a) := by
  obtain ⟨ea, whole, hi, hσ⟩ := h.lastAction hf
  have hi' : issued s (f a) whole := (ht a).trans hi
  rw [ea]
  rcases hσ with ⟨j, hn, e⟩ | ⟨hn, habandoned⟩
  · exact .late hi' (by rw [hasAction_iff_of_completes hr hd]; omega) (by omega : j ≤ k) e
  · have hk' : k = whole.length + d := by omega
    exact .uncut habandoned hi' ((hasAction_iff_of_completes hr hd).2 hk'.le) List.prefix_rfl (hdone hi hk')
      (.inr (.inl rfl))

/-- The start of a command in a run without host accesses. -/
def startAlone (i : Instr) (s : State) : State := startWork i { s with host := [] }

theorem issued_startAlone (i : Instr) (s : State) : issued s (startAlone i s) [] := rfl

/-- The starts of a command, with the reset to come after `k` actions and alone. -/
theorem awaits_startWork (i : Instr) (hh : s.host = resetAfter k cut rest) :
    Awaits s cut rest k (startWork i s) (startAlone i s) := by
  refine ⟨rfl, [], k, issued_startAlone i s, (Nat.zero_add k).symm, ?_⟩
  rw [← hh]
  rfl

/-- A command whose completion is its one action. -/
theorem resetEnds_of_lastAction (hh : s.host = resetAfter k cut rest) (hf : HostBlind f)
    (ht : ∀ s, (f s).trace = s.trace) (hr : ∀ s, (f s).result ≠ .hwTimeout)
    (hs : (∀ s, (f s).result ≠ .ok) ∨ internalSteps i s = 0) : ResetEnds i s k cut rest
      (lastAction f (startWork i s)) (lastAction f (startAlone i s)) := by
  refine (awaits_startWork i hh).completes hf ht (hr _) (d := 0) ?_ rfl fun {whole} hi hk => ?_
  · rcases hs with hs | hs
    · rw [if_neg (hs _)]
    · rw [hs, ite_self]
  · obtain rfl := issued_unique hi (issued_startAlone i s)
    exact hk ▸ doneAfter_zero i s []

/-- An operand check, or FAULT, that ends the command with its one action. -/
theorem resetEnds_of_abort (hh : s.host = resetAfter k cut rest) {code : Result} (hc : code ≠ .hwTimeout)
    (hok : code ≠ .ok) : ResetEnds i s k cut rest
      (lastAction (abort code) (startWork i s)) (lastAction (abort code) (startAlone i s)) := by
  rw [abort_eq_finish hc]
  exact resetEnds_of_lastAction hh (fun _ _ => rfl) (fun _ => rfl) (fun _ => hc) (.inl fun _ => hok)

/-- INIT has two actions: the clearing of FAULT and BUSYWR, and its completion. -/
theorem resetEnds_init (u : BitVec 2) (hh : s.host = resetAfter k cut rest) : ResetEnds (.init u) s k cut rest
    (initBody (startWork (.init u) s)).close (initBody (startAlone (.init u) s)).close := by
  have hf : HostBlind acknowledge := fun _ _ => rfl
  have h := awaits_startWork (.init u) hh
  obtain ⟨ea, done, hi, hσ⟩ := h.internalAction hf
  obtain rfl := issued_unique hi (issued_startAlone (.init u) s)
  unfold initBody
  rw [ea]
  rcases hσ with ⟨j, hk, e⟩ | ⟨rfl, t, e, ht⟩ <;> rw [e]
  · have h' : Awaits s cut rest j { acknowledge (startAlone (.init u) s) with
        host := resetAfter j cut rest } (acknowledge (startAlone (.init u) s)) :=
      ⟨rfl, [], j, rfl, (Nat.zero_add j).symm, rfl⟩
    refine h'.completes (f := fun s => finish .ok (homeCursor s)) (d := 1) (fun _ _ => rfl) (fun _ => rfl)
      (by simp) rfl (by simpa using hk) fun {whole} hi hk => ⟨1, hk, le_rfl⟩
  · have el : lastAction (fun s => finish .ok (homeCursor s)) (acknowledge (startAlone (.init u) s)) =
        finish .ok (homeCursor (acknowledge (startAlone (.init u) s))) := lastAction_of_go (serve_of_host_nil rfl)
    show ResetEnds (.init u) s 0 cut rest t (lastAction (fun s => finish .ok (homeCursor s)) _)
    rw [el]
    exact .uncut ht (issued_startAlone (.init u) s) (.inr (.inl ⟨nofun, rfl⟩)) List.prefix_rfl
      (doneAfter_zero _ s []) (.inr (.inl rfl))

/-- A command that draws in one piece, with `d` advances after its transactions. -/
theorem Flow.Lands.resetEnds {r r' : Flow} (h : r.Lands s cut rest d k r') (hs : ∀ c f, i ≠ .string c f)
    (hd : internalSteps i s = d) (hdone : ∀ {whole}, doneAfter i s (whole.length + d) whole whole) :
    ResetEnds i s k cut rest r.close r'.close := by
  cases h with
  | running hn h =>
    exact h.completes (f := finish .ok) (fun _ _ => rfl) (fun _ => rfl) (by simp) (by simp [hd]) hn
      fun _ hk => hk ▸ hdone
  | timedOut h hr =>
    obtain ⟨-, whole, j, hi, hn, rfl⟩ := h
    have hno : ¬hasAction i s k whole _ := mt (hasAction_iff_of_timesOut hr hs).1 (by omega)
    exact .late hi hno (by omega : j ≤ k) rfl
  | atTransaction hn ht hx =>
    exact .atTransaction ht (hx.more (issuesMore_close r')) (fun _ hlt => .inl (hn ▸ hlt))
      (hn ▸ doneAfter_length hs) (not_beforeAdvance hs)
  | atAdvance _ hn ht ha hi =>
    have e : (Flow.running _).close = _ := lastAction_of_go (serve_of_host_nil ha)
    rw [e]
    exact .uncut ht hi (.inr (.inl ⟨nofun, hn⟩)) List.prefix_rfl (hn ▸ doneAfter_length hs) (.inr (.inl rfl))

end Sys2Proof.Machine
end

/-! SUPPORT. STRING glyph by glyph with a reset to come (44_text.md rule R112, 70_reset_and_hazards.md rule R146),
beside the STRINGs of fewer characters; then every command. -/

section
namespace Sys2Proof.Machine

/-- The first `m` glyphs of a STRING, in a run without host accesses. -/
def stringAlone (c : Color) (f : Font) (s : State) (m : Nat) : Flow :=
  raster (stringTasks f s m) (startAlone (.string c f) s)

/-- The first `g` glyphs complete, and what they issue is among `done`. -/
def GlyphsAmong (c : Color) (f : Font) (s : State) (g : Nat) (done : List (Transaction × Answer)) : Prop :=
  ∃ b ts, stringAlone c f s g = .running b ∧ issued s b ts ∧ ts <+: done

/-- Where a STRING with a reset to come after `k` actions stands after its first `m` glyphs: it goes on; glyph `g` has
timed out; or the reset has arrived in glyph `g`, before a transaction or before the advance. -/
inductive StringLands (c : Color) (f : Font) (s : State) (k : Nat) (cut : Bool) (rest : List HostEvent) (m : Nat) :
    Flow → Prop where
  | running {σ b : State} {n : Nat} (hb : stringAlone c f s m = .running b) (h : Awaits s cut rest n σ b)
      (hk : k = n + m) : StringLands c f s k cut rest m (.running σ)
  | timedOut {σ b : State} {g n : Nat} (hg : g < m) (hb : stringAlone c f s (g + 1) = .ended b)
      (h : Awaits s cut rest n σ b) (hr : b.result = .hwTimeout) (hk : k = n + g) :
      StringLands c f s k cut rest m (.ended σ)
  | atTransaction {t : State} {g : Nat} {before : List (Transaction × Answer)} {x : Transaction} (hg : g < m)
      (hd : GlyphsAmong c f s g before) (hk : k = before.length + g)
      (ht : Abandoned s rest (before ++ if cut then [(x, .timeout)] else []) t)
      (hx : IssuesNext s before x (stringAlone c f s (g + 1)).state) : StringLands c f s k cut rest m (.ended t)
  | atAdvance {t b : State} {g : Nat} {new : List (Transaction × Answer)} (hg : g < m) (hd : GlyphsAmong c f s g new)
      (hk : k = new.length + g) (ht : Abandoned s rest new t) (hb : stringAlone c f s (g + 1) = .running b)
      (hi : issued s b new) : StringLands c f s k cut rest m (.ended t)

variable {c : Color} {f : Font} {s t t' a b u : State} {k m n g : Nat} {cut : Bool} {rest : List HostEvent}
  {i : Instr} {done ts whole : List (Transaction × Answer)}

theorem stringAlone_succ (h : m < 64) :
    stringAlone c f s (m + 1) = (stringAlone c f s m).andThen (raster (glyphTasks f (s.charAt m))) := by
  unfold stringAlone
  rw [stringTasks_succ f s h, raster_append]

theorem stringAlone_of_le (h : m ≤ n) : ∃ ts, stringAlone c f s n = (stringAlone c f s m).andThen (raster ts) := by
  obtain ⟨cs, hcs⟩ := List.take_prefix_take_left (l := s.charbuf.toList) h
  refine ⟨cs.flatMap (glyphTasks f), ?_⟩
  unfold stringAlone
  rw [← raster_append, stringTasks, stringTasks, ← hcs, List.flatMap_append]

theorem stringAlone_ended (hb : stringAlone c f s m = .ended b) (h : m ≤ n) : stringAlone c f s n = .ended b := by
  obtain ⟨ts, e⟩ := stringAlone_of_le h
  rw [e, hb]
  rfl

/-- What the first glyphs issue, the whole STRING has issued. -/
theorem issuesMore_stringAlone (h : m ≤ n) : IssuesMore (stringAlone c f s m).state (stringAlone c f s n).close := by
  obtain ⟨ts, e⟩ := stringAlone_of_le h
  rw [e]
  exact (issuesMore_andThen _ (issuesMoreRel.raster ts)).trans (issuesMore_close _)

theorem close_trace (r : Flow) : r.close.trace = r.state.trace := by
  cases r with
  | running b => exact (lastAction_silent (f := finish .ok) (fun _ => ⟨rfl, rfl⟩) b).2
  | ended b => rfl

theorem stringAlone_close_result (hb : stringAlone c f s m = .running b) :
    (stringAlone c f s m).close.result = .ok := by
  have h := raster_cycles (stringTasks f s m) (s := startAlone (.string c f) s) rfl
  rw [show raster _ _ = _ from hb] at h
  cases h with
  | running new _ hn _ => exact hb ▸ (CursorHeldAt.finish ⟨hn, rfl⟩).1

/-- A STRING that is not refused completes or times out. -/
theorem stringAlone_result (hm : m ≤ 64) : (stringAlone c f s m).close.result = .ok ∨
    (stringAlone c f s m).close.result = .hwTimeout := by
  rcases raster_string f s (σ := startAlone (.string c f) s) rfl hm with
    ⟨b, hb, -⟩ | ⟨g, hg, b, -, ⟨-, hr, -⟩, hb⟩
  · exact .inl (stringAlone_close_result hb)
  · exact .inr (by rw [show stringAlone c f s m = _ from hb]; exact hr)

/-- The STRING of the first `m` characters, as `stringIssues` speaks of it, is the first `m` glyphs. -/
theorem stringIssues_iff (c : Color) (f : Font) (hf : s.fault = false) (hm : m ≤ 64) :
    ∃ u, u.result = (stringAlone c f s m).close.result ∧
      ∀ v ts, stringIssues c f s m v ts ↔ v = u ∧ issued s (stringAlone c f s m).state ts := by
  obtain ⟨u, he, hb⟩ := exec_string_first c f (s := { s with host := [] }) hf hm
  obtain ⟨-, htr, hr⟩ := hb.disp_trace_result
  replace htr : u.trace = (stringAlone c f s m).state.trace := htr.trans (close_trace _)
  refine ⟨u, hr, fun v ts => ⟨fun ⟨he', hi⟩ => ?_, fun ⟨hv, hi⟩ => ?_⟩⟩
  · cases he.symm.trans he'
    exact ⟨rfl, htr.symm.trans hi⟩
  · exact hv ▸ ⟨he, htr.trans hi⟩

theorem stringIssues_of_running (hf : s.fault = false) (hm : m ≤ 64) (hb : stringAlone c f s m = .running b)
    (hi : issued s b ts) : ∃ u, stringIssues c f s m u ts ∧ u.result = .ok := by
  obtain ⟨u, hr, hu⟩ := stringIssues_iff c f hf hm
  exact ⟨u, (hu u ts).2 ⟨rfl, by rw [hb]; exact hi⟩, hr.trans (stringAlone_close_result hb)⟩

/-- What has been issued when `g` glyphs of a STRING are counted: all of theirs, and no more than the next one's. -/
theorem GlyphsAmong.doneAfter (h : GlyphsAmong c f s g done) (hf : s.fault = false) (hl : s.arg0.toNat ≤ 64)
    (hg : g ≤ s.arg0.toNat)
    (hn : g < s.arg0.toNat → ∃ ts, issued s (stringAlone c f s (g + 1)).state ts ∧ done <+: ts) :
    doneAfter (.string c f) s (done.length + g) done whole := by
  obtain ⟨b, ts, hb, hi, hp⟩ := h
  refine ⟨g, rfl, hg, .inr ?_, fun hlt => ?_⟩
  · obtain ⟨u, hu, hr⟩ := stringIssues_of_running hf (hg.trans hl) hb hi
    exact ⟨u, ts, hu, hr, hp⟩
  · obtain ⟨ts', hi', hp'⟩ := hn hlt
    obtain ⟨u, -, hu⟩ := stringIssues_iff c f hf (m := g + 1) (by omega)
    exact ⟨u, ts', (hu u ts').2 ⟨rfl, hi'⟩, hp'⟩

/-- A STRING that completes `g` glyphs has at least their advances among its actions. -/
theorem GlyphsAmong.hasAction (h : GlyphsAmong c f s g done) (hf : s.fault = false) (hl : s.arg0.toNat ≤ 64)
    (hg : g ≤ s.arg0.toNat) (hr : t'.result = .ok ∨ t'.result = .hwTimeout) (hk : k < whole.length + g) :
    hasAction (.string c f) s k whole t' := by
  rcases hr with hr | hr
  · have hk' : k ≤ whole.length + s.arg0.toNat := by omega
    exact .inr (.inr (.inl ⟨hr, hk'⟩))
  · obtain ⟨b, ts, hb, hi, -⟩ := h
    obtain ⟨u, hu, hok⟩ := stringIssues_of_running hf (hg.trans hl) hb hi
    exact .inr (.inr (.inr ⟨hr, c, f, g, u, ts, rfl, hg, hu, hok, hk⟩))

/-- A STRING whose glyph `g` times out has counted `g` glyphs. -/
theorem not_hasAction_of_timedOut (hf : s.fault = false) (hl : s.arg0.toNat ≤ 64)
    (hb : stringAlone c f s (g + 1) = .ended b) (hr : b.result = .hwTimeout) (hk : whole.length + g ≤ k) :
    ¬hasAction (.string c f) s k whole b := by
  rintro (h | ⟨h, -⟩ | ⟨h, -⟩ | ⟨-, c', f', n, u, ts, hi, hn, hu, hok, hlt⟩)
  · omega
  · exact h hr
  · cases hr.symm.trans h
  · cases hi
    obtain ⟨v, hv, hiff⟩ := stringIssues_iff c f hf (hn.trans hl)
    obtain ⟨rfl, -⟩ := (hiff u ts).1 hu
    rw [stringAlone_ended hb (by omega : g + 1 ≤ n)] at hv
    cases hok.symm.trans (hv.trans hr)

/-- What both runs have issued by now comes first. -/
theorem Awaits.issued_prefix {σ : State} {before : List (Transaction × Answer)} (h : Awaits s cut rest n σ a)
    (hm : IssuesMore a b) (hi : issued s b whole) (hp : before <+: whole) (hn : n = before.length) :
    ∃ ts, issued s a ts ∧ ts <+: before := by
  obtain ⟨-, ts, j, hts, hlen, -⟩ := h
  obtain ⟨new, hnew⟩ := hm
  obtain rfl := issued_unique hi (issued_trans hts hnew)
  exact ⟨ts, hts, List.prefix_of_prefix_length_le (List.prefix_append _ _) hp (by omega)⟩

/-- One glyph more. -/
theorem StringLands.succ {r : Flow} (h : StringLands c f s k cut rest m r) (hm : m < 64) :
    StringLands c f s k cut rest (m + 1) (r.andThen (raster (glyphTasks f (s.charAt m)))) := by
  cases h with
  | @running σ b n hb h hk =>
    have hs : stringAlone c f s (m + 1) = raster (glyphTasks f (s.charAt m)) b := by rw [stringAlone_succ hm, hb]; rfl
    have hmore := (issuesMoreRel.raster (glyphTasks f (s.charAt m)) b).state
    have hg := h.glyph f (s.charAt m)
    rw [← hs] at hg hmore
    show StringLands c f s k cut rest (m + 1) (raster (glyphTasks f (s.charAt m)) σ)
    generalize raster (glyphTasks f (s.charAt m)) σ = l at hg
    generalize hr' : stringAlone c f s (m + 1) = r' at hg hmore
    cases hg with
    | running hn h => exact .running hr' h (by omega)
    | timedOut h hr => exact .timedOut (Nat.lt_succ_self m) hr' h hr hk
    | atTransaction hn ht hx =>
      obtain ⟨y, whole, hi, hp⟩ := id hx
      obtain ⟨ts, hts, hpre⟩ := h.issued_prefix hmore hi ((List.prefix_append _ _).trans hp) hn
      exact .atTransaction (Nat.lt_succ_self m) ⟨b, ts, hb, hts, hpre⟩ (hn ▸ hk) ht (hr' ▸ hx)
    | atAdvance _ hn ht _ hi =>
      obtain ⟨ts, hts, hpre⟩ := h.issued_prefix hmore hi List.prefix_rfl hn
      exact .atAdvance (Nat.lt_succ_self m) ⟨b, ts, hb, hts, hpre⟩ (hn ▸ hk) ht hr' hi
  | timedOut hg hb h hr hk => exact .timedOut (Nat.lt_succ_of_lt hg) hb h hr hk
  | atTransaction hg hd hk ht hx => exact .atTransaction (Nat.lt_succ_of_lt hg) hd hk ht hx
  | atAdvance hg hd hk ht hb hi => exact .atAdvance (Nat.lt_succ_of_lt hg) hd hk ht hb hi

theorem stringLands (c : Color) (f : Font) (hh : s.host = resetAfter k cut rest) (hm : m ≤ 64) :
    StringLands c f s k cut rest m (raster (stringTasks f s m) (startWork (.string c f) s)) := by
  induction m with
  | zero => exact .running rfl ((awaits_startWork (.string c f) hh).map (hostBlind_setTodo []) fun _ => rfl) rfl
  | succ m ih =>
    rw [stringTasks_succ f s hm, raster_append]
    exact (ih (Nat.le_of_succ_le hm)).succ hm

/-- A STRING that is about to issue a transaction is about to count no glyph. -/
theorem not_beforeAdvance_of_issuesNext {before : List (Transaction × Answer)} {x : Transaction} (hf : s.fault = false)
    (hg : g < 64) (hx : IssuesNext s before x (stringAlone c f s (g + 1)).state) :
    ¬beforeAdvance (.string c f) s (before.length + g) before := by
  rintro ⟨c', f', m, u, hi, -, hu, -, hk⟩
  cases hi
  obtain rfl := Nat.add_left_cancel hk
  obtain ⟨v, -, hiff⟩ := stringIssues_iff c f hf (Nat.succ_le_of_lt hg)
  obtain ⟨y, hp⟩ := hx.prefix_of_issued ((hiff u before).1 hu).2
  simpa using hp.length_le

/-- A STRING of at most 64 characters, not refused. -/
theorem resetEnds_string (c : Color) (f : Font) (hf : s.fault = false) (hl : s.arg0.toNat ≤ 64)
    (hh : s.host = resetAfter k cut rest) : ResetEnds (.string c f) s k cut rest
      (raster (stringTasks f s s.arg0.toNat) (startWork (.string c f) s)).close
      (stringAlone c f s s.arg0.toNat).close := by
  have h := stringLands c f hh hl
  have hr := stringAlone_result (c := c) (f := f) (s := s) hl
  generalize raster _ _ = r at h
  cases h with
  | running hb h hk =>
    rw [hb]
    refine h.completes (f := finish .ok) (fun _ _ => rfl) (fun _ => rfl) nofun rfl hk fun {whole} hi hk => ?_
    have hd : GlyphsAmong c f s s.arg0.toNat whole := ⟨_, whole, hb, hi, List.prefix_rfl⟩
    exact hk ▸ hd.doneAfter hf hl le_rfl fun hlt => absurd hlt (lt_irrefl _)
  | timedOut hg hb h hto hk =>
    obtain ⟨-, whole, j, hi, hn, rfl⟩ := h
    rw [stringAlone_ended hb hg]
    have hno := not_hasAction_of_timedOut (whole := whole) (k := k) hf hl hb hto (by omega)
    exact .late hi hno (by omega : j ≤ k) rfl
  | @atTransaction t g before x hg hd hk ht hx =>
    subst hk
    refine .atTransaction ht (hx.more (issuesMore_stringAlone hg))
      (fun _ hlt => hd.hasAction hf hl hg.le hr (Nat.add_lt_add_right hlt g)) ?_
      (not_beforeAdvance_of_issuesNext hf (by omega) hx)
    obtain ⟨y, whole, hi, hp⟩ := hx
    exact hd.doneAfter hf hl hg.le fun _ => ⟨whole, hi, (List.prefix_append _ _).trans hp⟩
  | @atAdvance t b g new hg hd hk ht hb hi =>
    subst hk
    obtain ⟨later, hlater⟩ := issuesMore_stringAlone (c := c) (f := f) (s := s) hg
    rw [hb] at hlater
    obtain ⟨u, hu, hok⟩ := stringIssues_of_running hf (by omega) hb hi
    have hd1 : GlyphsAmong c f s (g + 1) new := ⟨b, new, hb, hi, List.prefix_rfl⟩
    have hdone := hd.doneAfter (whole := new ++ later) hf hl hg.le fun _ =>
      ⟨new, by rw [hb]; exact hi, List.prefix_rfl⟩
    refine .uncut ht (issued_trans hi hlater) (hd1.hasAction hf hl hg hr ?_) (List.prefix_append _ _) hdone
      (.inr (.inr ⟨c, f, g, u, rfl, hg, hu, hok, rfl⟩))
    rw [List.length_append]
    omega

/-- What becomes of `i` by `exec`, with the reset to come and alone. -/
def ExecResetEnds (i : Instr) (s : State) (k : Nat) (cut : Bool) (rest : List HostEvent) : Prop :=
  ∃ t t', exec i s = .next t ∧ exec i { s with host := [] } = .next t' ∧ ResetEnds i s k cut rest t t'

/-- What a command that is not refused does is what its rule does. -/
theorem resetEnds_of_rule {rule : State → Flow} (hf : s.fault = false)
    (he : ∀ s, exec i s = .next (runCommand i rule s))
    (h : ResetEnds i s k cut rest (rule (startWork i s)).close (rule (startAlone i s)).close) :
    ExecResetEnds i s k cut rest :=
  ⟨_, _, by rw [he, runCommand_of_not_fault hf],
    by rw [he, runCommand_of_not_fault (s := { s with host := [] }) hf]; rfl, h⟩

/-- A command that is not refused and draws points or bytes. -/
theorem resetEnds_of_drawing {ts : List Task} (hh : s.host = resetAfter k cut rest)
    (ht : ∀ t ∈ ts, ∀ g, t ≠ .advance g) (hs : ∀ c f, i ≠ .string c f) (hd : internalSteps i s = 0) :
    ResetEnds i s k cut rest (raster ts (startWork i s)).close (raster ts (startAlone i s)).close :=
  ((awaits_startWork i hh).raster ht).resetEnds hs hd (doneAfter_length hs)

theorem exec_resetEnds (i : Instr) (hh : s.host = resetAfter k cut rest) : ExecResetEnds i s k cut rest := by
  by_cases hi : ∃ u, i = .init u
  · obtain ⟨u, rfl⟩ := hi
    exact ⟨_, _, exec_init u s, exec_init u _, resetEnds_init u hh⟩
  cases hf : s.fault with
  | true =>
    have hi : ∀ u, i ≠ .init u := fun u h => hi ⟨u, h⟩
    exact ⟨_, _, exec_of_fault hi hf, exec_of_fault (s := { s with host := [] }) hi hf,
      resetEnds_of_abort hh (by decide) (by decide)⟩
  | false =>
    cases i with
    | init u => exact absurd ⟨u, rfl⟩ hi
    | nop u =>
      exact resetEnds_of_rule hf (exec_nop u)
        (resetEnds_of_lastAction (f := finish .ok) hh (fun _ _ => rfl) (fun _ => rfl) (fun _ => nofun) (.inr rfl))
    | setcur u =>
      exact resetEnds_of_rule hf (exec_setcur u)
        (resetEnds_of_lastAction (f := fun s => finish .ok (setCursor s)) hh (fun _ _ => rfl) (fun _ => rfl)
          (fun _ => nofun) (.inr rfl))
    | plot c u =>
      refine resetEnds_of_rule hf (exec_plot c u) ?_
      rw [plotBody_startWork, startAlone, plotBody_startWork]
      dsimp only
      split
      · exact Flow.Lands.resetEnds ((awaits_startWork (.plot c u) hh).plotCore _ _) nofun rfl (doneAfter_length nofun)
      · exact resetEnds_of_abort hh (by decide) (by decide)
    | rect c u =>
      exact resetEnds_of_rule hf (exec_rect c u)
        (resetEnds_of_drawing hh (fun _ ht g e => advance_not_mem_pointTasks _ g (e ▸ ht)) nofun rfl)
    | fill c u =>
      exact resetEnds_of_rule hf (exec_fill c u) (resetEnds_of_drawing hh (by simp) nofun rfl)
    | circle c u =>
      exact resetEnds_of_rule hf (exec_circle c u)
        (resetEnds_of_drawing hh (fun _ ht g e => advance_not_mem_pointTasks _ g (e ▸ ht)) nofun rfl)
    | char8 c u =>
      exact resetEnds_of_rule hf (exec_char8 c u)
        (((awaits_startWork (.char8 c u) hh).glyph .f8x8 _).resetEnds nofun rfl ⟨1, rfl, .inr ⟨rfl, rfl⟩⟩)
    | char3 c u =>
      exact resetEnds_of_rule hf (exec_char3 c u)
        (((awaits_startWork (.char3 c u) hh).glyph .f3x6 _).resetEnds nofun rfl ⟨1, rfl, .inr ⟨rfl, rfl⟩⟩)
    | string c f =>
      rcases Nat.lt_or_ge 64 s.arg0.toNat with hl | hl
      · exact ⟨_, _, exec_string_too_long c f hf hl, exec_string_too_long (s := { s with host := [] }) c f hf hl,
          resetEnds_of_abort hh (by decide) (by decide)⟩
      · exact ⟨_, _, exec_string_of_le c f hf hl, exec_string_of_le (s := { s with host := [] }) c f hf hl,
          resetEnds_string c f hf hl hh⟩

/-- Settles O19: the run is compared, action by action, with the one without host accesses (`exec_resetEnds`); the
display is what the transactions issued leave in any run (`exec_showsItsTrace`). -/
theorem resetAbandonsTheCommand : Obligations.ResetAbandonsTheCommand := by
  intro i s k cut rest hh
  obtain ⟨t, t', he, he', h⟩ := exec_resetEnds i hh
  obtain ⟨_, heD, new, hnew, hdisp⟩ := exec_showsItsTrace i s
  cases he.symm.trans heD
  cases h with
  | @late m whole hi hno hm ht =>
    exact ⟨t, t', new, whole, he, he', hnew, hi, hdisp, fun h => absurd h hno,
      fun _ => ⟨by rw [ht], m, by rw [ht]; rfl, hm⟩⟩
  | uncut ht hi hact hp hd hc =>
    obtain ⟨hreset, hrest, hnew'⟩ := ht
    obtain rfl := issued_unique hnew hnew'
    exact ⟨t, t', _, _, he, he', hnew, hi, hdisp,
      fun _ => ⟨hreset, hrest, .inl ⟨hp, hd, hc⟩⟩, fun h => absurd hact h⟩
  | cutShort hc ht hi hact hp hd hb =>
    obtain ⟨hreset, hrest, hnew'⟩ := ht
    obtain rfl := issued_unique hnew hnew'
    exact ⟨t, t', _, _, he, he', hnew, hi, hdisp,
      fun _ => ⟨hreset, hrest, .inr ⟨hc, _, _, _, rfl, hp, hd, hb⟩⟩, fun h => absurd hact h⟩

end Sys2Proof.Machine
end
